-- ==== Sys2Proof/Word.lean ====
section
/-! DEFINITION. The word types of the TIFO core: every register is 32 bits wide (10_state R20), buffer memory is an
array of 8-bit bytes (20_memory R71). -/

namespace Sys2Proof

/-- A 32-bit register, window entry or command word (R8, R20, R100). -/
abbrev Word := BitVec 32

/-- An 8-bit byte of buffer memory, entry of LUT, or IMM field (R71, R43, R100). -/
abbrev Byte := BitVec 8

end Sys2Proof
end

