-- ==== Sys2Proof/Syntax.lean ====
section
/-! DEFINITION. The commands of the TIFO core: one constructor per row of the opcode table (30_encoding R104), operands
in the order of the assembler syntax of R108 (destinations first). -/

namespace Sys2Proof

/-- A descriptor number, DESC0 to DESC7 (R36, R102). -/
abbrev DescId := Fin 8

/-- A colour-matrix bank, 0 or 1 (R37, R103). -/
abbrev Bank := Fin 2

/-- A pixel format, with the FMT codes 0 to 3 of 20_memory R73. -/
inductive Format where
  | gray
  | rgb
  | hsv
  | ycc
  deriving DecidableEq, Repr

/-- The 22 commands of R104. `d` is the destination DD, `a` the source DA (SPLIT: destinations `b c d`, source `a`;
MERGE: destination `d`, sources `a b c`); `s` a kernel side, `l` a maxLevel, `f` a format. -/
inductive Instr where
  | nop
  | alloc (d : DescId) (f : Format)
  | copy (d a : DescId) (f : Format)
  | gray (d a : DescId)
  | split (b c d a : DescId)
  | merge (d a b c : DescId)
  | rgb2hsv (d a : DescId)
  | hsv2rgb (d a : DescId)
  | matx (d a : DescId) (bank : Bank)
  | lut (d a : DescId) (f : Format)
  | conv (d a : DescId)
  | kgauss (s : Byte)
  | ksobelh
  | ksobelv
  | klapl
  | sobel (d a : DescId)
  | sharpen (d a : DescId)
  | blur (d a : DescId) (s : Byte)
  | hist (a : DescId) (l : Byte)
  | cum (l : Byte)
  | equalize (d a : DescId) (l : Byte)
  | stretch (d a : DescId) (l : Byte)
  deriving DecidableEq, Repr

end Sys2Proof
end

