-- ==== Sys2Proof/WellFormed.lean ====
section
/-! DEFINITION. The check on a command term that its operand types do not already make: the reserved immediate of
30_encoding R106 row 5. Descriptor numbers, banks, sizes and levels are in range by their types (R102, R103). -/

namespace Sys2Proof

/-- `true` for every command term that some command word encodes: all of them but LUT with format HSV (R106, R152). -/
def Instr.wellFormed : Instr → Bool
  | .lut _ _ f => f ≠ .hsv
  | .nop => true
  | .alloc _ _ => true
  | .copy _ _ _ => true
  | .gray _ _ => true
  | .split _ _ _ _ => true
  | .merge _ _ _ _ => true
  | .rgb2hsv _ _ => true
  | .hsv2rgb _ _ => true
  | .matx _ _ _ => true
  | .conv _ _ => true
  | .kgauss _ => true
  | .ksobelh => true
  | .ksobelv => true
  | .klapl => true
  | .sobel _ _ => true
  | .sharpen _ _ => true
  | .blur _ _ _ => true
  | .hist _ _ => true
  | .cum _ => true
  | .equalize _ _ _ => true
  | .stretch _ _ _ => true

end Sys2Proof
end

