-- ==== Sys2Proof/Decode.lean ====
section
/-! DEFINITION. The command word of 30_encoding R100, the total decoder of R105 and R106, and the encoder. Both work
from one table: `Opcode.code`, `Opcode.uses` and `Opcode.immKind` are the columns of R104. -/

namespace Sys2Proof

/-- `w[hi:lo]` read as an unsigned number (R9). -/
def bits (w : Word) (hi lo : Nat) : Nat := w.toNat / 2 ^ lo % 2 ^ (hi - lo + 1)

/-- The operand fields and the immediate of a word in format C32 (R100). -/
structure Fields where
  da : DescId
  db : DescId
  dc : DescId
  dd : DescId
  imm : Byte
  deriving DecidableEq, Repr

/-- The fields of a word, at the bit places of R100. -/
def fieldsOf (w : Word) : Fields where
  da := Fin.ofNat 8 (bits w 8 6)
  db := Fin.ofNat 8 (bits w 11 9)
  dc := Fin.ofNat 8 (bits w 14 12)
  dd := Fin.ofNat 8 (bits w 17 15)
  imm := BitVec.ofNat 8 (bits w 25 18)

/-- `word = OP | DA << 6 | DB << 9 | DC << 12 | DD << 15 | IMM << 18` (R100); the fields do not overlap, so the
disjunction is a sum, and RSVD is 0. -/
def wordOf (op : Nat) (f : Fields) : Word :=
  BitVec.ofNat 32 (op + f.da.val * 2 ^ 6 + f.db.val * 2 ^ 9 + f.dc.val * 2 ^ 12 + f.dd.val * 2 ^ 15 + f.imm.toNat * 2 ^ 18)

/-- The five ways IMM is read (R103). -/
inductive ImmKind where
  | none
  | fmt
  | bank
  | size
  | level
  deriving DecidableEq, Repr

/-- The assigned opcodes (R104). -/
inductive Opcode where
  | nop | alloc | copy
  | gray | split | merge | rgb2hsv | hsv2rgb | matx | lut
  | conv | kgauss | ksobelh | ksobelv | klapl | sobel | sharpen | blur
  | hist | cum | equalize | stretch
  deriving DecidableEq, Repr

/-- The column OP of R104. -/
def Opcode.code : Opcode → Nat
  | .nop => 0x00 | .alloc => 0x01 | .copy => 0x02
  | .gray => 0x10 | .split => 0x11 | .merge => 0x12 | .rgb2hsv => 0x13 | .hsv2rgb => 0x14 | .matx => 0x15 | .lut => 0x16
  | .conv => 0x20 | .kgauss => 0x21 | .ksobelh => 0x22 | .ksobelv => 0x23 | .klapl => 0x24 | .sobel => 0x25
  | .sharpen => 0x26 | .blur => 0x27
  | .hist => 0x30 | .cum => 0x31 | .equalize => 0x32 | .stretch => 0x33

/-- Every assigned opcode, in the order of R104. -/
def Opcode.all : List Opcode :=
  [.nop, .alloc, .copy, .gray, .split, .merge, .rgb2hsv, .hsv2rgb, .matx, .lut, .conv, .kgauss, .ksobelh, .ksobelv,
   .klapl, .sobel, .sharpen, .blur, .hist, .cum, .equalize, .stretch]

/-- The opcode with a given code; none for the 42 unassigned codes (R104, R107). -/
def opcodeOf (n : Nat) : Option Opcode := Opcode.all.find? fun op => op.code == n

/-- The column IMM of R104. -/
def Opcode.immKind : Opcode → ImmKind
  | .alloc | .copy | .lut => .fmt
  | .matx => .bank
  | .kgauss | .blur => .size
  | .hist | .cum | .equalize | .stretch => .level
  | .nop | .gray | .split | .merge | .rgb2hsv | .hsv2rgb | .conv | .ksobelh | .ksobelv | .klapl | .sobel | .sharpen => .none

/-- Whether a command uses DA, DB, DC, DD: `false` where R104 has the mark "-". -/
def Opcode.uses : Opcode → Bool × Bool × Bool × Bool
  | .nop | .kgauss | .ksobelh | .ksobelv | .klapl | .cum => (false, false, false, false)
  | .alloc => (false, false, false, true)
  | .hist => (true, false, false, false)
  | .split | .merge => (true, true, true, true)
  | .copy | .gray | .rgb2hsv | .hsv2rgb | .matx | .lut | .conv | .sobel | .sharpen | .blur | .equalize | .stretch =>
    (true, false, false, true)

/-- An operand field that R104 marks "-" is not 0 (R106 row 3). -/
def Opcode.strayField (op : Opcode) (f : Fields) : Bool :=
  let (a, b, c, d) := op.uses
  (!a && f.da ≠ 0) || (!b && f.db ≠ 0) || (!c && f.dc ≠ 0) || (!d && f.dd ≠ 0)

/-- An IMM bit that R103 says must be 0 is not 0 (R106 row 4). -/
def ImmKind.strayBits : ImmKind → Byte → Bool
  | .none, imm => imm.toNat ≠ 0
  | .fmt, imm => imm.toNat / 4 ≠ 0
  | .bank, imm => imm.toNat / 2 ≠ 0
  | .size, _ => false
  | .level, _ => false

/-- The FMT code of a format (R73, R103). -/
def Format.code : Format → Nat
  | .gray => 0
  | .rgb => 1
  | .hsv => 2
  | .ycc => 3

/-- The format of an FMT immediate, IMM[1:0] (R103). -/
def formatOf (imm : Byte) : Format :=
  match imm.toNat % 4 with
  | 0 => .gray
  | 1 => .rgb
  | 2 => .hsv
  | _ => .ycc

/-- The command a word with this opcode and these fields names (R104). -/
def Opcode.build (op : Opcode) (f : Fields) : Instr :=
  match op with
  | .nop => .nop
  | .alloc => .alloc f.dd (formatOf f.imm)
  | .copy => .copy f.dd f.da (formatOf f.imm)
  | .gray => .gray f.dd f.da
  | .split => .split f.db f.dc f.dd f.da
  | .merge => .merge f.dd f.da f.db f.dc
  | .rgb2hsv => .rgb2hsv f.dd f.da
  | .hsv2rgb => .hsv2rgb f.dd f.da
  | .matx => .matx f.dd f.da (Fin.ofNat 2 f.imm.toNat)
  | .lut => .lut f.dd f.da (formatOf f.imm)
  | .conv => .conv f.dd f.da
  | .kgauss => .kgauss f.imm
  | .ksobelh => .ksobelh
  | .ksobelv => .ksobelv
  | .klapl => .klapl
  | .sobel => .sobel f.dd f.da
  | .sharpen => .sharpen f.dd f.da
  | .blur => .blur f.dd f.da f.imm
  | .hist => .hist f.da f.imm
  | .cum => .cum f.imm
  | .equalize => .equalize f.dd f.da f.imm
  | .stretch => .stretch f.dd f.da f.imm

/-- Why a word is IllegalCommand: the five conditions of R106, in their order. -/
inductive DecodeError where
  | unassignedOpcode
  | reservedBits
  | unusedField
  | immediateBits
  | reservedImmediate
  deriving DecidableEq, Repr

/-- The column ERRINFO of R106. -/
def DecodeError.info : DecodeError → Nat
  | .unassignedOpcode => 1
  | .reservedBits => 2
  | .unusedField => 3
  | .immediateBits => 4
  | .reservedImmediate => 5

/-- The decode function, total on every word (R105): the first condition of R106 that holds, or the command. -/
def decode (w : Word) : Except DecodeError Instr :=
  match opcodeOf (bits w 5 0) with
  | none => .error .unassignedOpcode
  | some op =>
    if bits w 31 26 ≠ 0 then .error .reservedBits
    else if op.strayField (fieldsOf w) then .error .unusedField
    else if op.immKind.strayBits (fieldsOf w).imm then .error .immediateBits
    else if (op.build (fieldsOf w)).wellFormed then .ok (op.build (fieldsOf w))
    else .error .reservedImmediate

/-- The opcode of a command (R104). -/
def Instr.opcode : Instr → Opcode
  | .nop => .nop
  | .alloc _ _ => .alloc
  | .copy _ _ _ => .copy
  | .gray _ _ => .gray
  | .split _ _ _ _ => .split
  | .merge _ _ _ _ => .merge
  | .rgb2hsv _ _ => .rgb2hsv
  | .hsv2rgb _ _ => .hsv2rgb
  | .matx _ _ _ => .matx
  | .lut _ _ _ => .lut
  | .conv _ _ => .conv
  | .kgauss _ => .kgauss
  | .ksobelh => .ksobelh
  | .ksobelv => .ksobelv
  | .klapl => .klapl
  | .sobel _ _ => .sobel
  | .sharpen _ _ => .sharpen
  | .blur _ _ _ => .blur
  | .hist _ _ => .hist
  | .cum _ => .cum
  | .equalize _ _ _ => .equalize
  | .stretch _ _ _ => .stretch

/-- The fields of a command's word: the operands of R108 in the places of R104, every other field 0. -/
def Instr.fields : Instr → Fields
  | .nop => ⟨0, 0, 0, 0, 0⟩
  | .alloc d f => ⟨0, 0, 0, d, BitVec.ofNat 8 f.code⟩
  | .copy d a f => ⟨a, 0, 0, d, BitVec.ofNat 8 f.code⟩
  | .gray d a => ⟨a, 0, 0, d, 0⟩
  | .split b c d a => ⟨a, b, c, d, 0⟩
  | .merge d a b c => ⟨a, b, c, d, 0⟩
  | .rgb2hsv d a => ⟨a, 0, 0, d, 0⟩
  | .hsv2rgb d a => ⟨a, 0, 0, d, 0⟩
  | .matx d a bank => ⟨a, 0, 0, d, BitVec.ofNat 8 bank.val⟩
  | .lut d a f => ⟨a, 0, 0, d, BitVec.ofNat 8 f.code⟩
  | .conv d a => ⟨a, 0, 0, d, 0⟩
  | .kgauss s => ⟨0, 0, 0, 0, s⟩
  | .ksobelh => ⟨0, 0, 0, 0, 0⟩
  | .ksobelv => ⟨0, 0, 0, 0, 0⟩
  | .klapl => ⟨0, 0, 0, 0, 0⟩
  | .sobel d a => ⟨a, 0, 0, d, 0⟩
  | .sharpen d a => ⟨a, 0, 0, d, 0⟩
  | .blur d a s => ⟨a, 0, 0, d, s⟩
  | .hist a l => ⟨a, 0, 0, 0, l⟩
  | .cum l => ⟨0, 0, 0, 0, l⟩
  | .equalize d a l => ⟨a, 0, 0, d, l⟩
  | .stretch d a l => ⟨a, 0, 0, d, l⟩

/-- The word of a command (R100). -/
def encode (i : Instr) : Word := wordOf i.opcode.code i.fields

/-- The command the decoder reads from the table word `w`, of which the low `nbits` bits are given and the rest is 0. A
command is one 32-bit word written whole to CMD, so there is no byte order to lay out (R89, R100). -/
def decodeTableWord (nbits w : Nat) : Option Instr :=
  match decode (BitVec.ofNat 32 (w % 2 ^ nbits)) with
  | .ok i => some i
  | .error _ => none

end Sys2Proof
end

