-- ==== Sys2Proof/Machine/Arith.lean ====
section
/-! DEFINITION. The reduction functions of 00_scope R11 and the signed readings of R9. A rational `q` is given as a pair:
its numerator and its denominator. Everything is exact (R10). -/

namespace Sys2Proof.Machine

/-- `floor(n / d)`, `a div b` of R10: the greatest integer at most `n / d`, for any non-zero `d`. -/
def floorDiv (n d : Int) : Int := Int.fdiv n d

/-- `trunc(n / d)`: rounded toward zero (R11). -/
def truncDiv (n d : Int) : Int := Int.tdiv n d

/-- `rha(n / d)` for `d > 0`: rounded half away from zero (R11). -/
def rha (n d : Int) : Int :=
  if 0 ≤ n then floorDiv (2 * n + d) (2 * d) else -(floorDiv (2 * (-n) + d) (2 * d))

/-- `clamp(v, lo, hi)` (R11). -/
def clamp (v lo hi : Int) : Int := if v < lo then lo else if hi < v then hi else v

/-- The binary digits of the root, from the highest place down: `r` grows by `2^b` where the square still fits. -/
def isqrtFrom (n : Nat) : Nat → Nat → Nat
  | 0, r => r
  | b + 1, r => isqrtFrom n b (if (r + 2 ^ b) * (r + 2 ^ b) ≤ n then r + 2 ^ b else r)

/-- `isqrt(n)`: the greatest `s` with `s*s <= n` (R11). -/
def isqrt (n : Nat) : Nat := isqrtFrom n (Nat.log2 n / 2 + 1) 0

/-- `rsqrt(n)`: the square root rounded half away from zero (R11). -/
def rsqrt (n : Nat) : Nat := if isqrt n < n - isqrt n * isqrt n then isqrt n + 1 else isqrt n

/-- A number from 0 to 255 as a byte (R78: every rule shows its value lies in that range). -/
def byteOf (v : Nat) : Byte := BitVec.ofNat 8 v

/-- A clamped integer from 0 to 255 as a byte. -/
def byteOfInt (v : Int) : Byte := byteOf v.toNat

/-- `s16(w[15:0])`: the low half as a two's-complement integer (R9). -/
def s16 (w : Word) : Int := (BitVec.ofNat 16 w.toNat).toInt

/-- `s32(w)` (R9). -/
def s32 (w : Word) : Int := w.toInt

end Sys2Proof.Machine
end

