-- ==== Sys2Proof/Config.lean ====
section
/-! DEFINITION. The implementation parameters of 00_scope R7. The three sizes are a plain record `Params`, which State
carries in a field that no step changes (log 1). `GAUSS_Q` is a constant about which only the five properties of
42_convolution R177 are known (log 2). -/

namespace Sys2Proof.Config

/-- `MEM_SIZE`, `BUF_ALIGN` and `KMAX` (R7). They are configuration, fixed for the life of the model (R46). -/
structure Params where
  memSize : Nat
  bufAlign : Nat
  kmax : Nat
  deriving DecidableEq, Repr

/-- The legal values of R7: `BUF_ALIGN` a power of two from 4 to 4096, `MEM_SIZE` a multiple of it from 1 to 2^31,
`KMAX` odd from 3 to 15. -/
structure Params.Legal (p : Params) : Prop where
  align_pow : 2 ^ Nat.log2 p.bufAlign = p.bufAlign
  align_lo : 4 ≤ p.bufAlign
  align_hi : p.bufAlign ≤ 4096
  mem_mul : p.memSize % p.bufAlign = 0
  mem_lo : 1 ≤ p.memSize
  mem_hi : p.memSize ≤ 2 ^ 31
  kmax_odd : p.kmax % 2 = 1
  kmax_lo : 3 ≤ p.kmax
  kmax_hi : p.kmax ≤ 15

/-- The default values of R7. -/
def Params.default : Params := { memSize := 2 ^ 24, bufAlign := 16, kmax := 15 }

/-- The `s*s` offsets `(dx, dy) = (j - s div 2, i - s div 2)` of kernel row `i` and column `j` (R39, R177). -/
def offsets (s : Nat) : Finset (Int × Int) :=
  (Finset.range s ×ˢ Finset.range s).image fun p => ((p.2 : Int) - (s / 2 : Nat), (p.1 : Int) - (s / 2 : Nat))

/-- `g(dx, dy) = exp(-(dx^2 + dy^2) / (2 * sigma^2))` with `sigma = SIGMA / 256` (R177), over the reals. -/
noncomputable def gaussReal (sigma : Nat) (o : Int × Int) : ℝ :=
  Real.exp (-(((o.1 ^ 2 + o.2 ^ 2 : Int) : ℝ) / (2 * ((sigma : ℝ) / 256) ^ 2)))

/-- `wn(dx, dy)`: `g` divided by the sum of `g` over all `s*s` offsets (R177). -/
noncomputable def gaussNormal (s sigma : Nat) (o : Int × Int) : ℝ :=
  gaussReal sigma o / ∑ p ∈ offsets s, gaussReal sigma p

/-- The five properties of R177 that make a function `q s SIGMA (dx, dy)` a legal `GAUSS_Q`, for every odd side up to the
largest legal `KMAX` and every `SIGMA` from 1 to 65535. -/
structure LegalGaussQ (q : Nat → Nat → Int × Int → Int) : Prop where
  /-- Property 1. -/
  identity : ∀ sigma, 1 ≤ sigma → sigma < 65536 → q 1 sigma (0, 0) = 65536
  /-- Property 2. -/
  symmetry : ∀ s sigma dx dy, q s sigma (-dx, dy) = q s sigma (dx, dy) ∧ q s sigma (dx, -dy) = q s sigma (dx, dy) ∧
    q s sigma (dy, dx) = q s sigma (dx, dy)
  /-- Property 3. -/
  exactSum : ∀ s sigma, s % 2 = 1 → s ≤ 15 → 1 ≤ sigma → sigma < 65536 → ∑ o ∈ offsets s, q s sigma o = 65536
  /-- Property 4. -/
  accuracy : ∀ s sigma o, s % 2 = 1 → s ≤ 15 → 1 ≤ sigma → sigma < 65536 → o ∈ offsets s → o ≠ (0, 0) →
    |(q s sigma o : ℝ) - 65536 * gaussNormal s sigma o| ≤ 1
  /-- Property 5. -/
  centre : ∀ s sigma, s % 2 = 1 → s ≤ 15 → 1 ≤ sigma → sigma < 65536 →
    q s sigma (0, 0) = 65536 - ∑ o ∈ (offsets s).erase (0, 0), q s sigma o

/-- A Gaussian quantiser: a function with the properties of R177. -/
structure GaussQuantiser where
  weight : Nat → Nat → Int × Int → Int
  legal : LegalGaussQ weight

/-- `GAUSS_Q_REF` of R177: each weight other than the centre is `rha(65536 * wn)`; for a non-negative number `rha(x)` is
`floor(x + 1/2)` (R11). The centre then follows from property 5. -/
def GaussQuantiser.IsReference (q : GaussQuantiser) : Prop :=
  ∀ s sigma o, s % 2 = 1 → s ≤ 15 → 1 ≤ sigma → sigma < 65536 → o ∈ offsets s → o ≠ (0, 0) →
    q.weight s sigma o = ⌊65536 * gaussNormal s sigma o + 1 / 2⌋

/-! A computable quantiser, used for one purpose only: to show that a legal one exists, so that `gaussQ` below may be an
arbitrary one. Nothing evaluates it. -/

/-- The rational `(1 + x/N)^(-N)`, within `4/N` of `exp(-x)` for `x ≥ 0` and `N` even. -/
def expApprox (N : Nat) (x : ℚ) : ℚ := ((1 + x / N) ^ N)⁻¹

/-- The rational stand-in for `g(dx, dy)` used by the witness. -/
def gaussApprox (sigma : Nat) (o : Int × Int) : ℚ :=
  expApprox (2 ^ 32) (((o.1 ^ 2 + o.2 ^ 2 : Int) : ℚ) / (2 * ((sigma : ℚ) / 256) ^ 2))

/-- The witness's weight away from the centre: the rational stand-in, normalised and rounded to nearest. -/
def witnessOuter (s sigma : Nat) (o : Int × Int) : Int :=
  ⌊65536 * (gaussApprox sigma o / ∑ p ∈ offsets s, gaussApprox sigma p) + 1 / 2⌋

/-- The witness: rounded weights with the centre as the remainder (property 5). -/
def witnessQ (s sigma : Nat) (o : Int × Int) : Int :=
  if o = (0, 0) then 65536 - ∑ p ∈ (offsets s).erase (0, 0), witnessOuter s sigma p else witnessOuter s sigma o

/-- `expApprox` is close to the exponential: the witness's accuracy rests on this. -/
theorem expApprox_close (m : Nat) (hm : 1 ≤ m) (x : ℝ) (hx : 0 ≤ x) :
    |((1 + x / (2 * m : Nat)) ^ (2 * m))⁻¹ - Real.exp (-x)| ≤ 4 / (2 * m : Nat) := by
  obtain ⟨N, hN⟩ : ∃ N, N = 2 * m := ⟨_, rfl⟩
  rw [← hN]
  have hNpos : (0 : ℝ) < N := by exact_mod_cast (by omega : 0 < N)
  obtain ⟨y, hy⟩ : ∃ y, y = x / N := ⟨_, rfl⟩
  rw [← hy]
  have hy0 : 0 ≤ y := by rw [hy]; positivity
  have hxy : x = N * y := by rw [hy]; field_simp
  have hexp : Real.exp (-x) = Real.exp (-y) ^ N := by
    rw [← Real.exp_nat_mul, hxy]; ring_nf
  have hle : Real.exp (-y) ≤ (1 + y)⁻¹ := by
    rw [Real.exp_neg]
    exact inv_anti₀ (by positivity) (by linarith [Real.add_one_le_exp y])
  have hge : (1 + y)⁻¹ - Real.exp (-y) ≤ y ^ 2 * (1 + y)⁻¹ := by
    have h1 : 1 - y ≤ Real.exp (-y) := by linarith [Real.add_one_le_exp (-y)]
    have h2 : (1 + y)⁻¹ - (1 - y) = y ^ 2 * (1 + y)⁻¹ := by field_simp; ring
    linarith
  have hpow : (1 + y)⁻¹ ^ N - Real.exp (-y) ^ N ≤ N * (1 + y)⁻¹ ^ (N - 1) * ((1 + y)⁻¹ - Real.exp (-y)) := by
    rw [← Commute.geom_sum₂_mul (Commute.all ((1 + y)⁻¹) (Real.exp (-y))) N]
    apply mul_le_mul_of_nonneg_right _ (by linarith)
    calc ∑ i ∈ Finset.range N, (1 + y)⁻¹ ^ i * Real.exp (-y) ^ (N - 1 - i)
        ≤ ∑ i ∈ Finset.range N, (1 + y)⁻¹ ^ (N - 1) := by
          apply Finset.sum_le_sum
          intro i hi
          have hi' : i + (N - 1 - i) = N - 1 := by have := Finset.mem_range.mp hi; omega
          calc (1 + y)⁻¹ ^ i * Real.exp (-y) ^ (N - 1 - i)
              ≤ (1 + y)⁻¹ ^ i * (1 + y)⁻¹ ^ (N - 1 - i) :=
                mul_le_mul_of_nonneg_left (pow_le_pow_left₀ (Real.exp_pos _).le hle _) (by positivity)
            _ = (1 + y)⁻¹ ^ (N - 1) := by rw [← pow_add, hi']
      _ = N * (1 + y)⁻¹ ^ (N - 1) := by simp
  have hbern : x ^ 2 ≤ 4 * (1 + y) ^ N := by
    have h := one_add_mul_le_pow (a := y) (by linarith) m
    have hxm : x = 2 * (m * y) := by rw [hxy, hN]; push_cast; ring
    have hmy : 0 ≤ (m : ℝ) * y := by positivity
    rw [hN, mul_comm 2 m, pow_mul, hxm]
    nlinarith
  have hlow : 0 ≤ (1 + y)⁻¹ ^ N - Real.exp (-y) ^ N := sub_nonneg.mpr (pow_le_pow_left₀ (Real.exp_pos _).le hle _)
  have hfin : (N : ℝ) * (1 + y)⁻¹ ^ (N - 1) * (y ^ 2 * (1 + y)⁻¹) = x ^ 2 * ((1 + y) ^ N)⁻¹ / N := by
    have hsplit : (1 + y)⁻¹ ^ (N - 1) * (1 + y)⁻¹ = ((1 + y) ^ N)⁻¹ := by
      rw [← pow_succ, inv_pow]; congr 2; omega
    rw [hxy, ← hsplit]; field_simp
  have hb : x ^ 2 * ((1 + y) ^ N)⁻¹ ≤ 4 := by
    rw [mul_inv_le_iff₀ (by positivity)]; exact hbern
  rw [hexp, ← inv_pow, abs_of_nonneg hlow]
  calc (1 + y)⁻¹ ^ N - Real.exp (-y) ^ N
      ≤ N * (1 + y)⁻¹ ^ (N - 1) * (y ^ 2 * (1 + y)⁻¹) :=
        hpow.trans (mul_le_mul_of_nonneg_left hge (by positivity))
    _ = x ^ 2 * ((1 + y) ^ N)⁻¹ / N := hfin
    _ ≤ 4 / N := by gcongr

theorem gaussApprox_close (sigma : Nat) (o : Int × Int) :
    |(gaussApprox sigma o : ℝ) - gaussReal sigma o| ≤ 4 / 2 ^ 32 := by
  have h := expApprox_close (2 ^ 31) (by norm_num)
    (((o.1 ^ 2 + o.2 ^ 2 : Int) : ℝ) / (2 * ((sigma : ℝ) / 256) ^ 2)) (by positivity)
  unfold gaussApprox expApprox gaussReal
  push_cast at h ⊢
  norm_num at h ⊢
  exact h

theorem gaussApprox_nonneg (sigma : Nat) (o : Int × Int) : 0 ≤ (gaussApprox sigma o : ℝ) := by
  have h : 0 ≤ gaussApprox sigma o := by
    unfold gaussApprox expApprox
    apply inv_nonneg.mpr
    apply pow_nonneg
    positivity
  exact_mod_cast h

theorem gaussReal_le_one (sigma : Nat) (o : Int × Int) : gaussReal sigma o ≤ 1 := by
  unfold gaussReal
  rw [Real.exp_le_one_iff, neg_nonpos]
  positivity

theorem zero_mem_offsets {s : Nat} (hs : s % 2 = 1) : (0, 0) ∈ offsets s := by
  simp only [offsets, Finset.mem_image, Finset.mem_product, Finset.mem_range, Prod.exists, Prod.mk.injEq]
  exact ⟨s / 2, s / 2, ⟨by omega, by omega⟩, by omega, by omega⟩

theorem card_offsets_le (s : Nat) : (offsets s).card ≤ s * s := by
  refine Finset.card_image_le.trans ?_
  simp

/-- Normalising close stand-ins gives close normalised weights. -/
theorem normal_close {s : Nat} (hs : s % 2 = 1) (h15 : s ≤ 15) (sigma : Nat) (o : Int × Int) :
    |65536 * ((gaussApprox sigma o : ℝ) / ∑ p ∈ offsets s, (gaussApprox sigma p : ℝ)) - 65536 * gaussNormal s sigma o| ≤ 1 / 2 := by
  obtain ⟨A, hA⟩ : ∃ A, A = ∑ p ∈ offsets s, (gaussApprox sigma p : ℝ) := ⟨_, rfl⟩
  obtain ⟨G, hG⟩ : ∃ G, G = ∑ p ∈ offsets s, gaussReal sigma p := ⟨_, rfl⟩
  have hA1 : 1 ≤ A := by
    have h := Finset.single_le_sum (f := fun p => (gaussApprox sigma p : ℝ)) (fun p _ => gaussApprox_nonneg sigma p) (zero_mem_offsets hs)
    have h0 : (gaussApprox sigma (0, 0) : ℝ) = 1 := by simp [gaussApprox, expApprox]
    rw [hA]; simpa [h0] using h
  have hG1 : 1 ≤ G := by
    have h := Finset.single_le_sum (f := fun p => gaussReal sigma p) (fun p _ => (Real.exp_pos _).le) (zero_mem_offsets hs)
    have h0 : gaussReal sigma (0, 0) = 1 := by simp [gaussReal]
    rw [hG]; simpa [h0] using h
  have hAG : |G - A| ≤ 225 * (4 / 2 ^ 32) := by
    rw [hA, hG, ← Finset.sum_sub_distrib]
    refine (Finset.abs_sum_le_sum_abs _ _).trans ?_
    have hterm : ∀ p ∈ offsets s, |gaussReal sigma p - (gaussApprox sigma p : ℝ)| ≤ 4 / 2 ^ 32 := fun p _ => by
      rw [abs_sub_comm]; exact gaussApprox_close sigma p
    have hc : ((offsets s).card : ℝ) ≤ 225 := by
      have := card_offsets_le s
      have : s * s ≤ 15 * 15 := Nat.mul_le_mul h15 h15
      exact_mod_cast (by omega : (offsets s).card ≤ 225)
    refine (Finset.sum_le_card_nsmul _ _ _ hterm).trans ?_
    rw [nsmul_eq_mul]
    gcongr
  have hg := gaussApprox_close sigma o
  have hgr0 : 0 ≤ gaussReal sigma o := (Real.exp_pos _).le
  have hgr1 := gaussReal_le_one sigma o
  rw [gaussNormal, ← hA, ← hG]
  have key : (gaussApprox sigma o : ℝ) / A - gaussReal sigma o / G =
      ((gaussApprox sigma o : ℝ) - gaussReal sigma o) / A + gaussReal sigma o * (G - A) / (A * G) := by
    field_simp; ring
  have h1 : |((gaussApprox sigma o : ℝ) - gaussReal sigma o) / A| ≤ 4 / 2 ^ 32 := by
    rw [abs_div, abs_of_pos (by linarith : 0 < A)]
    exact (div_le_self (abs_nonneg _) hA1).trans hg
  have h2 : |gaussReal sigma o * (G - A) / (A * G)| ≤ 225 * (4 / 2 ^ 32) := by
    have hAGpos : 1 ≤ A * G := by nlinarith
    rw [abs_div, abs_of_pos (by linarith : 0 < A * G), abs_mul, abs_of_nonneg hgr0]
    refine (div_le_self (by positivity) hAGpos).trans ?_
    calc gaussReal sigma o * |G - A| ≤ 1 * |G - A| := by gcongr
      _ ≤ _ := by rw [one_mul]; exact hAG
  rw [← mul_sub, key, abs_mul, abs_of_pos (by norm_num : (0 : ℝ) < 65536)]
  have h3 := (abs_add_le _ _).trans (add_le_add h1 h2)
  calc (65536 : ℝ) * _ ≤ 65536 * (4 / 2 ^ 32 + 225 * (4 / 2 ^ 32)) := by gcongr
    _ ≤ 1 / 2 := by norm_num

theorem witnessOuter_accurate {s : Nat} (hs : s % 2 = 1) (h15 : s ≤ 15) (sigma : Nat) (o : Int × Int) :
    |(witnessOuter s sigma o : ℝ) - 65536 * gaussNormal s sigma o| ≤ 1 := by
  have h := normal_close hs h15 sigma o
  obtain ⟨q, hq⟩ : ∃ q : ℚ, q = 65536 * (gaussApprox sigma o / ∑ p ∈ offsets s, gaussApprox sigma p) := ⟨_, rfl⟩
  have hqr : (q : ℝ) = 65536 * ((gaussApprox sigma o : ℝ) / ∑ p ∈ offsets s, (gaussApprox sigma p : ℝ)) := by
    rw [hq]; push_cast; ring
  have hw : witnessOuter s sigma o = ⌊q + 1 / 2⌋ := by rw [witnessOuter, ← hq]
  have hlo : (⌊q + 1 / 2⌋ : ℝ) ≤ (q : ℝ) + 1 / 2 := by
    have h := (Rat.cast_le (K := ℝ)).mpr (Int.floor_le (q + 1 / 2)); push_cast at h; exact h
  have hhi : (q : ℝ) + 1 / 2 < (⌊q + 1 / 2⌋ : ℝ) + 1 := by
    have h := (Rat.cast_lt (K := ℝ)).mpr (Int.lt_floor_add_one (q + 1 / 2)); push_cast at h; exact h
  rw [← hqr] at h
  rw [abs_le] at h ⊢
  rw [hw]
  exact ⟨by linarith [h.1], by linarith [h.2]⟩

theorem gaussApprox_symm (sigma : Nat) (dx dy : Int) :
    gaussApprox sigma (-dx, dy) = gaussApprox sigma (dx, dy) ∧ gaussApprox sigma (dx, -dy) = gaussApprox sigma (dx, dy) ∧
    gaussApprox sigma (dy, dx) = gaussApprox sigma (dx, dy) := by
  refine ⟨?_, ?_, ?_⟩ <;> simp [gaussApprox, add_comm]

theorem witnessQ_legal : LegalGaussQ witnessQ where
  identity sigma _ _ := by
    have h : (offsets 1).erase (0, 0) = ∅ := by decide
    simp [witnessQ, h]
  symmetry s sigma dx dy := by
    obtain ⟨h1, h2, h3⟩ := gaussApprox_symm sigma dx dy
    simp only [witnessQ, witnessOuter, h1, h2, h3, Prod.mk.injEq, neg_eq_zero, true_and]
    simp only [and_comm]
  exactSum s sigma hs _ _ _ := by
    have h0 := zero_mem_offsets hs
    rw [← Finset.add_sum_erase _ _ h0]
    have hsum : ∑ p ∈ (offsets s).erase (0, 0), witnessQ s sigma p = ∑ p ∈ (offsets s).erase (0, 0), witnessOuter s sigma p :=
      Finset.sum_congr rfl fun p hp => by rw [witnessQ, if_neg (Finset.ne_of_mem_erase hp)]
    rw [hsum, witnessQ, if_pos rfl]; ring
  accuracy s sigma o hs h15 _ _ _ hne := by
    rw [witnessQ, if_neg hne]
    exact witnessOuter_accurate hs h15 sigma o
  centre s sigma _ _ _ _ := by
    rw [witnessQ, if_pos rfl]
    congr 1
    exact Finset.sum_congr rfl fun p hp => by rw [witnessQ, if_neg (Finset.ne_of_mem_erase hp)]

/-- An ARBITRARY Gaussian quantiser. It has no body: nothing is known of it but its type, which carries the five
properties of R177. (The argument only tells Lean that the type is inhabited.) -/
opaque gaussChoice [Inhabited GaussQuantiser] : GaussQuantiser

/-- `GAUSS_Q` (R7, R177): a quantiser with the five properties, about which nothing else is known (log 2). -/
def gaussQ : GaussQuantiser := @gaussChoice ⟨⟨witnessQ, witnessQ_legal⟩⟩

end Sys2Proof.Config
end

