-- ==== Sys2Proof/Machine/State.lean ====
section
/-! DEFINITION. The state of the TIFO core as plain data (10_state R20 to R49), the events the outside world sends it
(20_memory R82), the reasons a step can stop, and the state after reset (R49). -/

namespace Sys2Proof.Machine

/-- A sparse store: (key, value) pairs, keys strictly rising. An unlisted key is UNWRITTEN: it has no value (R265). -/
abbrev Store (α : Type) := List (Nat × α)

/-- Buffer memory: the bytes that have been written (R71, R265). A cell is a `Host.Cell`. -/
abbrev Memory := List Host.Cell

/-- The canonical form of a store: keys strictly rising. -/
abbrev Store.Wf {α : Type} (m : Store α) : Prop := List.Pairwise (fun p q => p.1 < q.1) m

/-- The canonical form of buffer memory: addresses strictly rising. An unlisted address reads as no value, which no entry
can equal. -/
abbrev Memory.wf (m : Memory) : Prop := Store.Wf m

/-- A buffer descriptor: the register pair DESCn.BASE and DESCn.DIM (R36). -/
structure Desc where
  base : Word
  dim : Word
  deriving DecidableEq, Repr

/-- The nine errors of commands (60_exceptions R221). -/
inductive Error where
  | invalidKernel
  | allocation
  | domainRange
  | illegalCommand
  | misaligned
  | badDescriptor
  | overlap
  | invalidParameter
  | degenerateStretch
  deriving DecidableEq, Repr

/-- An access the host issues through the host port (R85, R87); `width` is in bytes. Register accesses name a byte offset
of the register space, memory accesses a byte address of buffer memory. -/
inductive Access where
  | regRead (offset width : Nat)
  | regWrite (offset width : Nat) (v : Word)
  | memRead (addr width : Nat)
  | memWrite (addr width : Nat) (v : Word)
  deriving DecidableEq, Repr

/-- What the host port answers to an access. -/
inductive Response where
  /-- The value of a read that completed. -/
  | value (v : Word)
  /-- A write completed. -/
  | done
  /-- The access was held when reset came: a write had no effect, a read has NO VALUE and faults (R264). -/
  | lost
  deriving DecidableEq, Repr

/-- The two resets of R260. -/
inductive ResetKind where
  | powerOn
  | warm
  deriving DecidableEq, Repr

/-- The events of the total order of 20_memory R82, and reset (R260). -/
inductive Event where
  /-- The host issues an access. -/
  | access (a : Access)
  /-- The engine takes its completion step (R220). -/
  | complete
  /-- The reset input is asserted. -/
  | reset (k : ResetKind)
  deriving DecidableEq, Repr

/-- A fault of the model: a read of something nothing has written (R265). The hardware returns some value that no rule
fixes, so the model stops: SAFE. -/
inductive Fault where
  /-- A command or a host read reads an unwritten byte of buffer memory (R265). Safe. -/
  | unwrittenMemory
  /-- CONV or a host read reads an unwritten entry of KRAM (R265). Safe. -/
  | unwrittenKram
  /-- CUM, EQUALIZE, STRETCH or a host read reads an unwritten entry of HIST (R265). Safe. -/
  | unwrittenHist
  /-- A host read reads an unwritten entry of CUM (R265). Safe. -/
  | unwrittenCum
  /-- LUT or a host read reads an unwritten entry of LUT (R265). Safe. -/
  | unwrittenLut
  deriving DecidableEq, Repr

/-- A refusal of the model. -/
inductive Refusal where
  /-- An instruction with no meaning yet: raised by no arm of this model. Safe. -/
  | notModelled (mnemonic : String)
  /-- A register-space access that is not an aligned 32-bit access below 0x2000: R85 gives it no step. Safe. -/
  | registerAccessNotAdmitted
  /-- A buffer-memory access of a width other than 1, 2 or 4, or misaligned: R87 gives it no step. Safe. -/
  | memoryAccessNotAdmitted
  deriving DecidableEq, Repr

/-- The state of the machine. `cfg` is the configuration (R46, log 1); `events` and `responses` are the model's own, the
world at the host port (log 3, log 8); every other field is the spec's. -/
structure State where
  /-- `MEM_SIZE`, `BUF_ALIGN`, `KMAX` (R7): no step changes them. -/
  cfg : Config.Params
  /-- CTRL (R25). -/
  ctrl : Word
  /-- STATUS (R27). -/
  status : Word
  /-- CMD (R29). -/
  cmd : Word
  /-- ERRINFO (R30). -/
  errinfo : Word
  /-- KSIZE (R31). -/
  ksize : Word
  /-- SHARPK (R32). -/
  sharpk : Word
  /-- GAUSS (R33). -/
  gauss : Word
  /-- ALLOC_PTR (R34). -/
  allocPtr : Word
  /-- DESC0 to DESC7 (R36). -/
  desc : Vector Desc 8
  /-- MAT[b][r][c] at index 12*b + 4*r + c, the order of the offsets (R37). -/
  mat : Vector Word 24
  /-- KRAM (R39): the written entries. -/
  kram : Store Word
  /-- HIST (R41): the written entries. -/
  hist : Store Word
  /-- CUM (R42): the written entries. -/
  cum : Store Word
  /-- LUT (R43): the written entries. -/
  lut : Store Byte
  /-- Buffer memory (R71): the written bytes. -/
  mem : Memory
  /-- PENDING (R47): the accepted command word that has not completed. -/
  pending : Option Word
  /-- HELD (R47): the host access held by R86. -/
  held : Option Access
  /-- The events still to come, next first (R82). -/
  events : List Event
  /-- What the host port has answered, newest first. -/
  responses : List Response
  deriving DecidableEq, Repr

/-- The reset values of the colour-matrix banks, in units of 10^-6 (R38). -/
def resetMat : Vector Word 24 :=
  #v[BitVec.ofInt 32 299000, BitVec.ofInt 32 587000, BitVec.ofInt 32 114000, BitVec.ofInt 32 0,
     BitVec.ofInt 32 499813, BitVec.ofInt 32 (-418531), BitVec.ofInt 32 (-81282), BitVec.ofInt 32 128000000,
     BitVec.ofInt 32 (-168636), BitVec.ofInt 32 (-331068), BitVec.ofInt 32 499704, BitVec.ofInt 32 128000000,
     BitVec.ofInt 32 1000000, BitVec.ofInt 32 1403000, BitVec.ofInt 32 0, BitVec.ofInt 32 (-179584000),
     BitVec.ofInt 32 1000000, BitVec.ofInt 32 (-714000), BitVec.ofInt 32 (-344000), BitVec.ofInt 32 135424000,
     BitVec.ofInt 32 1000000, BitVec.ofInt 32 0, BitVec.ofInt 32 1773000, BitVec.ofInt 32 (-226944000)]

/-- The state after power-on reset with the default parameters (R7, R49): registers 0 but MAT, arrays and buffer memory
unwritten, no PENDING, no HELD; nothing is scheduled and nothing has been answered. -/
def State.reset : State where
  cfg := Config.Params.default
  ctrl := 0
  status := 0
  cmd := 0
  errinfo := 0
  ksize := 0
  sharpk := 0
  gauss := 0
  allocPtr := 0
  desc := Vector.replicate 8 ⟨0, 0⟩
  mat := resetMat
  kram := []
  hist := []
  cum := []
  lut := []
  mem := []
  pending := none
  held := none
  events := []
  responses := []

end Sys2Proof.Machine
end

