-- ==== Sys2Proof/Machine/Flags.lean ====
section
/-! DEFINITION. The fields of CTRL (10_state R25, R26) and STATUS (R27), and every way a STATUS value changes: acceptance
(60_exceptions R220), completion (R222), overrun (R226), the W1C write (R28). IRQ is R44. -/

namespace Sys2Proof.Machine

/-- The error codes of 60_exceptions R221. -/
def Error.code : Error → Nat
  | .invalidKernel => 1
  | .allocation => 2
  | .domainRange => 3
  | .illegalCommand => 4
  | .misaligned => 5
  | .badDescriptor => 6
  | .overlap => 7
  | .invalidParameter => 8
  | .degenerateStretch => 9

/-- The border policies (R25, 42_convolution R171). -/
inductive Border where
  | replicate
  | zero
  | shrink
  deriving DecidableEq, Repr

/-- CTRL.BORDER. The field never holds 3 (R26); that case, which no run reaches, is read as the reset policy (log 12). -/
def State.border (s : State) : Border :=
  match bits s.ctrl 1 0 with
  | 1 => .zero
  | 2 => .shrink
  | _ => .replicate

/-- CTRL.HSVFMT = PACKED (R25). -/
def State.packed (s : State) : Bool := s.ctrl.getLsbD 2

/-- CTRL.RAWRESP = RAW (R25). -/
def State.rawResp (s : State) : Bool := s.ctrl.getLsbD 3

/-- CTRL.IE_DONE (R25). -/
def State.ieDone (s : State) : Bool := s.ctrl.getLsbD 8

/-- CTRL.IE_ERR (R25). -/
def State.ieErr (s : State) : Bool := s.ctrl.getLsbD 9

/-- STATUS.BUSY (R27). -/
def State.busy (s : State) : Bool := s.status.getLsbD 0

/-- STATUS.DONE (R27). -/
def State.doneBit (s : State) : Bool := s.status.getLsbD 1

/-- STATUS.ERR (R27). -/
def State.errBit (s : State) : Bool := s.status.getLsbD 2

/-- STATUS.OVERRUN (R27). -/
def State.overrun (s : State) : Bool := s.status.getLsbD 3

/-- STATUS.ERRCODE (R27). -/
def State.errcode (s : State) : Nat := bits s.status 11 8

/-- The level of the interrupt output, which follows its bits at once (R44). -/
def State.irq (s : State) : Bool := (s.doneBit && s.ieDone) || (s.errBit && s.ieErr)

/-- A CTRL write: reserved bits stay 0, a BORDER of 3 leaves BORDER as it was (R25, R26). -/
def ctrlWrite (old v : Word) : Word :=
  if bits v 1 0 = 3 then (v &&& 0x30C) ||| (old &&& 0x3) else v &&& 0x30F

/-- A STATUS write of `v`: DONE, ERR and OVERRUN are cleared where `v` has a 1 (R28). -/
def statusWrite (old v : Word) : Word := old &&& ~~~(v &&& 0xE)

/-- STATUS at acceptance: BUSY becomes 1, DONE and ERR become 0 (R29, R220). -/
def statusAccepted (old : Word) : Word := (old &&& ~~~(0x6 : Word)) ||| 0x1

/-- STATUS when a CMD write is dropped: OVERRUN becomes 1 (R29, R226). -/
def statusOverrun (old : Word) : Word := old ||| 0x8

/-- STATUS at a completion without error: DONE 1, ERRCODE 0, BUSY 0, ERR and OVERRUN as they were (R222). -/
def statusDone (old : Word) : Word := (old &&& ~~~(0xF01 : Word)) ||| 0x2

/-- STATUS at a completion with error code `c`: DONE 1, ERR 1, ERRCODE `c`, BUSY 0, OVERRUN as it was (R222). -/
def statusFailed (old : Word) (c : Nat) : Word := (old &&& ~~~(0xF01 : Word)) ||| 0x6 ||| BitVec.ofNat 32 (c * 2 ^ 8)

end Sys2Proof.Machine
end

