-- ==== Sys2Proof/Machine/Ops.lean ====
section
/-! DEFINITION. The named operations over stores and buffer memory (20_memory R71), the way a command ends early
(`raise`, 00_scope R12), and the two events of a command's life: acceptance and completion (60_exceptions R220, R222). The
completion update is this machine's one way of taking an exception: an error is recorded, no control is transferred
(R229), and there is no return from it (R230). -/

namespace Sys2Proof.Machine

/-- The value of a key; none where nothing has been written (R265). -/
def Store.read {α : Type} : Store α → Nat → Option α
  | [], _ => none
  | (j, v) :: rest, k => if j = k then some v else Store.read rest k

/-- Writes one key, in the canonical form. -/
def Store.write {α : Type} : Store α → Nat → α → Store α
  | [], k, v => [(k, v)]
  | (j, u) :: rest, k, v =>
    if k < j then (k, v) :: (j, u) :: rest
    else if k = j then (k, v) :: rest
    else (j, u) :: Store.write rest k v

/-- Writes a list of values at `base`, `base + 1`, and so on. -/
def Store.writeList {α : Type} (m : Store α) (base : Nat) : List α → Store α
  | [] => m
  | v :: vs => Store.writeList (Store.write m base v) (base + 1) vs

/-- The store that holds exactly the values of a list, at `k`, `k + 1`, and so on. -/
def Store.ofListFrom {α : Type} (k : Nat) : List α → Store α
  | [] => []
  | v :: vs => (k, v) :: Store.ofListFrom (k + 1) vs

/-- Makes the keys from `lo` up to but not including `hi` unwritten (R262). -/
def Store.forget {α : Type} (m : Store α) (lo hi : Nat) : Store α := m.filter fun p => !(lo ≤ p.1 && p.1 < hi)

/-- `MemRead(addr, n)`: `n` bytes, little-endian (R71, R72); none if one of them is unwritten. -/
def Memory.readLE (m : Memory) (addr : Nat) : Nat → Option Nat
  | 0 => some 0
  | n + 1 =>
    match Store.read m addr, Memory.readLE m (addr + 1) n with
    | some b, some rest => some (b.toNat + 256 * rest)
    | _, _ => none

/-- The `n` low bytes of `v`, low byte first (R71, R72). -/
def leBytes : Nat → Nat → List Byte
  | 0, _ => []
  | n + 1, v => BitVec.ofNat 8 (v % 256) :: leBytes n (v / 256)

/-- `MemWrite(addr, n, v)`: the `n` low bytes of `v`, little-endian (R71, R72). -/
def Memory.writeLE (m : Memory) (addr n v : Nat) : Memory := Store.writeList m addr (leBytes n v)

/-- Why a command stops before its effects: an error of R221 with its ERRINFO value, or a fault of the model (R265). -/
inductive Halt where
  | error (e : Error) (info : Nat)
  | fault (f : Fault)
  deriving DecidableEq, Repr

/-- A computation inside a command. -/
abbrev Run (α : Type) := Except Halt α

/-- `raise E(info)` (R12, R223). -/
def raise {α : Type} (e : Error) (info : Nat) : Run α := .error (.error e info)

/-- Goes on with a value that has been written; faults with `f` on one that has not (R265). -/
def written {α : Type} (f : Fault) : Option α → Run α
  | some v => .ok v
  | none => .error (.fault f)

/-- Runs a list of computations in order and gathers their results; stops at the first that stops. -/
def collect {α : Type} : List (Run α) → Run (List α)
  | [] => .ok []
  | x :: xs =>
    match x with
    | .error e => .error e
    | .ok v =>
      match collect xs with
      | .error e => .error e
      | .ok vs => .ok (v :: vs)

/-- Acceptance of the command word `w` (R29, R220). -/
def State.accept (s : State) (w : Word) : State :=
  { s with cmd := w, status := statusAccepted s.status, pending := some w }

/-- The completion update of R222, with no error or with an error and its ERRINFO value. -/
def State.complete (s : State) : Option (Error × Nat) → State
  | none => { s with status := statusDone s.status, errinfo := 0, pending := none }
  | some (e, info) =>
    { s with status := statusFailed s.status e.code, errinfo := BitVec.ofNat 32 info, pending := none }

/-- The completion step of a command (R220): its effects and the completion update; on an error the completion update of
the unchanged state (R223); on a read of something unwritten a fault (R265). -/
def State.finish (s : State) : Run State → Host.Outcome State Fault Refusal
  | .ok s' => .next (s'.complete none)
  | .error (.error e info) => .next (s.complete (some (e, info)))
  | .error (.fault f) => .fault f

end Sys2Proof.Machine
end

