-- ==== Sys2Proof/Machine/Operands.lean ====
section
/-! DEFINITION. Descriptor operands: the addresser (20_memory R74), pixel formats (R73), the descriptor check (R76), the
dimension check of pointwise commands, the overlap check (R79 to R81), pixel access (R78), and the writing of a
destination extent. -/

namespace Sys2Proof.Machine

/-- DESC[n].BASE as a byte address (R36). -/
def State.baseOf (s : State) (n : DescId) : Nat := (s.desc.get n).base.toNat

/-- DESC[n].W (R36). -/
def State.widthOf (s : State) (n : DescId) : Nat := bits (s.desc.get n).dim 15 0

/-- DESC[n].H (R36). -/
def State.heightOf (s : State) (n : DescId) : Nat := bits (s.desc.get n).dim 31 16

/-- `bpp(f)`, bytes per pixel (R73, R145). -/
def State.bpp (s : State) : Format → Nat
  | .gray => 1
  | .rgb => 3
  | .hsv => if s.packed then 3 else 4
  | .ycc => 3

/-- `PADDR(n, f, x, y, o)` (R74). -/
def State.paddr (s : State) (n : DescId) (f : Format) (x y o : Nat) : Nat :=
  s.baseOf n + (y * s.widthOf n + x) * s.bpp f + o

/-- `LEN(n, f)`, the length of a buffer's extent (R74). -/
def State.len (s : State) (n : DescId) (f : Format) : Nat := s.widthOf n * s.heightOf n * s.bpp f

/-- `ALEN(W, H, f)`, the allocation length (R75). -/
def State.alen (s : State) (w h : Nat) (f : Format) : Nat :=
  (w * h * s.bpp f + s.cfg.bufAlign - 1) / s.cfg.bufAlign * s.cfg.bufAlign

/-- `CHECKDESC(n, f)` (R76). -/
def State.checkDesc (s : State) (n : DescId) (f : Format) : Run Unit :=
  if s.baseOf n % s.cfg.bufAlign ≠ 0 then raise .misaligned n.val
  else if s.widthOf n = 0 ∨ s.heightOf n = 0 then raise .badDescriptor n.val
  else if s.cfg.memSize < s.baseOf n + s.len n f then raise .badDescriptor n.val
  else .ok ()

/-- The dimension check of the pointwise commands: operand `n` has the size of `a` (files 40, 41 and 43). -/
def State.checkSize (s : State) (a n : DescId) : Run Unit :=
  if s.widthOf n ≠ s.widthOf a ∨ s.heightOf n ≠ s.heightOf a then raise .badDescriptor (0x10 + n.val) else .ok ()

/-- An operand: a descriptor and the format the command gives it (R104). -/
abbrev Operand := DescId × Format

/-- Two extents share a byte (R79). -/
def State.overlaps (s : State) (p q : Operand) : Bool :=
  s.baseOf p.1 < s.baseOf q.1 + s.len q.1 q.2 && s.baseOf q.1 < s.baseOf p.1 + s.len p.1 p.2

/-- Same BASE, same W, same H, same bpp (R79). -/
def State.exactAlias (s : State) (p q : Operand) : Bool :=
  s.baseOf p.1 = s.baseOf q.1 && s.widthOf p.1 = s.widthOf q.1 && s.heightOf p.1 = s.heightOf q.1 && s.bpp p.2 = s.bpp q.2

/-- The two classes of commands with memory operands (R80, R104). -/
inductive CmdClass where
  | pointwise
  | neighbourhood
  deriving DecidableEq, Repr

/-- A destination `d` and a source `a` overlap where the class forbids it (R80). -/
def State.clash (s : State) (cls : CmdClass) (d a : Operand) : Bool :=
  s.overlaps d a && !(cls == .pointwise && s.exactAlias d a)

/-- The pairs of a list, each with the earlier element first. -/
def pairs {α : Type} : List α → List (α × α)
  | [] => []
  | x :: xs => xs.map (fun y => (x, y)) ++ pairs xs

/-- The ERRINFO values of the failing pairs, in the order in which R81 checks them. -/
def State.clashes (s : State) (cls : CmdClass) (srcs dsts : List Operand) : List Nat :=
  (dsts.flatMap fun d => (srcs.filter fun a => s.clash cls d a).map fun a => a.1.val + d.1.val * 2 ^ 4) ++
  ((pairs dsts).filter fun p => s.overlaps p.1 p.2).map fun p => p.1.1.val + p.2.1.val * 2 ^ 4

/-- The overlap check: the first failing pair is reported (R81). -/
def State.checkOverlap (s : State) (cls : CmdClass) (srcs dsts : List Operand) : Run Unit :=
  match s.clashes cls srcs dsts with
  | [] => .ok ()
  | info :: _ => raise .overlap info

/-- One byte of buffer memory, as an engine read (R71, R265). -/
def State.readByte (s : State) (addr : Nat) : Run Byte := written .unwrittenMemory (Store.read s.mem addr)

/-- `GET8(n, f, x, y, o)` (R78). -/
def State.get8 (s : State) (n : DescId) (f : Format) (x y o : Nat) : Run Nat := do
  let b ← s.readByte (s.paddr n f x y o)
  return b.toNat

/-- `GET16(n, f, x, y, o)` (R78). -/
def State.get16 (s : State) (n : DescId) (f : Format) (x y o : Nat) : Run Nat :=
  written .unwrittenMemory (Memory.readLE s.mem (s.paddr n f x y o) 2)

/-- Channels 0, 1 and 2 of a pixel of a 3-byte format. -/
def State.get3 (s : State) (n : DescId) (f : Format) (x y : Nat) : Run (Nat × Nat × Nat) := do
  let p0 ← s.get8 n f x y 0
  let p1 ← s.get8 n f x y 1
  let p2 ← s.get8 n f x y 2
  return (p0, p1, p2)

/-- The bytes of a `w` by `h` destination in raster order, each pixel's bytes given by `px x y`. -/
def raster (w h : Nat) (px : Nat → Nat → Run (List Byte)) : Run (List Byte) := do
  let rows ← collect ((List.range (w * h)).map fun i => px (i % w) (i / w))
  return rows.flatten

/-- Writes the bytes of a destination extent from its BASE on: PUT8 and PUT16 of every pixel in raster order (R74, R77,
R78; rows are contiguous). -/
def State.putExtent (s : State) (d : DescId) (bytes : List Byte) : State :=
  { s with mem := Store.writeList s.mem (s.baseOf d) bytes }

/-- The memory destinations of a command with their formats, in operand-field order (R104). -/
def destinations : Instr → List Operand
  | .nop => []
  | .alloc _ _ => []
  | .copy d _ f => [(d, f)]
  | .gray d _ => [(d, .gray)]
  | .split b c d _ => [(b, .gray), (c, .gray), (d, .gray)]
  | .merge d _ _ _ => [(d, .rgb)]
  | .rgb2hsv d _ => [(d, .hsv)]
  | .hsv2rgb d _ => [(d, .rgb)]
  | .matx d _ _ => [(d, .rgb)]
  | .lut d _ f => [(d, f)]
  | .conv d _ => [(d, .gray)]
  | .kgauss _ => []
  | .ksobelh => []
  | .ksobelv => []
  | .klapl => []
  | .sobel d _ => [(d, .gray)]
  | .sharpen d _ => [(d, .gray)]
  | .blur d _ _ => [(d, .gray)]
  | .hist _ _ => []
  | .cum _ => []
  | .equalize d _ _ => [(d, .gray)]
  | .stretch d _ _ => [(d, .gray)]

end Sys2Proof.Machine
end

