-- ==== Sys2Proof/Machine/Buffer.lean ====
section
/-! DEFINITION. The buffer model commands NOP, ALLOC and COPY (40_buffer R130 to R132). -/

namespace Sys2Proof.Machine

/-- NOP (R130): the completion update only. -/
def execNop (s : State) : Host.Outcome State Fault Refusal := s.finish (.ok s)

/-- The effects of ALLOC: DESCd.BASE and ALLOC_PTR (R131). -/
def State.allocate (s : State) (d : DescId) (size : Nat) : State :=
  { s with
    desc := s.desc.set d { s.desc.get d with base := s.allocPtr }
    allocPtr := BitVec.ofNat 32 (s.allocPtr.toNat + size) }

/-- ALLOC (R131). -/
def execAlloc (d : DescId) (f : Format) (s : State) : Host.Outcome State Fault Refusal :=
  s.finish <|
    if s.widthOf d = 0 ∨ s.heightOf d = 0 then raise .badDescriptor d.val
    else
      let size := s.alen (s.widthOf d) (s.heightOf d) f
      if s.cfg.memSize < s.allocPtr.toNat + size then raise .allocation (min size 0xFFFFFFFF)
      else .ok (s.allocate d size)

/-- COPY (R132). -/
def execCopy (d a : DescId) (f : Format) (s : State) : Host.Outcome State Fault Refusal :=
  s.finish do
    s.checkDesc a f
    s.checkDesc d f
    s.checkSize a d
    s.checkOverlap .pointwise [(a, f)] [(d, f)]
    let bytes ← collect ((List.range (s.len a f)).map fun k => s.readByte (s.baseOf a + k))
    return s.putExtent d bytes

end Sys2Proof.Machine
end

