-- ==== Sys2Proof/Machine/Color.lean ====
section
/-! DEFINITION. The colour-space converter commands GRAY, SPLIT, MERGE, RGB2HSV, HSV2RGB, MATX and LUT (41_color R140 to
R152). Every command here is pointwise. -/

namespace Sys2Proof.Machine

/-- GRAY (R140): the truncated average. -/
def execGray (d a : DescId) (s : State) : Host.Outcome State Fault Refusal :=
  s.finish do
    s.checkDesc a .rgb
    s.checkDesc d .gray
    s.checkSize a d
    s.checkOverlap .pointwise [(a, .rgb)] [(d, .gray)]
    let bytes ← raster (s.widthOf a) (s.heightOf a) fun x y => do
      let (r, g, b) ← s.get3 a .rgb x y
      return [byteOf ((r + g + b) / 3)]
    return s.putExtent d bytes

/-- The plane of channel `o` of an RGB buffer. -/
def State.plane (s : State) (a : DescId) (o : Nat) : Run (List Byte) :=
  raster (s.widthOf a) (s.heightOf a) fun x y => do
    let v ← s.get8 a .rgb x y o
    return [byteOf v]

/-- SPLIT (R141): `b`, `c`, `d` get R, G, B of `a`. -/
def execSplit (b c d a : DescId) (s : State) : Host.Outcome State Fault Refusal :=
  s.finish do
    s.checkDesc a .rgb
    s.checkDesc b .gray
    s.checkDesc c .gray
    s.checkDesc d .gray
    s.checkSize a b
    s.checkSize a c
    s.checkSize a d
    s.checkOverlap .pointwise [(a, .rgb)] [(b, .gray), (c, .gray), (d, .gray)]
    let reds ← s.plane a 0
    let greens ← s.plane a 1
    let blues ← s.plane a 2
    return ((s.putExtent b reds).putExtent c greens).putExtent d blues

/-- MERGE (R142): `a`, `b`, `c` are R, G, B of `d`. -/
def execMerge (d a b c : DescId) (s : State) : Host.Outcome State Fault Refusal :=
  s.finish do
    s.checkDesc a .gray
    s.checkDesc b .gray
    s.checkDesc c .gray
    s.checkDesc d .rgb
    s.checkSize a b
    s.checkSize a c
    s.checkSize a d
    s.checkOverlap .pointwise [(a, .gray), (b, .gray), (c, .gray)] [(d, .rgb)]
    let bytes ← raster (s.widthOf a) (s.heightOf a) fun x y => do
      let r ← s.get8 a .gray x y 0
      let g ← s.get8 b .gray x y 0
      let bl ← s.get8 c .gray x y 0
      return [byteOf r, byteOf g, byteOf bl]
    return s.putExtent d bytes

/-- The hue of `HSVF` for `delta = M - m > 0`: `h` is a fraction over `delta` (R143). -/
def hueOf (r g b delta : Nat) : Nat :=
  let top := max r (max g b)
  let h : Int :=
    if top = r then 60 * ((g : Int) - b)
    else if top = g then 60 * ((b : Int) - r) + 120 * delta
    else 60 * ((r : Int) - g) + 240 * delta
  let wrapped := if h < 0 then h + 360 * delta else h
  let hue := (rha wrapped delta).toNat
  if hue = 360 then 0 else hue

/-- `HSVF(R, G, B)` (R143). -/
def hsvForward (r g b : Nat) : Nat × Nat × Nat :=
  let top := max r (max g b)
  let delta := top - min r (min g b)
  let v := (rha (100 * top) 255).toNat
  let sat := if top = 0 then 0 else (rha (100 * delta) top).toNat
  let hue := if delta = 0 then 0 else hueOf r g b delta
  (hue, sat, v)

/-- One channel of `HSVI`, `c` in units of 1/600000 (R144, the integer form). -/
def hsvChannel (c mn : Int) : Nat := (clamp (floorDiv (510 * (c + mn) + 600000) 1200000) 0 255).toNat

/-- `HSVI(H, S, V)` in the integer form of R144. -/
def hsvInverse (h sat v : Nat) : Nat × Nat × Nat :=
  let cn : Int := 60 * v * sat
  let xn : Int := v * sat * (60 - |((h % 120 : Nat) : Int) - 60|)
  let mn : Int := 6000 * v - cn
  let pick (r1 g1 b1 : Int) := (hsvChannel r1 mn, hsvChannel g1 mn, hsvChannel b1 mn)
  match h / 60 % 6 with
  | 0 => pick cn xn 0
  | 1 => pick xn cn 0
  | 2 => pick 0 cn xn
  | 3 => pick 0 xn cn
  | 4 => pick xn 0 cn
  | _ => pick cn 0 xn

/-- The domain check of RGB2HSV in PACKED layout, over the raster indices of a list: the first pixel with a hue above 255
is reported (R146). -/
def State.domainCheck (s : State) (a : DescId) : List Nat → Run Unit
  | [] => .ok ()
  | i :: rest => do
    let (r, g, b) ← s.get3 a .rgb (i % s.widthOf a) (i / s.widthOf a)
    if 255 < (hsvForward r g b).1 then raise .domainRange i else s.domainCheck a rest

/-- The stored bytes of an HSV pixel: WIDE stores the hue as 16 bits, low byte first, PACKED as one byte (R73, R145). -/
def State.hsvBytes (s : State) (h sat v : Nat) : List Byte :=
  if s.packed then [byteOf h, byteOf sat, byteOf v] else leBytes 2 h ++ [byteOf sat, byteOf v]

/-- RGB2HSV (R146). -/
def execRgb2hsv (d a : DescId) (s : State) : Host.Outcome State Fault Refusal :=
  s.finish do
    s.checkDesc a .rgb
    s.checkDesc d .hsv
    s.checkSize a d
    s.checkOverlap .pointwise [(a, .rgb)] [(d, .hsv)]
    if s.packed then s.domainCheck a (List.range (s.widthOf a * s.heightOf a))
    let bytes ← raster (s.widthOf a) (s.heightOf a) fun x y => do
      let (r, g, b) ← s.get3 a .rgb x y
      let (h, sat, v) := hsvForward r g b
      return s.hsvBytes h sat v
    return s.putExtent d bytes

/-- The stored channels of an HSV pixel, before the clamp (R145, R148). -/
def State.getHsv (s : State) (a : DescId) (x y : Nat) : Run (Nat × Nat × Nat) :=
  if s.packed then s.get3 a .hsv x y
  else do
    let h ← s.get16 a .hsv x y 0
    let sat ← s.get8 a .hsv x y 2
    let v ← s.get8 a .hsv x y 3
    return (h, sat, v)

/-- HSV2RGB (R148): stored values are clamped to 360, 100 and 100 first. -/
def execHsv2rgb (d a : DescId) (s : State) : Host.Outcome State Fault Refusal :=
  s.finish do
    s.checkDesc a .hsv
    s.checkDesc d .rgb
    s.checkSize a d
    s.checkOverlap .pointwise [(a, .hsv)] [(d, .rgb)]
    let bytes ← raster (s.widthOf a) (s.heightOf a) fun x y => do
      let (h, sat, v) ← s.getHsv a x y
      let (r, g, b) := hsvInverse (min h 360) (min sat 100) (min v 100)
      return [byteOf r, byteOf g, byteOf b]
    return s.putExtent d bytes

/-- `MAT[b][r][c]` (R37). -/
def State.matAt (s : State) (b : Bank) (r c : Nat) : Int := s32 (s.mat.get (Fin.ofNat 24 (12 * b.val + 4 * r + c)))

/-- Output channel `r` of MATX for the input channels `p0`, `p1`, `p2` (R150). -/
def State.matChannel (s : State) (b : Bank) (r p0 p1 p2 : Nat) : Int :=
  clamp (rha (s.matAt b r 0 * p0 + s.matAt b r 1 * p1 + s.matAt b r 2 * p2 + s.matAt b r 3) 1000000) 0 255

/-- MATX (R150). -/
def execMatx (d a : DescId) (bank : Bank) (s : State) : Host.Outcome State Fault Refusal :=
  s.finish do
    s.checkDesc a .rgb
    s.checkDesc d .rgb
    s.checkSize a d
    s.checkOverlap .pointwise [(a, .rgb)] [(d, .rgb)]
    let bytes ← raster (s.widthOf a) (s.heightOf a) fun x y => do
      let (p0, p1, p2) ← s.get3 a .rgb x y
      return [byteOfInt (s.matChannel bank 0 p0 p1 p2), byteOfInt (s.matChannel bank 1 p0 p1 p2),
        byteOfInt (s.matChannel bank 2 p0 p1 p2)]
    return s.putExtent d bytes

/-- `LUT[v]` (R43, R265). -/
def State.lutAt (s : State) (v : Nat) : Run Byte := written .unwrittenLut (Store.read s.lut v)

/-- LUT (R152). The reserved format HSV, which no word decodes to, fails its decode check (R106 row 5; log 13). -/
def execLut (d a : DescId) (f : Format) (s : State) : Host.Outcome State Fault Refusal :=
  s.finish do
    if f = .hsv then raise .illegalCommand DecodeError.reservedImmediate.info
    s.checkDesc a f
    s.checkDesc d f
    s.checkSize a d
    s.checkOverlap .pointwise [(a, f)] [(d, f)]
    let bytes ← collect ((List.range (s.len a f)).map fun k => do
      let v ← s.readByte (s.baseOf a + k)
      s.lutAt v.toNat)
    return s.putExtent d bytes

end Sys2Proof.Machine
end

