-- ==== Sys2Proof/Machine/Convolution.lean ====
section
/-! DEFINITION. The convolution engine commands CONV, KGAUSS, KSOBELH, KSOBELV, KLAPL, SOBEL, SHARPEN and BLUR
(42_convolution R170 to R186). CONV, SOBEL, SHARPEN and BLUR are neighbourhood commands. -/

namespace Sys2Proof.Machine

/-- KSIZE.KW (R31). -/
def State.kw (s : State) : Nat := bits s.ksize 7 0

/-- KSIZE.KH (R31). -/
def State.kh (s : State) : Nat := bits s.ksize 15 8

/-- GAUSS.SIGMA (R33). -/
def State.sigma (s : State) : Nat := bits s.gauss 15 0

/-- `KCHECK(kw, kh)` (R170). -/
def State.kcheck (s : State) (kw kh : Nat) : Run Unit :=
  if kw ≠ kh ∨ kw % 2 = 0 ∨ s.cfg.kmax < kw then raise .invalidKernel (kw + kh * 2 ^ 8) else .ok ()

/-- `SCHECK(s)` (R176), for the kernel side `k`. -/
def State.scheck (s : State) (k : Nat) : Run Unit :=
  if k % 2 = 0 ∨ s.cfg.kmax < k then raise .invalidKernel k else .ok ()

/-- The check of GAUSS.SIGMA in KGAUSS and BLUR (R178, R186). -/
def State.checkSigma (s : State) : Run Unit := if s.sigma = 0 then raise .invalidParameter 0 else .ok ()

/-- `DIMCHECK(a, d, r)` (R171), on exact integers. -/
def State.dimcheck (s : State) (a d : DescId) (r : Nat) : Run Unit :=
  let cut : Int := if s.border = .shrink then 2 * r else 0
  if (s.widthOf d : Int) ≠ s.widthOf a - cut ∨ (s.heightOf d : Int) ≠ s.heightOf a - cut then
    raise .badDescriptor (0x10 + d.val)
  else .ok ()

/-- The coordinate of the source pixel on which output coordinate `o` is centred (R171). -/
def State.centre (s : State) (r o : Nat) : Int := if s.border = .shrink then o + r else o

/-- `SAMPLE(a, x, y)` (R171). -/
def State.sample (s : State) (a : DescId) (x y : Int) : Run Int :=
  let inside := 0 ≤ x ∧ x < s.widthOf a ∧ 0 ≤ y ∧ y < s.heightOf a
  let get (x y : Int) : Run Int := do
    let v ← s.get8 a .gray x.toNat y.toNat 0
    return (v : Int)
  match s.border with
  | .replicate => get (clamp x 0 (s.widthOf a - 1)) (clamp y 0 (s.heightOf a - 1))
  | .zero => if inside then get x y else return 0
  | .shrink => get x y

/-- `KRAM[i]` as an s15.16 weight (R39, R265). -/
def State.weight (s : State) (i : Nat) : Run Int := do
  let w ← written .unwrittenKram (Store.read s.kram i)
  return s32 w

/-- The correlation sum of CONV at centre `(cx, cy)` with a kernel of side `k`: row `i` weighs the neighbour at
`dy = i - r`, column `j` the neighbour at `dx = j - r` (R39, R172). -/
def State.correlate (s : State) (a : DescId) (k : Nat) (cx cy : Int) : Run Int := do
  let terms ← collect ((List.range (k * k)).map fun t => do
    let w ← s.weight t
    let p ← s.sample a (cx + (t % k : Nat) - (k / 2 : Nat)) (cy + (t / k : Nat) - (k / 2 : Nat))
    return w * p)
  return terms.sum

/-- The output extent of CONV, with the kernel in KRAM and KSIZE (R172). -/
def State.convBytes (s : State) (d a : DescId) : Run (List Byte) :=
  raster (s.widthOf d) (s.heightOf d) fun ox oy => do
    let acc ← s.correlate a s.kw (s.centre (s.kw / 2) ox) (s.centre (s.kw / 2) oy)
    return [byteOfInt (clamp (rha acc 65536) 0 255)]

/-- CONV (R172). -/
def execConv (d a : DescId) (s : State) : Host.Outcome State Fault Refusal :=
  s.finish do
    s.checkDesc a .gray
    s.checkDesc d .gray
    s.kcheck s.kw s.kh
    s.dimcheck a d (s.kw / 2)
    s.checkOverlap .neighbourhood [(a, .gray)] [(d, .gray)]
    let bytes ← s.convBytes d a
    return s.putExtent d bytes

/-- Loads a kernel of side `k` into KRAM from entry 0 on and sets KSIZE to `k | k << 8` (R178 to R181). -/
def State.loadKernel (s : State) (k : Nat) (weights : List Int) : State :=
  { s with
    kram := Store.writeList s.kram 0 (weights.map fun q => BitVec.ofInt 32 q)
    ksize := BitVec.ofNat 32 (k + k * 2 ^ 8) }

/-- The Gaussian weights of side `k`, row-major: row `i`, column `j` holds `q(j - k div 2, i - k div 2)` (R177, R178). -/
def gaussWeights (k sigma : Nat) : List Int :=
  (List.range (k * k)).map fun t =>
    Config.gaussQ.weight k sigma (((t % k : Nat) : Int) - (k / 2 : Nat), ((t / k : Nat) : Int) - (k / 2 : Nat))

/-- KGAUSS (R178), for the kernel side in IMM. -/
def execKgauss (k : Byte) (s : State) : Host.Outcome State Fault Refusal :=
  s.finish do
    s.scheck k.toNat
    s.checkSigma
    return s.loadKernel k.toNat (gaussWeights k.toNat s.sigma)

/-- The horizontal Sobel kernel (R179). -/
def sobelH : List Int := [-1, 0, 1, -2, 0, 2, -1, 0, 1]

/-- The vertical Sobel kernel, as written (R180, 90 C7). -/
def sobelV : List Int := [-1, -2, -1, 0, 0, 0, 1, 2, 1]

/-- The Laplacian kernel (R181). -/
def laplacian : List Int := [0, -1, 0, -1, 4, -1, 0, -1, 0]

/-- KSOBELH (R179). -/
def execKsobelh (s : State) : Host.Outcome State Fault Refusal :=
  s.finish (.ok (s.loadKernel 3 (sobelH.map fun q => 65536 * q)))

/-- KSOBELV (R180). -/
def execKsobelv (s : State) : Host.Outcome State Fault Refusal :=
  s.finish (.ok (s.loadKernel 3 (sobelV.map fun q => 65536 * q)))

/-- KLAPL (R181). -/
def execKlapl (s : State) : Host.Outcome State Fault Refusal :=
  s.finish (.ok (s.loadKernel 3 (laplacian.map fun q => 65536 * q)))

/-- A response as CTRL.RAWRESP has it: clamped (LITERAL) or signed (RAW) (R182, R184). -/
def State.response (s : State) (g : Int) : Int := if s.rawResp then g else clamp g 0 255

/-- The Sobel magnitude at centre `(cx, cy)` (R182, R183). -/
def State.sobelAt (s : State) (a : DescId) (cx cy : Int) : Run Nat := do
  let nw ← s.sample a (cx - 1) (cy - 1)
  let n ← s.sample a cx (cy - 1)
  let ne ← s.sample a (cx + 1) (cy - 1)
  let w ← s.sample a (cx - 1) cy
  let e ← s.sample a (cx + 1) cy
  let sw ← s.sample a (cx - 1) (cy + 1)
  let so ← s.sample a cx (cy + 1)
  let se ← s.sample a (cx + 1) (cy + 1)
  let gx := s.response (-nw + ne - 2 * w + 2 * e - sw + se)
  let gy := s.response (-nw - 2 * n - ne + sw + 2 * so + se)
  return min (rsqrt (gx * gx + gy * gy).toNat) 255

/-- SOBEL (R183). -/
def execSobel (d a : DescId) (s : State) : Host.Outcome State Fault Refusal :=
  s.finish do
    s.checkDesc a .gray
    s.checkDesc d .gray
    s.dimcheck a d 1
    s.checkOverlap .neighbourhood [(a, .gray)] [(d, .gray)]
    let bytes ← raster (s.widthOf d) (s.heightOf d) fun ox oy => do
      let m ← s.sobelAt a (s.centre 1 ox) (s.centre 1 oy)
      return [byteOf m]
    return s.putExtent d bytes

/-- The sharpened level at centre `(cx, cy)`: the Laplacian response of R184 and the sum of R185. -/
def State.sharpenAt (s : State) (a : DescId) (cx cy : Int) : Run Int := do
  let orig ← s.sample a cx cy
  let n ← s.sample a cx (cy - 1)
  let w ← s.sample a (cx - 1) cy
  let e ← s.sample a (cx + 1) cy
  let so ← s.sample a cx (cy + 1)
  let lv := s.response (4 * orig - n - w - e - so)
  return clamp (rha (256 * orig + s16 s.sharpk * lv) 256) 0 255

/-- SHARPEN (R185). -/
def execSharpen (d a : DescId) (s : State) : Host.Outcome State Fault Refusal :=
  s.finish do
    s.checkDesc a .gray
    s.checkDesc d .gray
    s.dimcheck a d 1
    s.checkOverlap .neighbourhood [(a, .gray)] [(d, .gray)]
    let bytes ← raster (s.widthOf d) (s.heightOf d) fun ox oy => do
      let v ← s.sharpenAt a (s.centre 1 ox) (s.centre 1 oy)
      return [byteOfInt v]
    return s.putExtent d bytes

/-- BLUR (R186): the effects of KGAUSS, then those of CONV with that kernel. -/
def execBlur (d a : DescId) (k : Byte) (s : State) : Host.Outcome State Fault Refusal :=
  s.finish do
    s.checkDesc a .gray
    s.checkDesc d .gray
    s.scheck k.toNat
    s.checkSigma
    s.dimcheck a d (k.toNat / 2)
    s.checkOverlap .neighbourhood [(a, .gray)] [(d, .gray)]
    let s1 := s.loadKernel k.toNat (gaussWeights k.toNat s.sigma)
    let bytes ← s1.convBytes d a
    return s1.putExtent d bytes

end Sys2Proof.Machine
end

