-- ==== Sys2Proof/Machine/Histogram.lean ====
section
/-! DEFINITION. The histogram engine commands HIST, CUM, EQUALIZE and STRETCH (43_histogram R200 to R203). -/

namespace Sys2Proof.Machine

/-- The levels of a GRAY buffer in raster order. -/
def State.levels (s : State) (a : DescId) : Run (List Nat) :=
  collect ((List.range (s.widthOf a * s.heightOf a)).map fun i => s.get8 a .gray (i % s.widthOf a) (i / s.widthOf a) 0)

/-- The count of level `v` with maxLevel `l` (R200). -/
def countOf (px : List Nat) (l v : Nat) : Nat := if v ≤ l then px.count v else 0

/-- HIST (R200). -/
def execHist (a : DescId) (l : Byte) (s : State) : Host.Outcome State Fault Refusal :=
  s.finish do
    s.checkDesc a .gray
    let px ← s.levels a
    return { s with hist := Store.ofListFrom 0 ((List.range 256).map fun v => BitVec.ofNat 32 (countOf px l.toNat v)) }

/-- `HIST[0..L]` as it stands (R201 to R203, R265). -/
def State.counts (s : State) (l : Nat) : Run (List Nat) :=
  collect ((List.range (l + 1)).map fun v => do
    let h ← written .unwrittenHist (Store.read s.hist v)
    return h.toNat)

/-- The running sums of a list of counts from `acc` on, saturating at `2^32 - 1` (R201). -/
def runningSums (acc : Nat) : List Nat → List Nat
  | [] => []
  | h :: rest => min (acc + h) (2 ^ 32 - 1) :: runningSums (min (acc + h) (2 ^ 32 - 1)) rest

/-- `CUMF(L)` for the counts `HIST[0..L]`: 256 entries, those above `L` equal to `C[L]` (R201). -/
def cumf (counts : List Nat) : List Nat :=
  let sums := runningSums 0 counts
  sums ++ List.replicate (256 - sums.length) (sums.getLastD 0)

/-- A list of 256 numbers as the content of a word window. -/
def wordWindow (vs : List Nat) : Store Word := Store.ofListFrom 0 (vs.map fun v => BitVec.ofNat 32 v)

/-- CUM (R201). -/
def execCum (l : Byte) (s : State) : Host.Outcome State Fault Refusal :=
  s.finish do
    let counts ← s.counts l.toNat
    return { s with cum := wordWindow (cumf counts) }

/-- The remap of EQUALIZE: `LUT[v] = min((L * C[v]) div N, 255)` (R202). -/
def equalizeTable (l n : Nat) (c : List Nat) : List Nat := c.map fun cv => min (l * cv / n) 255

/-- EQUALIZE (R202). -/
def execEqualize (d a : DescId) (l : Byte) (s : State) : Host.Outcome State Fault Refusal :=
  s.finish do
    s.checkDesc a .gray
    s.checkDesc d .gray
    s.checkSize a d
    s.checkOverlap .pointwise [(a, .gray)] [(d, .gray)]
    let counts ← s.counts l.toNat
    let c := cumf counts
    let table := equalizeTable l.toNat (s.widthOf a * s.heightOf a) c
    let px ← s.levels a
    let s1 := { s with cum := wordWindow c, lut := Store.ofListFrom 0 (table.map byteOf) }
    return s1.putExtent d (px.map fun v => byteOf (table.getD v 0))

/-- The least level with the minimum count (R203). -/
def bInf (counts : List Nat) : Nat := counts.idxOf (counts.foldl min (counts.headD 0))

/-- The least level with the maximum count (R203). -/
def bSup (counts : List Nat) : Nat := counts.idxOf (counts.foldl max (counts.headD 0))

/-- The stretched level of `v`, from 0 to 100 (R203). -/
def stretchLevel (lo hi v : Nat) : Int := clamp (floorDiv (((v : Int) - lo) * 100) ((hi : Int) - lo)) 0 100

/-- STRETCH (R203). -/
def execStretch (d a : DescId) (l : Byte) (s : State) : Host.Outcome State Fault Refusal :=
  s.finish do
    s.checkDesc a .gray
    s.checkDesc d .gray
    s.checkSize a d
    s.checkOverlap .pointwise [(a, .gray)] [(d, .gray)]
    let counts ← s.counts l.toNat
    if bInf counts = bSup counts then raise .degenerateStretch (bInf counts)
    let px ← s.levels a
    return s.putExtent d (px.map fun v => byteOfInt (stretchLevel (bInf counts) (bSup counts) v))

end Sys2Proof.Machine
end

