-- ==== Sys2Proof/Machine/Dispatch.lean ====
section
/-! DEFINITION. The engine's completion step of each command (60_exceptions R220): one arm per row of the opcode table. -/

namespace Sys2Proof.Machine

def exec (i : Instr) (s : State) : Host.Outcome State Fault Refusal :=
  match i with
  | .nop => Sys2Proof.Machine.execNop s
  | .alloc d f => Sys2Proof.Machine.execAlloc d f s
  | .copy d a f => Sys2Proof.Machine.execCopy d a f s
  | .gray d a => Sys2Proof.Machine.execGray d a s
  | .split b c d a => Sys2Proof.Machine.execSplit b c d a s
  | .merge d a b c => Sys2Proof.Machine.execMerge d a b c s
  | .rgb2hsv d a => Sys2Proof.Machine.execRgb2hsv d a s
  | .hsv2rgb d a => Sys2Proof.Machine.execHsv2rgb d a s
  | .matx d a bank => Sys2Proof.Machine.execMatx d a bank s
  | .lut d a f => Sys2Proof.Machine.execLut d a f s
  | .conv d a => Sys2Proof.Machine.execConv d a s
  | .kgauss k => Sys2Proof.Machine.execKgauss k s
  | .ksobelh => Sys2Proof.Machine.execKsobelh s
  | .ksobelv => Sys2Proof.Machine.execKsobelv s
  | .klapl => Sys2Proof.Machine.execKlapl s
  | .sobel d a => Sys2Proof.Machine.execSobel d a s
  | .sharpen d a => Sys2Proof.Machine.execSharpen d a s
  | .blur d a k => Sys2Proof.Machine.execBlur d a k s
  | .hist a l => Sys2Proof.Machine.execHist a l s
  | .cum l => Sys2Proof.Machine.execCum l s
  | .equalize d a l => Sys2Proof.Machine.execEqualize d a l s
  | .stretch d a l => Sys2Proof.Machine.execStretch d a l s

end Sys2Proof.Machine
end

