-- ==== Sys2Proof/Machine/Engine.lean ====
section
/-! DEFINITION. The ENGINE agent: the completion step of the pending command (60_exceptions R220), after which a held
access is issued again (20_memory R86). -/

namespace Sys2Proof.Machine

/-- The completion of the command word `w`: decode is its first check (R105, R224), then the command's meaning. -/
def runCommand (w : Word) (s : State) : Host.Outcome State Fault Refusal :=
  match decode w with
  | .ok i => exec i s
  | .error e => s.finish (raise .illegalCommand e.info)

/-- After the completion step the held access, if any, comes next, as if issued just after it (R86, log 5). -/
def State.releaseHeld (s : State) : State :=
  match s.held with
  | none => s
  | some a => { s with held := none, events := .access a :: s.events }

/-- The engine's completion step. With no command pending the engine is idle and nothing changes (R238). -/
def completion (s : State) : Host.Outcome State Fault Refusal :=
  match s.pending with
  | none => .next s.releaseHeld
  | some w =>
    match runCommand w s with
    | .next t => .next t.releaseHeld
    | .fault f => .fault f
    | .refused r => .refused r

/-- The next event of the order of R82, and the state with that event taken off the list. The port takes one access at a
time (R91), so while an access is held the next one is not issued yet and the engine's completion comes first (log 4).
When no event is left, the engine completes what is pending (R272). -/
def nextEvent (s : State) : Event × State :=
  match s.events with
  | [] => (.complete, s)
  | .access a :: rest => if s.held.isSome then (.complete, s) else (.access a, { s with events := rest })
  | e :: rest => (e, { s with events := rest })

end Sys2Proof.Machine
end

