-- ==== Sys2Proof/Machine/Port.lean ====
section
/-! DEFINITION. The host port: the register map (10_state R20 to R43), reads and writes of registers and windows (20_memory
R85), of buffer memory (R87), and the hold rule (R86). -/

namespace Sys2Proof.Machine

/-- The registers and window entries of the register space (R20). -/
inductive Reg where
  | id
  | version
  | caps
  | memSize
  | ctrl
  | status
  | cmd
  | errinfo
  | ksize
  | sharpk
  | gauss
  | allocPtr
  | descBase (n : DescId)
  | descDim (n : DescId)
  | mat (k : Fin 24)
  | kram (i : Nat)
  | hist (i : Nat)
  | cum (i : Nat)
  | lut (i : Nat)
  | reserved
  deriving DecidableEq, Repr

/-- The registers at offsets 0x000 to 0x02C, in order (R20). -/
def controlRegs : List Reg :=
  [.id, .version, .caps, .memSize, .ctrl, .status, .cmd, .errinfo, .ksize, .sharpk, .gauss, .allocPtr]

/-- The register at an offset that is a multiple of 4 below 0x2000 (R20, R35 to R37, R39, R41 to R43). -/
def regAt (off : Nat) : Reg :=
  if off < 0x030 then controlRegs.getD (off / 4) .reserved
  else if off < 0x040 then .reserved
  else if off < 0x080 then
    if off % 8 = 0 then .descBase (Fin.ofNat 8 ((off - 0x040) / 8)) else .descDim (Fin.ofNat 8 ((off - 0x040) / 8))
  else if off < 0x0E0 then .mat (Fin.ofNat 24 ((off - 0x080) / 4))
  else if off < 0x400 then .reserved
  else if off < 0x800 then .kram ((off - 0x400) / 4)
  else if off < 0xC00 then .hist ((off - 0x800) / 4)
  else if off < 0x1000 then .cum ((off - 0xC00) / 4)
  else if off < 0x1400 then .lut ((off - 0x1000) / 4)
  else .reserved

/-- CAPS: `KMAX` in bits 7:0, `log2(BUF_ALIGN)` in bits 11:8 (R23). -/
def capsWord (p : Config.Params) : Word := BitVec.ofNat 32 (p.kmax % 2 ^ 8 + Nat.log2 p.bufAlign % 2 ^ 4 * 2 ^ 8)

/-- A window entry as the host reads it: a fault if nothing has written it (R265). -/
def windowRead {α : Type} (f : Fault) : Option α → Except Fault α
  | some v => .ok v
  | none => .error f

/-- What a read of a register returns (R20 to R43). No read changes the state (R83, R88). -/
def State.readReg (s : State) : Reg → Except Fault Word
  | .id => .ok 0x5449464F
  | .version => .ok 0x00000701
  | .caps => .ok (capsWord s.cfg)
  | .memSize => .ok (BitVec.ofNat 32 s.cfg.memSize)
  | .ctrl => .ok s.ctrl
  | .status => .ok s.status
  | .cmd => .ok s.cmd
  | .errinfo => .ok s.errinfo
  | .ksize => .ok s.ksize
  | .sharpk => .ok s.sharpk
  | .gauss => .ok s.gauss
  | .allocPtr => .ok s.allocPtr
  | .descBase n => .ok (s.desc.get n).base
  | .descDim n => .ok (s.desc.get n).dim
  | .mat k => .ok (s.mat.get k)
  | .kram i => windowRead .unwrittenKram (Store.read s.kram i)
  | .hist i => windowRead .unwrittenHist (Store.read s.hist i)
  | .cum i => windowRead .unwrittenCum (Store.read s.cum i)
  | .lut i => (windowRead .unwrittenLut (Store.read s.lut i)).map fun b => b.setWidth 32
  | .reserved => .ok 0

/-- What a write of `v` to a register does (R20 to R43): read-only registers and reserved offsets ignore it, reserved bits
stay 0, a CMD write is accepted while idle and dropped while BUSY (R29). -/
def State.writeReg (s : State) (v : Word) : Reg → State
  | .id => s
  | .version => s
  | .caps => s
  | .memSize => s
  | .ctrl => { s with ctrl := ctrlWrite s.ctrl v }
  | .status => { s with status := statusWrite s.status v }
  | .cmd => if s.busy then { s with status := statusOverrun s.status } else s.accept v
  | .errinfo => s
  | .ksize => { s with ksize := v &&& 0xFFFF }
  | .sharpk => { s with sharpk := v &&& 0xFFFF }
  | .gauss => { s with gauss := v &&& 0xFFFF }
  | .allocPtr => { s with allocPtr := BitVec.ofNat 32 (v.toNat / s.cfg.bufAlign * s.cfg.bufAlign) }
  | .descBase n => { s with desc := s.desc.set n { s.desc.get n with base := v } }
  | .descDim n => { s with desc := s.desc.set n { s.desc.get n with dim := v } }
  | .mat k => { s with mat := s.mat.set k v }
  | .kram i => { s with kram := Store.write s.kram i v }
  | .hist i => { s with hist := Store.write s.hist i v }
  | .cum i => { s with cum := Store.write s.cum i v }
  | .lut i => { s with lut := Store.write s.lut i (v.setWidth 8) }
  | .reserved => s

/-- A register-space access is admitted: 32 bits, an offset that is a multiple of 4, below 0x2000 (R85). -/
def regAdmitted (offset width : Nat) : Bool := width = 4 && offset % 4 = 0 && offset < 0x2000

/-- A buffer-memory access is admitted: 1, 2 or 4 bytes at a multiple of the width (R87). -/
def memAdmitted (addr width : Nat) : Bool := (width = 1 || width = 2 || width = 4) && addr % width = 0

/-- Why an access has no step, if it has none (R85, R87). -/
def Access.refusal : Access → Option Refusal
  | .regRead off w => if regAdmitted off w then none else some .registerAccessNotAdmitted
  | .regWrite off w _ => if regAdmitted off w then none else some .registerAccessNotAdmitted
  | .memRead a w => if memAdmitted a w then none else some .memoryAccessNotAdmitted
  | .memWrite a w _ => if memAdmitted a w then none else some .memoryAccessNotAdmitted

/-- The windows: a read of one is held while BUSY (R86). -/
def Reg.isWindow : Reg → Bool
  | .kram _ => true
  | .hist _ => true
  | .cum _ => true
  | .lut _ => true
  | _ => false

/-- The accesses that the hold rule holds while BUSY = 1: window reads, register writes other than to STATUS and CMD, and
every buffer-memory access (R86). -/
def Access.holdable : Access → Bool
  | .regRead off _ => (regAt off).isWindow
  | .regWrite off _ _ => !(regAt off == .status || regAt off == .cmd)
  | .memRead _ _ => true
  | .memWrite _ _ _ => true

/-- Records an answer of the host port. -/
def State.respond (s : State) (r : Response) : State := { s with responses := r :: s.responses }

/-- A host read of `width` bytes of buffer memory: 0 at or above MEM_SIZE (R87), a fault on an unwritten byte (R265). -/
def State.hostMemRead (s : State) (addr width : Nat) : Except Fault Word :=
  if addr + width ≤ s.cfg.memSize then
    match Memory.readLE s.mem addr width with
    | some v => .ok (BitVec.ofNat 32 v)
    | none => .error .unwrittenMemory
  else .ok 0

/-- A host write of `width` bytes of buffer memory: ignored at or above MEM_SIZE (R87). -/
def State.hostMemWrite (s : State) (addr width : Nat) (v : Word) : State :=
  if addr + width ≤ s.cfg.memSize then { s with mem := Memory.writeLE s.mem addr width v.toNat } else s

/-- The completion of an admitted access that is not held (R85, R87, R88). -/
def State.perform (s : State) : Access → Host.Outcome State Fault Refusal
  | .regRead off _ =>
    match s.readReg (regAt off) with
    | .ok v => .next (s.respond (.value v))
    | .error f => .fault f
  | .regWrite off _ v => .next ((s.writeReg v (regAt off)).respond .done)
  | .memRead a w =>
    match s.hostMemRead a w with
    | .ok v => .next (s.respond (.value v))
    | .error f => .fault f
  | .memWrite a w v => .next ((s.hostMemWrite a w v).respond .done)

/-- The host issues an access: refused if not admitted, held if the hold rule says so, else completed (R85 to R87). -/
def hostAccess (s : State) (a : Access) : Host.Outcome State Fault Refusal :=
  match a.refusal with
  | some r => .refused r
  | none => if s.busy && a.holdable then .next { s with held := some a } else s.perform a

end Sys2Proof.Machine
end

