-- ==== Sys2Proof/Machine/ResetLine.lean ====
section
/-! DEFINITION. The reset input (70_reset R260 to R264). -/

namespace Sys2Proof.Machine

/-- The destination extents of the command that is running, as pairs of first address and end (R262, log 9). -/
def State.abandonedExtents (s : State) : List (Nat × Nat) :=
  match s.pending with
  | none => []
  | some w =>
    match decode w with
    | .error _ => []
    | .ok i => (destinations i).map fun p => (s.baseOf p.1, s.baseOf p.1 + s.len p.1 p.2)

/-- Buffer memory after a reset: unwritten after power-on; kept by a warm reset, but for the destination extents of an
abandoned command (R262, R263). -/
def State.memAfterReset (s : State) : ResetKind → Memory
  | .powerOn => []
  | .warm => s.abandonedExtents.foldl (fun m e => Store.forget m e.1 e.2) s.mem

/-- A reset: every register and array takes its reset value (R260), the running command is abandoned (R262), a held access
is discarded and answered `lost` (R264, log 8). The parameters stay, and so does the outside world. -/
def State.applyReset (s : State) (k : ResetKind) : State :=
  { State.reset with
    cfg := s.cfg
    mem := s.memAfterReset k
    events := s.events
    responses := if s.held.isSome then .lost :: s.responses else s.responses }

end Sys2Proof.Machine
end

