-- ==== Sys2Proof/Machine/Step.lean ====
section
/-! DEFINITION. One step of the machine: one event of the total order of 20_memory R82 (log 3). -/

namespace Sys2Proof.Machine

/-- One event: a host access (R85 to R87), the engine's completion step (R220), or a reset (R260). -/
def step (s : State) : Host.Outcome State Fault Refusal :=
  match nextEvent s with
  | (.complete, t) => completion t
  | (.access a, t) => hostAccess t a
  | (.reset k, t) => .next (t.applyReset k)

/-- The state in which the next step runs the command word whose low `nbits` bits are those of `w`, the rest 0. Commands
are never fetched from memory (R89): the word is placed as a host write of CMD would place it (R29), and the engine's
completion is the next event (log 11). -/
def State.withFetchWord (s : State) (nbits w : Nat) : State :=
  { s.accept (BitVec.ofNat 32 (w % 2 ^ nbits)) with events := .complete :: s.events }

end Sys2Proof.Machine
end

