-- ==== Sys2Proof/Safety.lean ====
section
/-! DEFINITION. The words in which statements about the machine are made: when a descriptor passes its check, how two
operands may lie, what a buffer reads as, what stays the same, and the invariant of the machine. -/

namespace Sys2Proof.Safety

open Sys2Proof.Machine

/-- Descriptor `n` passes the descriptor check with format `f` (20_memory R76): BASE aligned, W and H not zero, the extent
inside buffer memory. -/
abbrev DescOk (s : State) (n : DescId) (f : Format) : Prop :=
  s.baseOf n % s.cfg.bufAlign = 0 ∧ 0 < s.widthOf n ∧ 0 < s.heightOf n ∧ s.baseOf n + s.len n f ≤ s.cfg.memSize

/-- Two descriptors name buffers of the same width and height. -/
abbrev SameSize (s : State) (a d : DescId) : Prop := s.widthOf d = s.widthOf a ∧ s.heightOf d = s.heightOf a

/-- Two extents share no byte (R79). -/
abbrev Apart (s : State) (p q : Operand) : Prop :=
  s.baseOf p.1 + s.len p.1 p.2 ≤ s.baseOf q.1 ∨ s.baseOf q.1 + s.len q.1 q.2 ≤ s.baseOf p.1

/-- Same BASE, W, H and bpp (R79). -/
abbrev Alias (s : State) (p q : Operand) : Prop :=
  s.baseOf p.1 = s.baseOf q.1 ∧ s.widthOf p.1 = s.widthOf q.1 ∧ s.heightOf p.1 = s.heightOf q.1 ∧ s.bpp p.2 = s.bpp q.2

/-- A destination and a source as a pointwise command allows them (R80). -/
abbrev PointwiseOk (s : State) (d a : Operand) : Prop := Apart s d a ∨ Alias s d a

/-- Every byte of the extent of `n` has been written (R265). -/
abbrev Readable (s : State) (n : DescId) (f : Format) : Prop :=
  ∀ k, k < s.len n f → (Store.read s.mem (s.baseOf n + k)).isSome = true

/-- Entries `0` to `n - 1` of a window have been written (R265). -/
abbrev Filled {α : Type} (m : Store α) (n : Nat) : Prop := ∀ i, i < n → (Store.read m i).isSome = true

/-- A pointwise command with one source `a` and one destination `d` passes its descriptor, dimension and overlap checks, and
its source has been written. -/
abbrev PointwiseReady (s : State) (d a : Operand) : Prop :=
  DescOk s a.1 a.2 ∧ DescOk s d.1 d.2 ∧ SameSize s a.1 d.1 ∧ PointwiseOk s d a ∧ Readable s a.1 a.2

/-- The byte of buffer memory at an address, as a number; used where it has been written. -/
def byteAt (s : State) (addr : Nat) : Nat := ((Store.read s.mem addr).map BitVec.toNat).getD 0

/-- Channel offset `o` of pixel `(x, y)` of buffer `n` (R74, R78). -/
def pixelAt (s : State) (n : DescId) (f : Format) (x y o : Nat) : Nat := byteAt s (s.paddr n f x y o)

/-- Every byte of memory outside the extent of `d` reads in `t` as it did in `s`. -/
def MemOutside (s t : State) (d : DescId) (f : Format) : Prop :=
  ∀ addr, addr < s.baseOf d ∨ s.baseOf d + s.len d f ≤ addr → Store.read t.mem addr = Store.read s.mem addr

/-- The whole of `t` but its buffer memory is `s` after a completion without error (R222): no other register, array or
hidden state has changed. -/
def OnlyMemory (s t : State) : Prop := t = { s.complete none with mem := t.mem }

/-- The completion step of `i` at `s` ends in error `e` with ERRINFO `info` and no other effect (R222, R223). -/
def Fails (i : Instr) (s : State) (e : Error) (info : Nat) : Prop :=
  exec i s = .next (s.complete (some (e, info)))

/-- A word entry of a window, as a number; used where it has been written. -/
def entryAt (m : Store Word) (i : Nat) : Nat := ((Store.read m i).map BitVec.toNat).getD 0

/-- A kernel weight `s32(KRAM[i])` (R39); used where it has been written. -/
def weightAt (m : Store Word) (i : Nat) : Int := ((Store.read m i).map BitVec.toInt).getD 0

/-- `SAMPLE(a, x, y)` as a number (42_convolution R171): the border policy applied to the bytes of memory. -/
def sampleAt (s : State) (a : DescId) (x y : Int) : Int :=
  match s.border with
  | .replicate =>
    pixelAt s a .gray (max 0 (min x (s.widthOf a - 1))).toNat (max 0 (min y (s.heightOf a - 1))).toNat 0
  | .zero =>
    if 0 ≤ x ∧ x < s.widthOf a ∧ 0 ≤ y ∧ y < s.heightOf a then pixelAt s a .gray x.toNat y.toNat 0 else 0
  | .shrink => pixelAt s a .gray x.toNat y.toNat 0

/-- If `SAMPLE(a, x, y)` reads a byte of the source, that byte has been written: the byte at the nearest coordinate inside
under REPLICATE, the byte at `(x, y)` itself where that is inside under ZERO and SHRINK (R171, R265). -/
def SampleWritten (s : State) (a : DescId) (x y : Int) : Prop :=
  let sx := if s.border = .replicate then max 0 (min x (s.widthOf a - 1)) else x
  let sy := if s.border = .replicate then max 0 (min y (s.heightOf a - 1)) else y
  0 ≤ sx → sx < s.widthOf a → 0 ≤ sy → sy < s.heightOf a →
    (Store.read s.mem (s.paddr a .gray sx.toNat sy.toNat 0)).isSome = true

/-- How much of each side the border policy cuts off for radius `r` (R171). -/
def cutOf (s : State) (r : Nat) : Nat := if s.border = .shrink then r else 0

/-- The destination of a neighbourhood command with radius `r` has the size the border policy asks for (R171). -/
abbrev OutputSize (s : State) (a d : DescId) (r : Nat) : Prop :=
  s.widthOf d + 2 * cutOf s r = s.widthOf a ∧ s.heightOf d + 2 * cutOf s r = s.heightOf a

/-- A neighbourhood command of radius `r` passes its descriptor, dimension and overlap checks, and its source has been
written (kernel and parameter checks apart). -/
abbrev NeighbourReady (s : State) (d a : DescId) (r : Nat) : Prop :=
  DescOk s a .gray ∧ DescOk s d .gray ∧ OutputSize s a d r ∧ Apart s (d, .gray) (a, .gray) ∧ Readable s a .gray

/-- The weighted sum of CONV for output pixel `(ox, oy)`, centred on source pixel `(ox + cut, oy + cut)`: kernel row `i`,
column `j` weighs the neighbour at `(j - r, i - r)`, `r = k div 2` (R39, R171, R172). -/
def weightedSum (s : State) (kram : Store Word) (a : DescId) (k ox oy : Nat) : Int :=
  ∑ i ∈ Finset.range k, ∑ j ∈ Finset.range k,
    weightAt kram (i * k + j) *
      sampleAt s a ((ox + cutOf s (k / 2) + j : Nat) - (k / 2 : Nat)) ((oy + cutOf s (k / 2) + i : Nat) - (k / 2 : Nat))

/-- The number of pixels of GRAY buffer `a` with level `v` (43_histogram R200). -/
def pixelCount (s : State) (a : DescId) (v : Nat) : Nat :=
  ((Finset.range (s.heightOf a) ×ˢ Finset.range (s.widthOf a)).filter fun p => pixelAt s a .gray p.2 p.1 0 = v).card

/-- `CUMF` as R201 writes it: saturating running sums of `h` up to level `l`, constant above. -/
def cumulative (h : Nat → Nat) (l : Nat) : Nat → Nat
  | 0 => min (h 0) (2 ^ 32 - 1)
  | v + 1 => if v + 1 ≤ l then min (cumulative h l v + h (v + 1)) (2 ^ 32 - 1) else cumulative h l v

/-- `b` is the least level of `0..l` whose count is the least (43_histogram R203, `bInf`). -/
abbrev IsLeastMin (h : Nat → Nat) (l b : Nat) : Prop :=
  b ≤ l ∧ (∀ v, v < l + 1 → h b ≤ h v) ∧ ∀ v, v < b → h b < h v

/-- `b` is the least level of `0..l` whose count is the greatest (43_histogram R203, `bSup`). -/
abbrev IsLeastMax (h : Nat → Nat) (l b : Nat) : Prop :=
  b ≤ l ∧ (∀ v, v < l + 1 → h v ≤ h b) ∧ ∀ v, v < b → h v < h b

/-- `n = rha(q)` (00_scope R11): the nearest integer to `q`, the one farther from zero where two are a half away. -/
def RoundsHalfAway (q : ℚ) (n : Int) : Prop := |(n : ℚ) - q| ≤ 1 / 2 ∧ (|(n : ℚ) - q| = 1 / 2 → |q| ≤ |(n : ℚ)|)

/-- `m = rsqrt(q)` (R11): `m` is the integer nearest to the square root of `q`, `m - 1/2 < sqrt(q) < m + 1/2`. -/
abbrev NearestRoot (q m : Nat) : Prop := (m = 0 ∨ m * m < q + m) ∧ q ≤ m * m + m

/-- `clamp(n, 0, 255)` as a byte. -/
def saturate (n : Int) : Byte := BitVec.ofInt 8 (max 0 (min 255 n))

/-- A gradient or Laplacian response as CTRL.RAWRESP has it (R182, R184). -/
def responseOf (s : State) (g : Int) : Int := if s.rawResp then g else max 0 (min 255 g)

/-- `P(dx, dy)` of R182 for output pixel `(ox, oy)` of SOBEL and SHARPEN. -/
def around (s : State) (a : DescId) (ox oy : Nat) (dx dy : Int) : Int :=
  sampleAt s a ((ox + cutOf s 1 : Nat) + dx) ((oy + cutOf s 1 : Nat) + dy)

/-- The eight neighbours of the centre, as the offsets `(dx, dy)` at which SOBEL takes `P` (R182). -/
def sobelOffsets : List (Int × Int) := [(-1, -1), (0, -1), (1, -1), (-1, 0), (1, 0), (-1, 1), (0, 1), (1, 1)]

/-- The centre and its four neighbours, as the offsets `(dx, dy)` at which SHARPEN takes `P` (R184, R185). -/
def sharpenOffsets : List (Int × Int) := [(0, 0), (0, -1), (-1, 0), (1, 0), (0, 1)]

/-- Every sample that the output pixels of destination `d` take of source `a` at the given offsets, and that lies inside the
source under the border policy, has been written. -/
def SamplesWritten (s : State) (d a : DescId) (offs : List (Int × Int)) : Prop :=
  ∀ ox oy, ox < s.widthOf d → oy < s.heightOf d → ∀ o ∈ offs,
    SampleWritten s a ((ox + cutOf s 1 : Nat) + o.1) ((oy + cutOf s 1 : Nat) + o.2)

/-- `gxr` of R182. -/
def gradX (p : Int → Int → Int) : Int := -p (-1) (-1) + p 1 (-1) - 2 * p (-1) 0 + 2 * p 1 0 - p (-1) 1 + p 1 1

/-- `gyr` of R182. -/
def gradY (p : Int → Int → Int) : Int := -p (-1) (-1) - 2 * p 0 (-1) - p 1 (-1) + p (-1) 1 + 2 * p 0 1 + p 1 1

/-- `Lr` of R184. -/
def laplaceAt (p : Int → Int → Int) : Int := 4 * p 0 0 - p 0 (-1) - p (-1) 0 - p 1 0 - p 0 1

/-- The hue of R143 before rounding, for `M > m`, in degrees. -/
def hueDegrees (r g b : Nat) : ℚ :=
  let top : ℚ := max r (max g b)
  let d : ℚ := top - min r (min g b)
  let h : ℚ := if top = r then 60 * ((g : ℚ) - b) / d else if top = g then 60 * ((b : ℚ) - r) / d + 120
    else 60 * ((r : ℚ) - g) / d + 240
  if h < 0 then h + 360 else h

/-- The channel triple `(r1, g1, b1)` of R144, over the rationals. -/
def sectorTriple (sector : Nat) (c x : ℚ) : ℚ × ℚ × ℚ :=
  match sector with
  | 0 => (c, x, 0)
  | 1 => (x, c, 0)
  | 2 => (0, c, x)
  | 3 => (0, x, c)
  | 4 => (x, 0, c)
  | _ => (c, 0, x)

/-- The buffer operands a command checks, with their formats, in operand-field order DA, DB, DC, DD (R76, R102, R104). -/
def operandsOf : Instr → List Operand
  | .nop => []
  | .alloc _ _ => []
  | .copy d a f => [(a, f), (d, f)]
  | .gray d a => [(a, .rgb), (d, .gray)]
  | .split b c d a => [(a, .rgb), (b, .gray), (c, .gray), (d, .gray)]
  | .merge d a b c => [(a, .gray), (b, .gray), (c, .gray), (d, .rgb)]
  | .rgb2hsv d a => [(a, .rgb), (d, .hsv)]
  | .hsv2rgb d a => [(a, .hsv), (d, .rgb)]
  | .matx d a _ => [(a, .rgb), (d, .rgb)]
  | .lut d a f => [(a, f), (d, f)]
  | .conv d a => [(a, .gray), (d, .gray)]
  | .kgauss _ => []
  | .ksobelh => []
  | .ksobelv => []
  | .klapl => []
  | .sobel d a => [(a, .gray), (d, .gray)]
  | .sharpen d a => [(a, .gray), (d, .gray)]
  | .blur d a _ => [(a, .gray), (d, .gray)]
  | .hist a _ => [(a, .gray)]
  | .cum _ => []
  | .equalize d a _ => [(a, .gray), (d, .gray)]
  | .stretch d a _ => [(a, .gray), (d, .gray)]

/-- For a pointwise command, the operand whose size counts and the operands compared with it, in order (R224 step 5). -/
def sizeChecks : Instr → Option (DescId × List DescId)
  | .copy d a _ => some (a, [d])
  | .gray d a => some (a, [d])
  | .split b c d a => some (a, [b, c, d])
  | .merge d a b c => some (a, [b, c, d])
  | .rgb2hsv d a => some (a, [d])
  | .hsv2rgb d a => some (a, [d])
  | .matx d a _ => some (a, [d])
  | .lut d a _ => some (a, [d])
  | .equalize d a _ => some (a, [d])
  | .stretch d a _ => some (a, [d])
  | .nop => none
  | .alloc _ _ => none
  | .conv _ _ => none
  | .kgauss _ => none
  | .ksobelh => none
  | .ksobelv => none
  | .klapl => none
  | .sobel _ _ => none
  | .sharpen _ _ => none
  | .blur _ _ _ => none
  | .hist _ _ => none
  | .cum _ => none

/-- The source operands of a command: all but the destinations (R104). -/
def sourcesOf (i : Instr) : List Operand := (operandsOf i).take ((operandsOf i).length - (destinations i).length)

/-- The pairs of the overlap check in the order of R81: the operand whose number stands in ERRINFO bits 3:0, the one whose
number stands in bits 7:4, and whether an exact alias of the two is allowed (R80, R104). -/
def overlapChecks : Instr → List (Operand × Operand × Bool)
  | .copy d a f => [((a, f), (d, f), true)]
  | .gray d a => [((a, .rgb), (d, .gray), true)]
  | .split b c d a =>
    [((a, .rgb), (b, .gray), true), ((a, .rgb), (c, .gray), true), ((a, .rgb), (d, .gray), true),
     ((b, .gray), (c, .gray), false), ((b, .gray), (d, .gray), false), ((c, .gray), (d, .gray), false)]
  | .merge d a b c => [((a, .gray), (d, .rgb), true), ((b, .gray), (d, .rgb), true), ((c, .gray), (d, .rgb), true)]
  | .rgb2hsv d a => [((a, .rgb), (d, .hsv), true)]
  | .hsv2rgb d a => [((a, .hsv), (d, .rgb), true)]
  | .matx d a _ => [((a, .rgb), (d, .rgb), true)]
  | .lut d a f => [((a, f), (d, f), true)]
  | .conv d a => [((a, .gray), (d, .gray), false)]
  | .sobel d a => [((a, .gray), (d, .gray), false)]
  | .sharpen d a => [((a, .gray), (d, .gray), false)]
  | .blur d a _ => [((a, .gray), (d, .gray), false)]
  | .equalize d a _ => [((a, .gray), (d, .gray), true)]
  | .stretch d a _ => [((a, .gray), (d, .gray), true)]
  | .nop => []
  | .alloc _ _ => []
  | .kgauss _ => []
  | .ksobelh => []
  | .ksobelv => []
  | .klapl => []
  | .hist _ _ => []
  | .cum _ => []

/-- A pair of operands passes the overlap check (R79 to R81). -/
abbrev PairOk (s : State) (c : Operand × Operand × Bool) : Prop := Apart s c.1 c.2.1 ∨ (c.2.2 = true ∧ Alias s c.1 c.2.1)

/-- A neighbourhood command: its destination, its source and its radius at `s` (R104, R172, R183, R185, R186). -/
def neighbourhood (s : State) : Instr → Option (DescId × DescId × Nat)
  | .conv d a => some (d, a, s.kw / 2)
  | .sobel d a => some (d, a, 1)
  | .sharpen d a => some (d, a, 1)
  | .blur d a k => some (d, a, k.toNat / 2)
  | .nop => none
  | .alloc _ _ => none
  | .copy _ _ _ => none
  | .gray _ _ => none
  | .split _ _ _ _ => none
  | .merge _ _ _ _ => none
  | .rgb2hsv _ _ => none
  | .hsv2rgb _ _ => none
  | .matx _ _ _ => none
  | .lut _ _ _ => none
  | .kgauss _ => none
  | .ksobelh => none
  | .ksobelv => none
  | .klapl => none
  | .hist _ _ => none
  | .cum _ => none
  | .equalize _ _ _ => none
  | .stretch _ _ _ => none

/-- The kernel and parameter checks of a neighbourhood command pass: KCHECK for CONV, SCHECK and SIGMA for BLUR (R170,
R176, R178). SOBEL and SHARPEN have none. -/
def KernelOk (s : State) : Instr → Prop
  | .conv _ _ => s.kw = s.kh ∧ s.kw % 2 = 1 ∧ s.kw ≤ s.cfg.kmax
  | .blur _ _ k => k.toNat % 2 = 1 ∧ k.toNat ≤ s.cfg.kmax ∧ s.sigma ≠ 0
  | .sobel _ _ => True
  | .sharpen _ _ => True
  | .nop => True
  | .alloc _ _ => True
  | .copy _ _ _ => True
  | .gray _ _ => True
  | .split _ _ _ _ => True
  | .merge _ _ _ _ => True
  | .rgb2hsv _ _ => True
  | .hsv2rgb _ _ => True
  | .matx _ _ _ => True
  | .lut _ _ _ => True
  | .kgauss _ => True
  | .ksobelh => True
  | .ksobelv => True
  | .klapl => True
  | .hist _ _ => True
  | .cum _ => True
  | .equalize _ _ _ => True
  | .stretch _ _ _ => True

/-- The dimension checks of a command pass (R224 step 5). -/
def SizesOk (s : State) (i : Instr) : Prop :=
  (∀ a ns, sizeChecks i = some (a, ns) → ∀ n ∈ ns, SameSize s a n) ∧
  ∀ d a r, neighbourhood s i = some (d, a, r) → OutputSize s a d r

/-- An outcome of `exec` as the step passes it on: a held access is issued again after the completion (R86). -/
def released : Host.Outcome State Fault Refusal → Host.Outcome State Fault Refusal
  | .next t => .next t.releaseHeld
  | .fault f => .fault f
  | .refused r => .refused r

/-- The rows (match, mask) of spec/opcode_table.json, in its order. -/
def tableRows : List (Word × Word) :=
  [(0x00000000, 0xFFFFFFFF), (0x00000001, 0xFFF07FFF), (0x00000002, 0xFFF07E3F), (0x00000010, 0xFFFC7E3F),
   (0x00000011, 0xFFFC003F), (0x00000012, 0xFFFC003F), (0x00000013, 0xFFFC7E3F), (0x00000014, 0xFFFC7E3F),
   (0x00000015, 0xFFF87E3F), (0x00000016, 0xFFF07E3F), (0x00000020, 0xFFFC7E3F), (0x00000021, 0xFC03FFFF),
   (0x00000022, 0xFFFFFFFF), (0x00000023, 0xFFFFFFFF), (0x00000024, 0xFFFFFFFF), (0x00000025, 0xFFFC7E3F),
   (0x00000026, 0xFFFC7E3F), (0x00000027, 0xFC007E3F), (0x00000030, 0xFC03FE3F), (0x00000031, 0xFC03FFFF),
   (0x00000032, 0xFC007E3F), (0x00000033, 0xFC007E3F)]

/-- The descriptor number in the three bits of a word from bit `lo` on: DA at 6, DB at 9, DC at 12, DD at 15 (R100). -/
def descField (w : Word) (lo : Nat) : DescId := Fin.ofNat 8 (w.toNat / 2 ^ lo)

/-- IMM, the byte of a word from bit 18 on (R100). -/
def immField (w : Word) : Byte := BitVec.ofNat 8 (w.toNat / 2 ^ 18)

/-- The format that FMT = IMM[1:0] names: 0 GRAY, 1 RGB, 2 HSV, 3 YCC (20_memory R73, R103). -/
def formatField (w : Word) : Format :=
  match w.toNat / 2 ^ 18 % 4 with
  | 0 => .gray
  | 1 => .rgb
  | 2 => .hsv
  | _ => .ycc

/-- The command that each row of `tableRows` stands for, in the same order: the operands of R108 taken from the fields of
`w` in which R104 and R108 place them. -/
def tableCommands (w : Word) : List Instr :=
  let da := descField w 6
  let db := descField w 9
  let dc := descField w 12
  let dd := descField w 15
  [.nop, .alloc dd (formatField w), .copy dd da (formatField w), .gray dd da,
   .split db dc dd da, .merge dd da db dc, .rgb2hsv dd da, .hsv2rgb dd da,
   .matx dd da (Fin.ofNat 2 (w.toNat / 2 ^ 18)), .lut dd da (formatField w), .conv dd da, .kgauss (immField w),
   .ksobelh, .ksobelv, .klapl, .sobel dd da,
   .sharpen dd da, .blur dd da (immField w), .hist da (immField w), .cum (immField w),
   .equalize dd da (immField w), .stretch dd da (immField w)]

/-- The words of the reset table of 10_state R38. -/
def matResetHex : List Nat :=
  [0x00048FF8, 0x0008F4F8, 0x0001BD50, 0, 0x0007A065, 0xFFF99D1D, 0xFFFEC27E, 0x07A12000,
   0xFFFD6D44, 0xFFFAF2C4, 0x00079FF8, 0x07A12000, 0x000F4240, 0x00156878, 0, 0xF54BC400,
   0x000F4240, 0xFFF51AF0, 0xFFFAC040, 0x08126800, 0x000F4240, 0, 0x001B0DC8, 0xF2791C00]

/-- The registers, arrays and hidden state of R49, but for the constants and buffer memory. -/
structure ResetValues (t : State) : Prop where
  ctrl : t.ctrl = 0
  status : t.status = 0
  cmd : t.cmd = 0
  errinfo : t.errinfo = 0
  ksize : t.ksize = 0
  sharpk : t.sharpk = 0
  gauss : t.gauss = 0
  allocPtr : t.allocPtr = 0
  descBase : ∀ n, (t.desc.get n).base = 0
  descDim : ∀ n, (t.desc.get n).dim = 0
  mat : ∀ k : Fin 24, (t.mat.get k).toNat = matResetHex.getD k.val 0
  kram : ∀ i, Store.read t.kram i = none
  hist : ∀ i, Store.read t.hist i = none
  cum : ∀ i, Store.read t.cum i = none
  lut : ∀ i, Store.read t.lut i = none
  pending : t.pending = none
  held : t.held = none
  irq : t.irq = false

/-- The next event of the order of R82 is that the host issues `a`, the port is free, and `rest` comes after it. -/
abbrev Issues (s : State) (a : Access) (rest : List Event) : Prop := s.events = .access a :: rest ∧ s.held = none

/-- `s` after the first event was taken and the port has answered `r`, with nothing else changed. -/
def answered (s : State) (rest : List Event) (r : Response) : State :=
  { s with events := rest, responses := r :: s.responses }

/-- The engine's completion step is the next event and `rest` comes after it: it stands first, or nothing else is left, or
the next access waits for the held one (R82, R86, R91; log 3, log 4). -/
def CompletesNext (s : State) (rest : List Event) : Prop :=
  s.events = .complete :: rest ∨ (s.events = [] ∧ rest = []) ∨
  ((∃ a more, s.events = .access a :: more) ∧ s.held.isSome = true ∧ rest = s.events)

/-- What a register or window entry reads after a host write of `v`, for the offsets that store (R31 to R34, R36, R37, R39,
R41 to R43). -/
def storedValue (s : State) (off : Nat) (v : Word) : Word :=
  if off < 0x02C then v &&& 0xFFFF
  else if off = 0x02C then BitVec.ofNat 32 (v.toNat - v.toNat % s.cfg.bufAlign)
  else if off < 0x1000 then v
  else v &&& 0xFF

/-- The word `MAT[b][r][c]`, read at its offset (R37). -/
def matWord (s : State) (b : Bank) (r c : Nat) : Int :=
  match s.readReg (regAt (0x080 + 0x30 * b.val + 0x10 * r + 4 * c)) with
  | .ok w => w.toInt
  | .error _ => 0

/-- `acc` of R150 over `10^6`, for output channel `r` and the input channels `p0`, `p1`, `p2`. -/
def matrixSum (s : State) (b : Bank) (r p0 p1 p2 : Nat) : ℚ :=
  ((matWord s b r 0 * p0 + matWord s b r 1 * p1 + matWord s b r 2 * p2 + matWord s b r 3 : Int) : ℚ) / 1000000

/-- The invariant of the machine: what holds of every state a run from reset reaches. -/
structure Inv (s : State) : Prop where
  /-- The parameters are legal (R7). -/
  params : s.cfg.Legal
  /-- Buffer memory is in canonical form and holds only addresses that exist (R70). -/
  memWf : Memory.wf s.mem
  memBound : ∀ p ∈ s.mem, p.1 < s.cfg.memSize
  /-- Each window is in canonical form and has 256 entries (R39, R41 to R43). -/
  kramWf : Store.Wf s.kram
  kramBound : ∀ p ∈ s.kram, p.1 < 256
  histWf : Store.Wf s.hist
  histBound : ∀ p ∈ s.hist, p.1 < 256
  cumWf : Store.Wf s.cum
  cumBound : ∀ p ∈ s.cum, p.1 < 256
  lutWf : Store.Wf s.lut
  lutBound : ∀ p ∈ s.lut, p.1 < 256
  /-- The reserved fields of CTRL read 0 and BORDER never holds 3 (R25, R26, R35). -/
  ctrlReserved : s.ctrl &&& 0xFFFFFCF0 = 0
  ctrlBorder : bits s.ctrl 1 0 ≠ 3
  /-- The reserved fields of STATUS read 0 and ERRCODE is at most 9 (R27, R221). -/
  statusReserved : s.status &&& 0xFFFFF0F0 = 0
  errcode : s.errcode ≤ 9
  /-- ERRINFO is 0 when the last completion had no error (R222). -/
  errinfo : s.errcode = 0 → s.errinfo = 0
  /-- The reserved fields of KSIZE, SHARPK and GAUSS read 0 (R31 to R33). -/
  ksizeReserved : s.ksize &&& 0xFFFF0000 = 0
  sharpkReserved : s.sharpk &&& 0xFFFF0000 = 0
  gaussReserved : s.gauss &&& 0xFFFF0000 = 0
  /-- The low bits of ALLOC_PTR are hard-wired 0 (R34). -/
  allocAligned : s.allocPtr.toNat % s.cfg.bufAlign = 0
  /-- PENDING exists exactly while BUSY, its word is CMD, and DONE and ERR are 0 meanwhile (R29, R47). -/
  pendingBusy : s.pending.isSome = s.busy
  pendingCmd : ∀ w, s.pending = some w → s.cmd = w
  busyClear : s.busy = true → s.doneBit = false ∧ s.errBit = false
  /-- HELD exists only while BUSY (R47). -/
  heldBusy : s.held.isSome = true → s.busy = true

end Sys2Proof.Safety
end

