-- ==== Sys2Proof/Certificates/Slice0/Obligations.lean ====
section
/-! DEFINITION. The statements about the model, in the order of OBLIGATIONS.json. Each docstring names the rule it states. -/

open Sys2Proof Sys2Proof.Machine Sys2Proof.Safety

/-! ## Encoding -/

/-- Decoding the word of a well-formed command gives that command, whatever its operands (30_encoding R100, R102 to R104). -/
def Obligations.decode_of_encode : Prop := ∀ i : Instr, i.wellFormed = true → decode (encode i) = .ok i

/-- A word that decodes is the word of the command it decodes to, so no bit of it is lost (R100, R105, R106). -/
def Obligations.encode_of_decode : Prop := ∀ (w : Word) (i : Instr), decode w = .ok i → i.wellFormed = true ∧ encode i = w

/-- The words that decode are those that match a row (match, mask) of the opcode table, but for LUT with FMT = 2 (R104,
R106), and such a word decodes to the row's command with its operands from the fields of R104 and R108. -/
def Obligations.decodes_the_opcode_table : Prop :=
  ∀ w : Word,
    let lutHsv : Prop := bits w 5 0 = 0x16 ∧ bits w 19 18 = 2
    ((∃ i, decode w = .ok i) ↔ (∃ row ∈ tableRows, w &&& row.2 = row.1) ∧ ¬lutHsv) ∧
    ∀ r ∈ tableRows.zip (tableCommands w), w &&& r.1.2 = r.1.1 → ¬lutHsv → decode w = .ok r.2

/-- R106: the first of the five conditions that holds gives ERRINFO, and the completion changes nothing but STATUS, ERRINFO
and the PENDING command. The bits that must be 0 are the fixed bits of the word's row of the opcode table. -/
def Obligations.illegal_command_reasons : Prop :=
  ∀ (w : Word) (s : State),
    let illegal (n : Nat) : Prop := ∃ st : Word, bits st 11 8 = 4 ∧
      runCommand w s = .next { s with status := st, errinfo := BitVec.ofNat 32 n, pending := none }
    ((∀ row ∈ tableRows, bits w 5 0 ≠ bits row.1 5 0) → illegal 1) ∧
    ∀ row ∈ tableRows, bits w 5 0 = bits row.1 5 0 →
      (bits w 31 26 ≠ 0 → illegal 2) ∧
      (bits w 31 26 = 0 → w &&& row.2 &&& 0x0003FFC0 ≠ 0 → illegal 3) ∧
      (bits w 31 26 = 0 → w &&& row.2 &&& 0x0003FFC0 = 0 → w &&& row.2 &&& 0x03FC0000 ≠ 0 → illegal 4) ∧
      (w &&& row.2 = row.1 → bits w 5 0 = 0x16 → bits w 19 18 = 2 → illegal 5)

/-- For each row of the opcode table a word that the spec writes out, and the command it stands for (95_test_vectors, and
files 30 and 40 to 43). -/
def Obligations.spec_words_decode : Prop :=
  decode 0x00000000 = .ok .nop ∧ decode 0x00048001 = .ok (.alloc 1 .rgb) ∧ decode 0x00008002 = .ok (.copy 1 0 .gray) ∧
  decode 0x00028110 = .ok (.gray 5 4) ∧ decode 0x00023451 = .ok (.split 2 3 4 1) ∧
  decode 0x0000C692 = .ok (.merge 1 2 3 4) ∧ decode 0x00008013 = .ok (.rgb2hsv 1 0) ∧
  decode 0x00010054 = .ok (.hsv2rgb 2 1) ∧ decode 0x00068055 = .ok (.matx 5 1 1) ∧ decode 0x000C8016 = .ok (.lut 1 0 .ycc) ∧
  decode 0x00008020 = .ok (.conv 1 0) ∧ decode 0x000C0021 = .ok (.kgauss 3) ∧ decode 0x00000022 = .ok .ksobelh ∧
  decode 0x00000023 = .ok .ksobelv ∧ decode 0x00000024 = .ok .klapl ∧ decode 0x00010065 = .ok (.sobel 2 1) ∧
  decode 0x00018066 = .ok (.sharpen 3 1) ∧ decode 0x000C8027 = .ok (.blur 1 0 3) ∧ decode 0x03FC0030 = .ok (.hist 0 255) ∧ decode 0x03FC0031 = .ok (.cum 255) ∧
  decode 0x03FC8032 = .ok (.equalize 1 0 255) ∧ decode 0x000C8033 = .ok (.stretch 1 0 3)

/-! ## The step -/

/-- When the completion step is next and the pending word decodes, the step is `exec` of that command at the state with its
event taken, and then the held access is issued (R86, R89, R220). -/
def Obligations.step_runs_the_decoded_command : Prop :=
  ∀ (s : State) (w : Word) (i : Instr) (rest : List Event),
    CompletesNext s rest → s.pending = some w → decode w = .ok i →
    step s = released (exec i { s with events := rest })

/-- When the completion step is next and the pending word does not decode, the step is the completion update with
IllegalCommand and the reason. With no command pending it does nothing but issue a held access (R105, R106, R238). -/
def Obligations.step_without_a_command : Prop :=
  (∀ (s : State) (w : Word) (e : DecodeError) (rest : List Event),
    CompletesNext s rest → s.pending = some w → decode w = .error e →
    step s = .next (({ s with events := rest }).complete (some (.illegalCommand, e.info))).releaseHeld) ∧
  ∀ (s : State) (rest : List Event), CompletesNext s rest → s.pending = none → s.held = none →
    step s = .next { s with events := rest }

/-! ## Reset and the invariant -/

/-- R49, with the constants of R21 to R24 and the parameters at their defaults. -/
def Obligations.reset_table : Prop :=
  ResetValues State.reset ∧ (∀ addr, Store.read State.reset.mem addr = none) ∧
  State.reset.readReg (regAt 0x000) = .ok 0x5449464F ∧ State.reset.readReg (regAt 0x004) = .ok 0x00000701 ∧
  State.reset.readReg (regAt 0x008) = .ok 0x0000040F ∧ State.reset.readReg (regAt 0x00C) = .ok 0x01000000

/-- The state after reset meets the invariant. -/
def Obligations.reset_meets_inv : Prop := Inv State.reset

/-- Every step keeps the invariant and the parameters: memory and windows stay canonical and in bounds, reserved fields read
0, BORDER is never 3, ALLOC_PTR stays aligned, PENDING exists exactly while BUSY (R26, R35, R46, R47). -/
def Obligations.step_keeps_inv : Prop := ∀ s t : State, Inv s → step s = .next t → Inv t ∧ t.cfg = s.cfg

/-- R260 to R264: what a reset does at any state. -/
def Obligations.reset_event : Prop :=
  ∀ (s : State) (k : ResetKind) (rest : List Event), s.events = .reset k :: rest →
    ∃ t, step s = .next t ∧ ResetValues t ∧ t.cfg = s.cfg ∧ t.events = rest ∧
      t.responses = (if s.held.isSome then [Response.lost] else []) ++ s.responses ∧
      (k = .powerOn → ∀ addr, Store.read t.mem addr = none) ∧
      (k = .warm → s.pending = none → t.mem = s.mem) ∧
      (k = .warm → ∀ w i, s.pending = some w → decode w = .ok i → ∀ addr,
        ((∃ p ∈ destinations i, s.baseOf p.1 ≤ addr ∧ addr < s.baseOf p.1 + s.len p.1 p.2) → Store.read t.mem addr = none) ∧
        ((∀ p ∈ destinations i, addr < s.baseOf p.1 ∨ s.baseOf p.1 + s.len p.1 p.2 ≤ addr) →
          Store.read t.mem addr = Store.read s.mem addr)) ∧
      (k = .warm → ∀ w e, s.pending = some w → decode w = .error e → t.mem = s.mem)

/-! ## The host port -/

/-- R29: a CMD write while idle accepts the command, a CMD write while BUSY is dropped and sets OVERRUN, a read returns the
last accepted word. CMD is 0 after reset. -/
def Obligations.cmd_register : Prop :=
  State.reset.cmd = 0 ∧ ∀ (s : State) (w : Word) (rest : List Event),
    (Issues s (.regWrite 0x018 4 w) rest → s.busy = false →
      ∃ st : Word, step s = .next { answered s rest .done with cmd := w, status := st, pending := some w } ∧
        ∀ i, st.getLsbD i = (i == 0 || (s.status.getLsbD i && i != 1 && i != 2))) ∧
    (Issues s (.regWrite 0x018 4 w) rest → s.busy = true →
      ∃ st : Word, step s = .next { answered s rest .done with status := st } ∧
        ∀ i, st.getLsbD i = (i == 3 || s.status.getLsbD i)) ∧
    (Issues s (.regRead 0x018 4) rest → step s = .next (answered s rest (.value s.cmd)))

/-- R28: a STATUS write clears DONE, ERR and OVERRUN where `v` has a 1 and changes nothing else, busy or not. -/
def Obligations.status_write : Prop :=
  ∀ (s : State) (v : Word) (rest : List Event), Issues s (.regWrite 0x014 4 v) rest →
    ∃ st : Word, step s = .next { answered s rest .done with status := st } ∧
      ∀ i, st.getLsbD i = (s.status.getLsbD i && !((i == 1 || i == 2 || i == 3) && v.getLsbD i))

/-- R26, with the reserved fields of R25: a CTRL write of BORDER = 3 leaves BORDER as it was. -/
def Obligations.ctrl_write : Prop :=
  ∀ (s : State) (v : Word) (rest : List Event), Issues s (.regWrite 0x010 4 v) rest → s.busy = false →
    ∃ c : Word, step s = .next { answered s rest .done with ctrl := c } ∧
      bits c 1 0 = (if bits v 1 0 = 3 then bits s.ctrl 1 0 else bits v 1 0) ∧
      (∀ i, 2 ≤ i → c.getLsbD i = ((i == 2 || i == 3 || i == 8 || i == 9) && v.getLsbD i)) ∧
      (bits s.ctrl 1 0 ≠ 3 → bits c 1 0 ≠ 3)

/-- A host write while idle to a register or window entry that stores: that offset then reads the stored value, every other
offset and buffer memory read as before. To a read-only or reserved offset: nothing changes (R30 to R37, R39, R41 to
R43). -/
def Obligations.host_register_write : Prop :=
  ∀ (s : State) (off : Nat) (v : Word) (rest : List Event), Issues s (.regWrite off 4 v) rest → s.busy = false →
    off % 4 = 0 → off < 0x2000 →
    ((0x020 ≤ off ∧ off < 0x030 ∨ 0x040 ≤ off ∧ off < 0x0E0 ∨ 0x400 ≤ off ∧ off < 0x1400) →
      ∃ t, step s = .next t ∧ t.readReg (regAt off) = .ok (storedValue s off v) ∧
        (∀ o, o % 4 = 0 → o < 0x2000 → o ≠ off → t.readReg (regAt o) = s.readReg (regAt o)) ∧
        t.cfg = s.cfg ∧ t.mem = s.mem ∧ t.pending = s.pending ∧ t.held = none ∧ t.events = rest ∧
        t.responses = .done :: s.responses) ∧
    ((off < 0x010 ∨ off = 0x01C ∨ 0x030 ≤ off ∧ off < 0x040 ∨ 0x0E0 ≤ off ∧ off < 0x400 ∨ 0x1400 ≤ off) →
      step s = .next (answered s rest .done))

/-- What each offset reads (the map of R20, with R21 to R24, R35 to R37, R39, R41 to R43), and that a read answers it and
changes nothing else (R83, R85). -/
def Obligations.host_register_read : Prop :=
  (∀ (s : State) (off : Nat) (v : Word) (rest : List Event), Issues s (.regRead off 4) rest → off % 4 = 0 → off < 0x2000 →
    (s.busy = false ∨ off < 0x400 ∨ 0x1400 ≤ off) → s.readReg (regAt off) = .ok v →
    step s = .next (answered s rest (.value v))) ∧
  ∀ s : State, s.cfg.Legal →
    s.readReg (regAt 0x000) = .ok 0x5449464F ∧ s.readReg (regAt 0x004) = .ok 0x00000701 ∧
    (∃ caps, s.readReg (regAt 0x008) = .ok caps ∧ bits caps 7 0 = s.cfg.kmax ∧ 2 ^ bits caps 11 8 = s.cfg.bufAlign ∧
      bits caps 31 12 = 0) ∧
    (∃ size, s.readReg (regAt 0x00C) = .ok size ∧ size.toNat = s.cfg.memSize) ∧
    s.readReg (regAt 0x010) = .ok s.ctrl ∧ s.readReg (regAt 0x014) = .ok s.status ∧
    s.readReg (regAt 0x018) = .ok s.cmd ∧ s.readReg (regAt 0x01C) = .ok s.errinfo ∧
    s.readReg (regAt 0x020) = .ok s.ksize ∧ s.readReg (regAt 0x024) = .ok s.sharpk ∧
    s.readReg (regAt 0x028) = .ok s.gauss ∧ s.readReg (regAt 0x02C) = .ok s.allocPtr ∧
    (∀ n : DescId, s.readReg (regAt (0x040 + 8 * n.val)) = .ok (s.desc.get n).base ∧
      s.readReg (regAt (0x044 + 8 * n.val)) = .ok (s.desc.get n).dim) ∧
    (∀ k : Fin 24, s.readReg (regAt (0x080 + 4 * k.val)) = .ok (s.mat.get k)) ∧
    (∀ i, i < 256 → ∀ v, (Store.read s.kram i = some v → s.readReg (regAt (0x400 + 4 * i)) = .ok v) ∧
      (Store.read s.hist i = some v → s.readReg (regAt (0x800 + 4 * i)) = .ok v) ∧
      (Store.read s.cum i = some v → s.readReg (regAt (0xC00 + 4 * i)) = .ok v)) ∧
    (∀ i, i < 256 → ∀ b, Store.read s.lut i = some b →
      ∃ v, s.readReg (regAt (0x1000 + 4 * i)) = .ok v ∧ v.toNat = b.toNat) ∧
    ∀ off, off % 4 = 0 → off < 0x2000 → (0x030 ≤ off ∧ off < 0x040 ∨ 0x0E0 ≤ off ∧ off < 0x400 ∨ 0x1400 ≤ off) →
      s.readReg (regAt off) = .ok 0

/-- R86: which accesses complete at once while BUSY, that every other one is held, and that the held access is issued right
after the completion step, at the state after it. -/
def Obligations.hold_rule : Prop :=
  (∀ (s : State) (rest : List Event), s.busy = true →
    (∀ off v, off % 4 = 0 → off < 0x400 ∨ 0x1400 ≤ off ∧ off < 0x2000 → Issues s (.regRead off 4) rest →
      s.readReg (regAt off) = .ok v → step s = .next (answered s rest (.value v))) ∧
    (∀ off v, off = 0x014 ∨ off = 0x018 → Issues s (.regWrite off 4 v) rest →
      ∃ st, step s = .next { answered s rest .done with status := st }) ∧
    (∀ off, off % 4 = 0 → 0x400 ≤ off → off < 0x1400 → Issues s (.regRead off 4) rest →
      step s = .next { s with events := rest, held := some (.regRead off 4) }) ∧
    (∀ off v, off % 4 = 0 → off < 0x2000 → off ≠ 0x014 → off ≠ 0x018 → Issues s (.regWrite off 4 v) rest →
      step s = .next { s with events := rest, held := some (.regWrite off 4 v) }) ∧
    (∀ addr n, n = 1 ∨ n = 2 ∨ n = 4 → addr % n = 0 →
      (Issues s (.memRead addr n) rest → step s = .next { s with events := rest, held := some (.memRead addr n) }) ∧
      ∀ v, Issues s (.memWrite addr n v) rest → step s = .next { s with events := rest, held := some (.memWrite addr n v) })) ∧
  ∀ (s u : State) (a : Access) (w : Word) (rest : List Event), CompletesNext s rest → s.held = some a →
    s.pending = some w → runCommand w { s with events := rest } = .next u →
    ∃ v, step s = .next v ∧ v = { u with held := none, events := .access a :: rest } ∧ Issues v a rest ∧ v.busy = false

/-- R87: aligned host accesses of 1, 2 or 4 bytes to buffer memory while idle, little-endian, inside it or wholly above it. An access that is not
admitted is refused. -/
def Obligations.host_memory_access : Prop :=
  (∀ (s : State) (addr n : Nat) (rest : List Event), s.busy = false → n = 1 ∨ n = 2 ∨ n = 4 → addr % n = 0 →
    (∀ v, Issues s (.memWrite addr n v) rest → addr + n ≤ s.cfg.memSize →
      ∃ t, step s = .next t ∧ t = { answered s rest .done with mem := t.mem } ∧
        (∀ k, k < n → Store.read t.mem (addr + k) = some (BitVec.ofNat 8 (v.toNat / 256 ^ k))) ∧
        ∀ x, x < addr ∨ addr + n ≤ x → Store.read t.mem x = Store.read s.mem x) ∧
    (∀ b : Nat → Byte, Issues s (.memRead addr n) rest → addr + n ≤ s.cfg.memSize →
      (∀ k, k < n → Store.read s.mem (addr + k) = some (b k)) →
      step s = .next (answered s rest (.value (BitVec.ofNat 32 (∑ k ∈ Finset.range n, (b k).toNat * 256 ^ k))))) ∧
    (s.cfg.memSize ≤ addr → (Issues s (.memRead addr n) rest → step s = .next (answered s rest (.value 0))) ∧
      ∀ v, Issues s (.memWrite addr n v) rest → step s = .next (answered s rest .done)) ∧
    (s.cfg.Legal → addr + n ≤ s.cfg.memSize ∨ s.cfg.memSize ≤ addr)) ∧
  ∀ (s : State) (addr n : Nat) (rest : List Event), ¬((n = 1 ∨ n = 2 ∨ n = 4) ∧ addr % n = 0) →
    (Issues s (.memRead addr n) rest → step s = .refused .memoryAccessNotAdmitted) ∧
    ∀ v, Issues s (.memWrite addr n v) rest → step s = .refused .memoryAccessNotAdmitted

/-- A register-space access that is not an aligned 32-bit access below 0x2000 is refused, busy or not (R85). -/
def Obligations.register_access_not_admitted : Prop :=
  ∀ (s : State) (off n : Nat) (rest : List Event), n ≠ 4 ∨ off % 4 ≠ 0 ∨ 0x2000 ≤ off →
    (Issues s (.regRead off n) rest → step s = .refused .registerAccessNotAdmitted) ∧
    ∀ v, Issues s (.regWrite off n v) rest → step s = .refused .registerAccessNotAdmitted

/-- A host read, while idle, of a window entry or a byte that nothing has written is a fault of the model (R265). -/
def Obligations.unwritten_host_read_faults : Prop :=
  ∀ (s : State) (rest : List Event), s.busy = false →
    (∀ i, i < 256 →
      (Issues s (.regRead (0x400 + 4 * i) 4) rest → Store.read s.kram i = none → step s = .fault .unwrittenKram) ∧
      (Issues s (.regRead (0x800 + 4 * i) 4) rest → Store.read s.hist i = none → step s = .fault .unwrittenHist) ∧
      (Issues s (.regRead (0xC00 + 4 * i) 4) rest → Store.read s.cum i = none → step s = .fault .unwrittenCum) ∧
      (Issues s (.regRead (0x1000 + 4 * i) 4) rest → Store.read s.lut i = none → step s = .fault .unwrittenLut)) ∧
    ∀ addr n k, n = 1 ∨ n = 2 ∨ n = 4 → addr % n = 0 → addr + n ≤ s.cfg.memSize → Issues s (.memRead addr n) rest →
      k < n → Store.read s.mem (addr + k) = none → step s = .fault .unwrittenMemory

/-- R44: IRQ is (DONE and IE_DONE) or (ERR and IE_ERR) of STATUS and CTRL as they stand. A STATUS write that clears DONE and
ERR lowers it, and so does an acceptance. -/
def Obligations.interrupt_output : Prop :=
  (∀ s : State, s.irq = ((s.status.getLsbD 1 && s.ctrl.getLsbD 8) || (s.status.getLsbD 2 && s.ctrl.getLsbD 9))) ∧
  (∀ (s : State) (v : Word) (rest : List Event), Issues s (.regWrite 0x014 4 v) rest → v.getLsbD 1 = true →
    v.getLsbD 2 = true → ∃ t, step s = .next t ∧ t.irq = false) ∧
  ∀ (s : State) (w : Word) (rest : List Event), Issues s (.regWrite 0x018 4 w) rest → s.busy = false →
    ∃ t, step s = .next t ∧ t.irq = false

/-! ## Completion and errors -/

/-- R222: the completion update, whatever the command word was. -/
def Obligations.completion_update : Prop :=
  ∀ (w : Word) (s t : State), runCommand w s = .next t →
    t.busy = false ∧ t.doneBit = true ∧ t.overrun = s.overrun ∧ t.pending = none ∧ t.errcode ≤ 9 ∧
    bits t.status 7 4 = bits s.status 7 4 ∧ bits t.status 31 12 = bits s.status 31 12 ∧
    (t.errcode = 0 → t.errinfo = 0 ∧ t.errBit = s.errBit) ∧ (t.errcode ≠ 0 → t.errBit = true)

/-- R223: a command that ends in an error changes nothing but STATUS, ERRINFO and PENDING. -/
def Obligations.errors_are_precise : Prop :=
  ∀ (w : Word) (s t : State), runCommand w s = .next t → t.errcode ≠ 0 →
    t = { s with status := t.status, errinfo := t.errinfo, pending := none }

/-- A command changes no byte of memory outside the extents of its destinations (R77). -/
def Obligations.commands_write_only_destinations : Prop :=
  ∀ (i : Instr) (s t : State), exec i s = .next t →
    ∀ addr, (∀ p ∈ destinations i, addr < s.baseOf p.1 ∨ s.baseOf p.1 + s.len p.1 p.2 ≤ addr) →
      Store.read t.mem addr = Store.read s.mem addr

/-- What no command changes, and which commands change what: only ALLOC the BASE it fills and ALLOC_PTR (R36), only the
kernel builders and BLUR the kernel (R31), only HIST the histogram, CUM and EQUALIZE the cumulative one, EQUALIZE the
look-up table (R200 to R202). -/
def Obligations.commands_leave_control_state : Prop :=
  ∀ (i : Instr) (s t : State), exec i s = .next t →
    (t.cfg = s.cfg ∧ t.ctrl = s.ctrl ∧ t.cmd = s.cmd ∧ t.sharpk = s.sharpk ∧ t.gauss = s.gauss ∧ t.mat = s.mat ∧
      t.held = s.held ∧ t.events = s.events ∧ t.responses = s.responses) ∧
    (∀ n, (t.desc.get n).dim = (s.desc.get n).dim) ∧
    ((∀ d f, i ≠ .alloc d f) → t.desc = s.desc ∧ t.allocPtr = s.allocPtr) ∧
    (∀ d f, i = .alloc d f → ∀ n, n ≠ d → t.desc.get n = s.desc.get n) ∧
    (i.opcode ∉ [Opcode.kgauss, .ksobelh, .ksobelv, .klapl, .blur] → t.kram = s.kram ∧ t.ksize = s.ksize) ∧
    (i.opcode ≠ .hist → t.hist = s.hist) ∧ (i.opcode ∉ [Opcode.cum, .equalize] → t.cum = s.cum) ∧
    (i.opcode ≠ .equalize → t.lut = s.lut) ∧ (destinations i = [] → t.mem = s.mem)

/-- Every accepted command completes when everything it could read has been written (R105, R223, R272). -/
def Obligations.every_command_completes : Prop :=
  ∀ (s : State) (w : Word) (rest : List Event), s.cfg.Legal → CompletesNext s rest → s.pending = some w →
    (∀ addr, addr < s.cfg.memSize → (Store.read s.mem addr).isSome = true) → Filled s.kram 256 → Filled s.hist 256 →
    Filled s.lut 256 → ∃ t, step s = .next t ∧ t.busy = false ∧ t.pending = none ∧ t.held = none

/-- A command that completes without error has read only what was written: the source extents (of SOBEL and SHARPEN, whose
neighbourhoods may leave pixels out, every sample they take inside the source), the kernel, the counts and the table
entries of R265. -/
def Obligations.written_before_read : Prop :=
  ∀ (i : Instr) (s t : State), exec i s = .next t → t.errcode = 0 →
    (i.opcode ∉ [Opcode.sobel, .sharpen] → ∀ p ∈ sourcesOf i, Readable s p.1 p.2) ∧
    (∀ d a, i = .sobel d a → SamplesWritten s d a sobelOffsets) ∧
    (∀ d a, i = .sharpen d a → SamplesWritten s d a sharpenOffsets) ∧
    (i.opcode = .conv → Filled s.kram (s.kw * s.kw)) ∧
    (∀ l, (i = .cum l ∨ (∃ d a, i = .equalize d a l) ∨ ∃ d a, i = .stretch d a l) → Filled s.hist (l.toNat + 1)) ∧
    ∀ d a f, i = .lut d a f → ∀ k, k < s.len a f → (Store.read s.lut (byteAt s (s.baseOf a + k))).isSome = true

/-- R76: the descriptor checks run in operand order and the first failure is reported, alignment first. -/
def Obligations.descriptor_errors : Prop :=
  ∀ (i : Instr) (s : State) (before after : List Operand) (p : Operand), i.wellFormed = true →
    operandsOf i = before ++ p :: after → (∀ q ∈ before, DescOk s q.1 q.2) →
    (s.baseOf p.1 % s.cfg.bufAlign ≠ 0 → Fails i s .misaligned p.1.val) ∧
    (s.baseOf p.1 % s.cfg.bufAlign = 0 →
      (s.widthOf p.1 = 0 ∨ s.heightOf p.1 = 0 ∨ s.cfg.memSize < s.baseOf p.1 + s.len p.1 p.2) →
      Fails i s .badDescriptor p.1.val)

/-- The dimension checks of the pointwise commands, in operand order, and DIMCHECK of the neighbourhood commands, after the
descriptor, kernel and parameter checks (R171, R224). -/
def Obligations.size_errors : Prop :=
  ∀ (i : Instr) (s : State), i.wellFormed = true → (∀ q ∈ operandsOf i, DescOk s q.1 q.2) → KernelOk s i →
    (∀ a before n after, sizeChecks i = some (a, before ++ n :: after) → (∀ m ∈ before, SameSize s a m) →
      ¬SameSize s a n → Fails i s .badDescriptor (0x10 + n.val)) ∧
    ∀ d a r, neighbourhood s i = some (d, a, r) → ¬OutputSize s a d r → Fails i s .badDescriptor (0x10 + d.val)

/-- R81: after the other checks, the first pair that overlaps where R80 forbids it is reported. -/
def Obligations.overlap_errors : Prop :=
  ∀ (i : Instr) (s : State) (before after : List (Operand × Operand × Bool)) (c : Operand × Operand × Bool),
    i.wellFormed = true → (∀ q ∈ operandsOf i, DescOk s q.1 q.2) → KernelOk s i → SizesOk s i →
    overlapChecks i = before ++ c :: after → (∀ b ∈ before, PairOk s b) → ¬PairOk s c →
    Fails i s .overlap (c.1.1.val + c.2.1.1.val * 2 ^ 4)

/-- R170 and R176: the kernel checks of CONV, KGAUSS and BLUR, and after them the check of GAUSS.SIGMA (R178, R186). -/
def Obligations.kernel_errors : Prop :=
  (∀ (s : State) (d a : DescId), DescOk s a .gray → DescOk s d .gray →
    (s.kw ≠ s.kh ∨ s.kw % 2 = 0 ∨ s.cfg.kmax < s.kw) → Fails (.conv d a) s .invalidKernel (s.kw + s.kh * 2 ^ 8)) ∧
  (∀ (s : State) (k : Byte), (k.toNat % 2 = 0 ∨ s.cfg.kmax < k.toNat) → Fails (.kgauss k) s .invalidKernel k.toNat) ∧
  (∀ (s : State) (k : Byte), k.toNat % 2 = 1 → k.toNat ≤ s.cfg.kmax → s.sigma = 0 →
    Fails (.kgauss k) s .invalidParameter 0) ∧
  ∀ (s : State) (d a : DescId) (k : Byte), DescOk s a .gray → DescOk s d .gray →
    ((k.toNat % 2 = 0 ∨ s.cfg.kmax < k.toNat) → Fails (.blur d a k) s .invalidKernel k.toNat) ∧
    (k.toNat % 2 = 1 → k.toNat ≤ s.cfg.kmax → s.sigma = 0 → Fails (.blur d a k) s .invalidParameter 0)

/-! ## Buffer model -/

/-- R130: the word of NOP, that no other word with its opcode decodes, and that NOP is the completion update and nothing
else: BUSY and ERRCODE become 0, DONE becomes 1, ERRINFO becomes 0. -/
def Obligations.nop_completes : Prop :=
  decode 0x00000000 = .ok .nop ∧ (∀ w : Word, bits w 5 0 = 0 → w ≠ 0 → ∃ e, decode w = .error e) ∧
  ∀ s : State, ∃ st : Word, exec .nop s = .next { s with status := st, errinfo := 0, pending := none } ∧
    ∀ i, st.getLsbD i = (i == 1 || (s.status.getLsbD i && i != 0 && !(8 ≤ i && i ≤ 11)))

/-- R131: ALLOC gives the descriptor the old ALLOC_PTR and advances ALLOC_PTR by the allocation length, or fails with no
effect. -/
def Obligations.alloc_places_a_buffer : Prop :=
  ∀ (s : State) (d : DescId) (f : Format), s.cfg.Legal →
    let size := (s.widthOf d * s.heightOf d * s.bpp f + s.cfg.bufAlign - 1) / s.cfg.bufAlign * s.cfg.bufAlign
    ((s.widthOf d = 0 ∨ s.heightOf d = 0) → Fails (.alloc d f) s .badDescriptor d.val) ∧
    (0 < s.widthOf d → 0 < s.heightOf d → s.cfg.memSize < s.allocPtr.toNat + size →
      Fails (.alloc d f) s .allocation (min size 0xFFFFFFFF)) ∧
    (0 < s.widthOf d → 0 < s.heightOf d → s.allocPtr.toNat + size ≤ s.cfg.memSize →
      ∃ t, exec (.alloc d f) s = .next t ∧ t = { s.complete none with desc := t.desc, allocPtr := t.allocPtr } ∧
        t.baseOf d = s.allocPtr.toNat ∧ (t.desc.get d).dim = (s.desc.get d).dim ∧
        (∀ n, n ≠ d → t.desc.get n = s.desc.get n) ∧ t.allocPtr.toNat = s.allocPtr.toNat + size ∧
        (s.allocPtr.toNat % s.cfg.bufAlign = 0 →
          t.baseOf d % s.cfg.bufAlign = 0 ∧ t.allocPtr.toNat % s.cfg.bufAlign = 0))

/-- COPY (R132). -/
def Obligations.copy_copies_the_extent : Prop :=
  ∀ (s : State) (d a : DescId) (f : Format), PointwiseReady s (d, f) (a, f) →
    ∃ t, exec (.copy d a f) s = .next t ∧ OnlyMemory s t ∧ MemOutside s t d f ∧
      ∀ k, k < s.len a f → Store.read t.mem (s.baseOf d + k) = Store.read s.mem (s.baseOf a + k)

/-! ## Colour-space converter -/

/-- GRAY (R140). -/
def Obligations.gray_averages : Prop :=
  ∀ (s : State) (d a : DescId), PointwiseReady s (d, .gray) (a, .rgb) →
    ∃ t, exec (.gray d a) s = .next t ∧ OnlyMemory s t ∧ MemOutside s t d .gray ∧
      ∀ x y, x < s.widthOf a → y < s.heightOf a → Store.read t.mem (s.paddr d .gray x y 0) =
        some (BitVec.ofNat 8 ((pixelAt s a .rgb x y 0 + pixelAt s a .rgb x y 1 + pixelAt s a .rgb x y 2) / 3))

/-- SPLIT (R141). -/
def Obligations.split_separates_the_planes : Prop :=
  ∀ (s : State) (b c d a : DescId), PointwiseReady s (b, .gray) (a, .rgb) → PointwiseReady s (c, .gray) (a, .rgb) →
    PointwiseReady s (d, .gray) (a, .rgb) → Apart s (b, .gray) (c, .gray) → Apart s (b, .gray) (d, .gray) →
    Apart s (c, .gray) (d, .gray) →
    ∃ t, exec (.split b c d a) s = .next t ∧ OnlyMemory s t ∧
      (∀ addr, (∀ n ∈ [b, c, d], addr < s.baseOf n ∨ s.baseOf n + s.len n .gray ≤ addr) →
        Store.read t.mem addr = Store.read s.mem addr) ∧
      ∀ x y, x < s.widthOf a → y < s.heightOf a →
        Store.read t.mem (s.paddr b .gray x y 0) = some (BitVec.ofNat 8 (pixelAt s a .rgb x y 0)) ∧
        Store.read t.mem (s.paddr c .gray x y 0) = some (BitVec.ofNat 8 (pixelAt s a .rgb x y 1)) ∧
        Store.read t.mem (s.paddr d .gray x y 0) = some (BitVec.ofNat 8 (pixelAt s a .rgb x y 2))

/-- MERGE (R142). -/
def Obligations.merge_interleaves_the_planes : Prop :=
  ∀ (s : State) (d a b c : DescId), PointwiseReady s (d, .rgb) (a, .gray) → PointwiseReady s (d, .rgb) (b, .gray) →
    PointwiseReady s (d, .rgb) (c, .gray) →
    ∃ t, exec (.merge d a b c) s = .next t ∧ OnlyMemory s t ∧ MemOutside s t d .rgb ∧
      ∀ x y, x < s.widthOf a → y < s.heightOf a →
        Store.read t.mem (s.paddr d .rgb x y 0) = some (BitVec.ofNat 8 (pixelAt s a .gray x y 0)) ∧
        Store.read t.mem (s.paddr d .rgb x y 1) = some (BitVec.ofNat 8 (pixelAt s b .gray x y 0)) ∧
        Store.read t.mem (s.paddr d .rgb x y 2) = some (BitVec.ofNat 8 (pixelAt s c .gray x y 0))

/-- SPLIT is lossless: MERGE of the three planes into a buffer `e`, which may be `a` itself, gives the source bytes again
(R141, R142). -/
def Obligations.merge_after_split_restores : Prop :=
  ∀ (s : State) (b c d a e : DescId), PointwiseReady s (b, .gray) (a, .rgb) → PointwiseReady s (c, .gray) (a, .rgb) →
    PointwiseReady s (d, .gray) (a, .rgb) → Apart s (b, .gray) (c, .gray) → Apart s (b, .gray) (d, .gray) →
    Apart s (c, .gray) (d, .gray) → DescOk s e .rgb → SameSize s a e → PointwiseOk s (e, .rgb) (b, .gray) →
    PointwiseOk s (e, .rgb) (c, .gray) → PointwiseOk s (e, .rgb) (d, .gray) →
    ∃ t u, exec (.split b c d a) s = .next t ∧ exec (.merge e b c d) t = .next u ∧
      ∀ k, k < s.len a .rgb → Store.read u.mem (s.baseOf e + k) = Store.read s.mem (s.baseOf a + k)

/-- RGB2HSV (R146): the stored bytes in both layouts of R145, and in PACKED layout the domain check. -/
def Obligations.rgb2hsv_converts : Prop :=
  ∀ (s : State) (d a : DescId), PointwiseReady s (d, .hsv) (a, .rgb) →
    let hsv (x y : Nat) := hsvForward (pixelAt s a .rgb x y 0) (pixelAt s a .rgb x y 1) (pixelAt s a .rgb x y 2)
    let hueOfIndex (i : Nat) := (hsv (i % s.widthOf a) (i / s.widthOf a)).1
    ((s.packed = true → ∀ i, i < s.widthOf a * s.heightOf a → hueOfIndex i ≤ 255) →
      ∃ t, exec (.rgb2hsv d a) s = .next t ∧ OnlyMemory s t ∧ MemOutside s t d .hsv ∧
        ∀ x y, x < s.widthOf a → y < s.heightOf a →
          (s.packed = false →
            Store.read t.mem (s.paddr d .hsv x y 0) = some (BitVec.ofNat 8 ((hsv x y).1 % 256)) ∧
            Store.read t.mem (s.paddr d .hsv x y 1) = some (BitVec.ofNat 8 ((hsv x y).1 / 256)) ∧
            Store.read t.mem (s.paddr d .hsv x y 2) = some (BitVec.ofNat 8 (hsv x y).2.1) ∧
            Store.read t.mem (s.paddr d .hsv x y 3) = some (BitVec.ofNat 8 (hsv x y).2.2)) ∧
          (s.packed = true →
            Store.read t.mem (s.paddr d .hsv x y 0) = some (BitVec.ofNat 8 (hsv x y).1) ∧
            Store.read t.mem (s.paddr d .hsv x y 1) = some (BitVec.ofNat 8 (hsv x y).2.1) ∧
            Store.read t.mem (s.paddr d .hsv x y 2) = some (BitVec.ofNat 8 (hsv x y).2.2))) ∧
    ∀ i, s.packed = true → i < s.widthOf a * s.heightOf a → (∀ j, j < i → hueOfIndex j ≤ 255) → 255 < hueOfIndex i →
      Fails (.rgb2hsv d a) s .domainRange i

/-- The forward HSV function over the rationals, as R143 states it, and the ranges of its results. The hue expressions, the
order of a tie of the maximum and the hue 0 of a grey are what R143 marks as the spec's own or from general knowledge
(log 16). -/
def Obligations.hsv_forward_function : Prop :=
  ∀ r g b : Nat, r < 256 → g < 256 → b < 256 →
    let top := max r (max g b)
    let low := min r (min g b)
    let hsv := hsvForward r g b
    RoundsHalfAway (100 * (top : ℚ) / 255) hsv.2.2 ∧
    (top = 0 → hsv.2.1 = 0) ∧ (0 < top → RoundsHalfAway (100 * ((top : ℚ) - low) / top) hsv.2.1) ∧
    (top = low → hsv.1 = 0) ∧
    (low < top → ∃ n : Nat, RoundsHalfAway (hueDegrees r g b) n ∧ hsv.1 = if n = 360 then 0 else n) ∧
    hsv.1 < 360 ∧ hsv.2.1 ≤ 100 ∧ hsv.2.2 ≤ 100

/-- R144: the inverse HSV function over the rationals. The clamp never takes effect: the rounded values are bytes. -/
def Obligations.hsv_inverse_function : Prop :=
  ∀ h sat v : Nat, h ≤ 360 → sat ≤ 100 → v ≤ 100 →
    let c : ℚ := (v : ℚ) / 100 * (sat / 100)
    let x : ℚ := c * (1 - |((h % 120 : Nat) : ℚ) / 60 - 1|)
    let m : ℚ := (v : ℚ) / 100 - c
    let rgb := sectorTriple (h / 60 % 6) c x
    let out := hsvInverse h sat v
    (∃ n : Int, RoundsHalfAway (255 * (rgb.1 + m)) n ∧ 0 ≤ n ∧ n ≤ 255 ∧ (out.1 : Int) = n) ∧
    (∃ n : Int, RoundsHalfAway (255 * (rgb.2.1 + m)) n ∧ 0 ≤ n ∧ n ≤ 255 ∧ (out.2.1 : Int) = n) ∧
    ∃ n : Int, RoundsHalfAway (255 * (rgb.2.2 + m)) n ∧ 0 ≤ n ∧ n ≤ 255 ∧ (out.2.2 : Int) = n

/-- HSV2RGB (R148): the stored values are clamped, then inverted. -/
def Obligations.hsv2rgb_converts : Prop :=
  ∀ (s : State) (d a : DescId), PointwiseReady s (d, .rgb) (a, .hsv) →
    let hue (x y : Nat) := if s.packed then pixelAt s a .hsv x y 0
      else pixelAt s a .hsv x y 0 + 256 * pixelAt s a .hsv x y 1
    let o := if s.packed then 1 else 2
    let rgb (x y : Nat) := hsvInverse (min (hue x y) 360) (min (pixelAt s a .hsv x y o) 100)
      (min (pixelAt s a .hsv x y (o + 1)) 100)
    ∃ t, exec (.hsv2rgb d a) s = .next t ∧ OnlyMemory s t ∧ MemOutside s t d .rgb ∧
      ∀ x y, x < s.widthOf a → y < s.heightOf a →
        Store.read t.mem (s.paddr d .rgb x y 0) = some (BitVec.ofNat 8 (rgb x y).1) ∧
        Store.read t.mem (s.paddr d .rgb x y 1) = some (BitVec.ofNat 8 (rgb x y).2.1) ∧
        Store.read t.mem (s.paddr d .rgb x y 2) = some (BitVec.ofNat 8 (rgb x y).2.2)

/-- MATX (R150), with the matrix read at its offsets (R37). -/
def Obligations.matx_multiplies : Prop :=
  ∀ (s : State) (d a : DescId) (bank : Bank), PointwiseReady s (d, .rgb) (a, .rgb) →
    ∃ t, exec (.matx d a bank) s = .next t ∧ OnlyMemory s t ∧ MemOutside s t d .rgb ∧
      ∀ x y r, x < s.widthOf a → y < s.heightOf a → r < 3 →
        ∃ n, RoundsHalfAway (matrixSum s bank r (pixelAt s a .rgb x y 0) (pixelAt s a .rgb x y 1) (pixelAt s a .rgb x y 2)) n ∧
          Store.read t.mem (s.paddr d .rgb x y r) = some (saturate n)

/-- R151: with the reset matrices, MATX computes the luma/chroma transform (bank 0) and its inverse (bank 1). -/
def Obligations.reset_matrices_are_luma_chroma : Prop :=
  ∀ (s : State) (p0 p1 p2 : Nat), s.mat = resetMat →
    let luma : ℚ := 299 / 1000 * p0 + 587 / 1000 * p1 + 114 / 1000 * p2
    matrixSum s 0 0 p0 p1 p2 = luma ∧
    matrixSum s 0 1 p0 p1 p2 = 713 / 1000 * (p0 - luma) + 128 ∧
    matrixSum s 0 2 p0 p1 p2 = 564 / 1000 * (p2 - luma) + 128 ∧
    matrixSum s 1 0 p0 p1 p2 = p0 + 1403 / 1000 * ((p1 : ℚ) - 128) ∧
    matrixSum s 1 1 p0 p1 p2 = p0 - 714 / 1000 * ((p1 : ℚ) - 128) - 344 / 1000 * ((p2 : ℚ) - 128) ∧
    matrixSum s 1 2 p0 p1 p2 = p0 + 1773 / 1000 * ((p2 : ℚ) - 128)

/-- LUT (R152), for the formats that decode. -/
def Obligations.lut_maps_every_byte : Prop :=
  ∀ (s : State) (d a : DescId) (f : Format), f ≠ .hsv → PointwiseReady s (d, f) (a, f) →
    (∀ k, k < s.len a f → (Store.read s.lut (byteAt s (s.baseOf a + k))).isSome = true) →
    ∃ t, exec (.lut d a f) s = .next t ∧ OnlyMemory s t ∧ MemOutside s t d f ∧
      ∀ k, k < s.len a f → Store.read t.mem (s.baseOf d + k) = Store.read s.lut (byteAt s (s.baseOf a + k))

/-! ## Convolution engine -/

/-- CONV (R172): the correlation with the kernel in KRAM, under every border policy of R171. -/
def Obligations.conv_correlates : Prop :=
  ∀ (s : State) (d a : DescId), KernelOk s (.conv d a) → NeighbourReady s d a (s.kw / 2) →
    Filled s.kram (s.kw * s.kw) →
    ∃ t, exec (.conv d a) s = .next t ∧ OnlyMemory s t ∧ MemOutside s t d .gray ∧
      ∀ x y, x < s.widthOf d → y < s.heightOf d →
        ∃ n, RoundsHalfAway ((weightedSum s s.kram a s.kw x y : ℚ) / 65536) n ∧
          Store.read t.mem (s.paddr d .gray x y 0) = some (saturate n)

/-- R174: CONV with the 1x1 kernel of weight 1 copies its source under every border policy. -/
def Obligations.conv_identity : Prop :=
  ∀ (s : State) (d a : DescId), 1 ≤ s.cfg.kmax → s.kw = 1 → s.kh = 1 → Store.read s.kram 0 = some 0x00010000 →
    DescOk s a .gray → DescOk s d .gray → SameSize s a d → Apart s (d, .gray) (a, .gray) → Readable s a .gray →
    ∃ t, exec (.conv d a) s = .next t ∧ OnlyMemory s t ∧ MemOutside s t d .gray ∧
      ∀ k, k < s.len a .gray → Store.read t.mem (s.baseOf d + k) = Store.read s.mem (s.baseOf a + k)

/-- R175 for CONV: on an interior pixel, two runs on the same source and kernel give the same value, whatever their border
policies. -/
def Obligations.conv_interior_agreement : Prop :=
  ∀ (s s' t t' : State) (d a : DescId) (cx cy : Nat), s'.mem = s.mem → s'.kram = s.kram → s'.ksize = s.ksize →
    s'.desc.get a = s.desc.get a → exec (.conv d a) s = .next t → t.errcode = 0 → exec (.conv d a) s' = .next t' →
    t'.errcode = 0 →
    let r := s.kw / 2
    r ≤ cx → cx + r < s.widthOf a → r ≤ cy → cy + r < s.heightOf a →
    Store.read t.mem (s.paddr d .gray (cx - cutOf s r) (cy - cutOf s r) 0) =
      Store.read t'.mem (s'.paddr d .gray (cx - cutOf s' r) (cy - cutOf s' r) 0)

/-- KGAUSS (R178): the weights of `GAUSS_Q` in KRAM, row-major, and KSIZE. -/
def Obligations.kgauss_loads_the_kernel : Prop :=
  ∀ (s : State) (k : Byte), k.toNat % 2 = 1 → k.toNat ≤ s.cfg.kmax → s.sigma ≠ 0 →
    ∃ t, exec (.kgauss k) s = .next t ∧ t = { s.complete none with kram := t.kram, ksize := t.ksize } ∧
      t.ksize = BitVec.ofNat 32 (k.toNat + k.toNat * 2 ^ 8) ∧
      (∀ i j, i < k.toNat → j < k.toNat → Store.read t.kram (i * k.toNat + j) = some (BitVec.ofInt 32
        (Config.gaussQ.weight k.toNat s.sigma ((j : Int) - (k.toNat / 2 : Nat), (i : Int) - (k.toNat / 2 : Nat))))) ∧
      ∀ n, k.toNat * k.toNat ≤ n → Store.read t.kram n = Store.read s.kram n

/-- What R177 asks of the weights, of the words KGAUSS leaves in KRAM: each from 0 to 65536, their sum exactly 65536, the
kernel symmetric, each weight but the centre within 1 of the ideal. -/
def Obligations.gauss_kernel_weights : Prop :=
  ∀ (s t : State) (k : Byte), s.cfg.Legal → k.toNat % 2 = 1 → k.toNat ≤ s.cfg.kmax → s.sigma ≠ 0 →
    exec (.kgauss k) s = .next t →
    let side := k.toNat
    let q (i j : Nat) := weightAt t.kram (i * side + j)
    (∑ n ∈ Finset.range (side * side), weightAt t.kram n = 65536) ∧
    ∀ i j, i < side → j < side → 0 ≤ q i j ∧ q i j ≤ 65536 ∧ q i j = q i (side - 1 - j) ∧ q i j = q (side - 1 - i) j ∧
      q i j = q j i ∧ ((i, j) ≠ (side / 2, side / 2) →
        |(q i j : ℝ) - 65536 * Config.gaussNormal side s.sigma ((j : Int) - (side / 2 : Nat), (i : Int) - (side / 2 : Nat))| ≤ 1)

/-- KSOBELH, KSOBELV and KLAPL (R179 to R181): KRAM[0..8], KSIZE, and nothing else. -/
def Obligations.fixed_kernels : Prop :=
  ∀ s : State,
    let loads (i : Instr) (words : List Word) : Prop := ∃ t, exec i s = .next t ∧
      t = { s.complete none with kram := t.kram, ksize := 0x00000303 } ∧
      (∀ n, n < 9 → Store.read t.kram n = words[n]?) ∧ ∀ n, 9 ≤ n → Store.read t.kram n = Store.read s.kram n
    loads .ksobelh [0xFFFF0000, 0x00000000, 0x00010000, 0xFFFE0000, 0x00000000, 0x00020000, 0xFFFF0000, 0x00000000,
      0x00010000] ∧
    loads .ksobelv [0xFFFF0000, 0xFFFE0000, 0xFFFF0000, 0x00000000, 0x00000000, 0x00000000, 0x00010000, 0x00020000,
      0x00010000] ∧
    loads .klapl [0x00000000, 0xFFFF0000, 0x00000000, 0xFFFF0000, 0x00040000, 0xFFFF0000, 0x00000000, 0xFFFF0000,
      0x00000000]

/-- SOBEL (R182, R183). -/
def Obligations.sobel_magnitude : Prop :=
  ∀ (s : State) (d a : DescId), NeighbourReady s d a 1 →
    ∃ t, exec (.sobel d a) s = .next t ∧ OnlyMemory s t ∧ MemOutside s t d .gray ∧
      ∀ x y, x < s.widthOf d → y < s.heightOf d →
        let gx := responseOf s (gradX (around s a x y))
        let gy := responseOf s (gradY (around s a x y))
        ∃ m, NearestRoot (gx * gx + gy * gy).toNat m ∧
          Store.read t.mem (s.paddr d .gray x y 0) = some (BitVec.ofNat 8 (min m 255))

/-- SHARPEN (R184, R185). -/
def Obligations.sharpen_adds_the_laplacian : Prop :=
  ∀ (s : State) (d a : DescId), NeighbourReady s d a 1 →
    ∃ t, exec (.sharpen d a) s = .next t ∧ OnlyMemory s t ∧ MemOutside s t d .gray ∧
      ∀ x y, x < s.widthOf d → y < s.heightOf d →
        let p := around s a x y
        let strength := (s.sharpk.setWidth 16).toInt
        ∃ n, RoundsHalfAway (((256 * p 0 0 + strength * responseOf s (laplaceAt p) : Int) : ℚ) / 256) n ∧
          Store.read t.mem (s.paddr d .gray x y 0) = some (saturate n)

/-- BLUR (R186): the kernel of KGAUSS in KRAM and KSIZE, and the correlation of CONV with it. -/
def Obligations.blur_smooths : Prop :=
  ∀ (s : State) (d a : DescId) (k : Byte), KernelOk s (.blur d a k) → NeighbourReady s d a (k.toNat / 2) →
    ∃ t, exec (.blur d a k) s = .next t ∧
      t = { s.complete none with mem := t.mem, kram := t.kram, ksize := t.ksize } ∧
      t.ksize = BitVec.ofNat 32 (k.toNat + k.toNat * 2 ^ 8) ∧
      (∀ i j, i < k.toNat → j < k.toNat → Store.read t.kram (i * k.toNat + j) = some (BitVec.ofInt 32
        (Config.gaussQ.weight k.toNat s.sigma ((j : Int) - (k.toNat / 2 : Nat), (i : Int) - (k.toNat / 2 : Nat))))) ∧
      (∀ n, k.toNat * k.toNat ≤ n → Store.read t.kram n = Store.read s.kram n) ∧ MemOutside s t d .gray ∧
      ∀ x y, x < s.widthOf d → y < s.heightOf d →
        ∃ n, RoundsHalfAway ((weightedSum s t.kram a k.toNat x y : ℚ) / 65536) n ∧
          Store.read t.mem (s.paddr d .gray x y 0) = some (saturate n)

/-- BLUR leaves the state that KGAUSS followed by CONV leaves, provided both succeed (R186). -/
def Obligations.blur_is_kgauss_then_conv : Prop :=
  ∀ (s t u : State) (d a : DescId) (k : Byte), exec (.kgauss k) s = .next t → t.errcode = 0 →
    exec (.conv d a) t = .next u → u.errcode = 0 → exec (.blur d a k) s = .next u

/-! ## Histogram engine -/

/-- HIST (R200), with the bound of R204. -/
def Obligations.hist_counts : Prop :=
  ∀ (s : State) (a : DescId) (l : Byte), DescOk s a .gray → Readable s a .gray →
    ∃ t, exec (.hist a l) s = .next t ∧ t = { s.complete none with hist := t.hist } ∧
      ∀ v, v < 256 → pixelCount s a v < 2 ^ 32 ∧
        Store.read t.hist v = some (BitVec.ofNat 32 (if v ≤ l.toNat then pixelCount s a v else 0))

/-- CUM (R201). -/
def Obligations.cum_sums : Prop :=
  ∀ (s : State) (l : Byte), Filled s.hist (l.toNat + 1) →
    ∃ t, exec (.cum l) s = .next t ∧ t = { s.complete none with cum := t.cum } ∧
      ∀ v, v < 256 → Store.read t.cum v = some (BitVec.ofNat 32 (cumulative (entryAt s.hist) l.toNat v))

/-- R205: if every level is at most `L`, HIST and then CUM leave CUM[L] = W*H. -/
def Obligations.cumulative_total : Prop :=
  ∀ (s : State) (a : DescId) (l : Byte), DescOk s a .gray → Readable s a .gray →
    (∀ x y, x < s.widthOf a → y < s.heightOf a → pixelAt s a .gray x y 0 ≤ l.toNat) →
    ∃ t u, exec (.hist a l) s = .next t ∧ exec (.cum l) t = .next u ∧
      entryAt u.cum l.toNat = s.widthOf a * s.heightOf a

/-- EQUALIZE (R202). -/
def Obligations.equalize_remaps : Prop :=
  ∀ (s : State) (d a : DescId) (l : Byte), PointwiseReady s (d, .gray) (a, .gray) → Filled s.hist (l.toNat + 1) →
    let total := s.widthOf a * s.heightOf a
    let c (v : Nat) := cumulative (entryAt s.hist) l.toNat v
    ∃ t, exec (.equalize d a l) s = .next t ∧
      t = { s.complete none with mem := t.mem, cum := t.cum, lut := t.lut } ∧ MemOutside s t d .gray ∧
      (∀ v, v < 256 → Store.read t.cum v = some (BitVec.ofNat 32 (c v)) ∧
        Store.read t.lut v = some (BitVec.ofNat 8 (min (l.toNat * c v / total) 255))) ∧
      ∀ x y, x < s.widthOf a → y < s.heightOf a → Store.read t.mem (s.paddr d .gray x y 0) =
        some (BitVec.ofNat 8 (min (l.toNat * c (pixelAt s a .gray x y 0) / total) 255))

/-- STRETCH (R203): the anchor check and the remap. -/
def Obligations.stretch_rescales : Prop :=
  ∀ (s : State) (d a : DescId) (l : Byte) (lo hi : Nat), PointwiseReady s (d, .gray) (a, .gray) →
    Filled s.hist (l.toNat + 1) → IsLeastMin (entryAt s.hist) l.toNat lo → IsLeastMax (entryAt s.hist) l.toNat hi →
    (lo = hi → lo = 0 ∧ Fails (.stretch d a l) s .degenerateStretch lo) ∧
    (lo ≠ hi → ∃ t, exec (.stretch d a l) s = .next t ∧ OnlyMemory s t ∧ MemOutside s t d .gray ∧
      ∀ x y, x < s.widthOf a → y < s.heightOf a → Store.read t.mem (s.paddr d .gray x y 0) =
        some (BitVec.ofInt 8
          (max 0 (min 100 ⌊((pixelAt s a .gray x y 0 : ℚ) - lo) * 100 / ((hi : ℚ) - lo)⌋))))
end

