-- ==== Sys2Proof/Laws/Arith.lean ====
section
/-! SUPPORT. The reduction functions of 00_scope R11 meet what R11 says of them: `rha` rounds half away from zero, `clamp`
and `byteOfInt` saturate, `isqrt` is the integer root, `rsqrt` the nearest one. -/

namespace Sys2Proof.Laws

open Sys2Proof.Machine Sys2Proof.Safety

/-- Floor division by a positive number, by its two bounds. -/
theorem floorDiv_bounds (n : Int) {d : Int} (hd : 0 < d) : floorDiv n d * d ≤ n ∧ n < floorDiv n d * d + d := by
  unfold floorDiv
  rw [Int.fdiv_eq_ediv_of_nonneg _ hd.le]
  constructor
  · exact Int.ediv_mul_le n hd.ne'
  · have := Int.lt_ediv_add_one_mul_self n hd
    rwa [Int.add_mul, Int.one_mul] at this

/-- Floor division is the floor of the rational quotient. -/
theorem floorDiv_eq_floor (n : Int) {d : Int} (hd : 0 < d) : floorDiv n d = ⌊(n : ℚ) / d⌋ := by
  obtain ⟨h1, h2⟩ := floorDiv_bounds n hd
  have hd' : (0 : ℚ) < d := by exact_mod_cast hd
  symm
  rw [Int.floor_eq_iff, le_div_iff₀ hd', div_lt_iff₀ hd']
  constructor
  · exact_mod_cast h1
  · rw [add_mul, one_mul]; exact_mod_cast h2

/-- A remainder of at most half a divisor, and a full half only away from zero, is what rounding half away asks for. -/
theorem rounds_of_bounds {n d r : Int} (hd : 0 < d)
    (h : (0 ≤ n ∧ 2 * (r * d - n) ≤ d ∧ 2 * (n - r * d) < d) ∨ (n ≤ 0 ∧ 2 * (n - r * d) ≤ d ∧ 2 * (r * d - n) < d)) :
    RoundsHalfAway ((n : ℚ) / d) r := by
  have hd' : (0 : ℚ) < d := by exact_mod_cast hd
  obtain ⟨q, hq⟩ : ∃ q : ℚ, q = (n : ℚ) / d := ⟨_, rfl⟩
  have hn : (n : ℚ) = q * d := by rw [hq]; field_simp
  rw [← hq, RoundsHalfAway]
  rcases h with ⟨h0, h1, h2⟩ | ⟨h0, h1, h2⟩
  · have h0' : 0 ≤ q := by rw [hq]; exact div_nonneg (by exact_mod_cast h0) hd'.le
    have h1' : 2 * ((r : ℚ) * d - n) ≤ d := by exact_mod_cast h1
    have h2' : 2 * ((n : ℚ) - r * d) < d := by exact_mod_cast h2
    rw [hn] at h1' h2'
    have h3 : 2 * (r - q) ≤ 1 := by
      by_contra hc
      nlinarith
    have h4 : 2 * (q - r) < 1 := by
      by_contra hc
      nlinarith
    refine ⟨abs_le.mpr ⟨by linarith, by linarith⟩, fun heq => ?_⟩
    rcases (abs_eq (by norm_num)).mp heq with h | h
    · rw [abs_of_nonneg h0', abs_of_nonneg (by linarith)]; linarith
    · linarith
  · have h0' : q ≤ 0 := by rw [hq]; exact div_nonpos_of_nonpos_of_nonneg (by exact_mod_cast h0) hd'.le
    have h1' : 2 * ((n : ℚ) - r * d) ≤ d := by exact_mod_cast h1
    have h2' : 2 * ((r : ℚ) * d - n) < d := by exact_mod_cast h2
    rw [hn] at h1' h2'
    have h3 : 2 * (q - r) ≤ 1 := by
      by_contra hc
      nlinarith
    have h4 : 2 * (r - q) < 1 := by
      by_contra hc
      nlinarith
    refine ⟨abs_le.mpr ⟨by linarith, by linarith⟩, fun heq => ?_⟩
    rcases (abs_eq (by norm_num)).mp heq with h | h
    · linarith
    · rw [abs_of_nonpos h0', abs_of_nonpos (by linarith)]; linarith

/-- `rha(n / d)` is the integer nearest to `n / d`, the one farther from zero at a half (R11). -/
theorem rha_rounds (n : Int) {d : Int} (hd : 0 < d) : RoundsHalfAway ((n : ℚ) / d) (rha n d) := by
  apply rounds_of_bounds hd
  unfold rha
  split
  · rename_i h
    obtain ⟨h1, h2⟩ := floorDiv_bounds (2 * n + d) (d := 2 * d) (by omega)
    generalize floorDiv (2 * n + d) (2 * d) = r at *
    have e : r * (2 * d) = 2 * (r * d) := by ring
    rw [e] at h1 h2
    generalize r * d = x at *
    exact .inl ⟨h, by omega, by omega⟩
  · rename_i h
    obtain ⟨h1, h2⟩ := floorDiv_bounds (2 * (-n) + d) (d := 2 * d) (by omega)
    generalize floorDiv (2 * (-n) + d) (2 * d) = r at *
    have e : r * (2 * d) = 2 * (r * d) := by ring
    have e2 : -r * d = -(r * d) := by ring
    rw [e] at h1 h2
    rw [e2]
    generalize r * d = x at *
    exact .inr ⟨by omega, by omega, by omega⟩

/-- `byteOfInt (clamp v 0 255)` is the saturated byte. -/
theorem byteOfInt_clamp (v : Int) : byteOfInt (clamp v 0 255) = saturate v := by
  unfold byteOfInt clamp saturate byteOf
  apply BitVec.eq_of_toInt_eq
  split
  · rw [max_eq_left (by omega)]; rfl
  · split
    · rw [min_eq_left (by omega)]; rfl
    · rw [min_eq_right (by omega), max_eq_right (by omega)]
      obtain ⟨n, rfl⟩ := Int.eq_ofNat_of_zero_le (by omega : 0 ≤ v)
      rfl

/-- The digits still to be decided stay below the place. -/
theorem isqrtFrom_spec (n b r : Nat) (h1 : r * r ≤ n) (h2 : n < (r + 2 ^ b) * (r + 2 ^ b)) :
    isqrtFrom n b r * isqrtFrom n b r ≤ n ∧ n < (isqrtFrom n b r + 1) * (isqrtFrom n b r + 1) := by
  induction b generalizing r with
  | zero => exact ⟨h1, by simpa [isqrtFrom] using h2⟩
  | succ b ih =>
    rw [isqrtFrom]
    split
    · rename_i h
      refine ih _ h ?_
      rwa [show r + 2 ^ b + 2 ^ b = r + 2 ^ (b + 1) by rw [pow_succ]; ring]
    · rename_i h
      exact ih _ h1 (by omega)

/-- `isqrt n` is the greatest integer whose square is at most `n` (R11). -/
theorem isqrt_spec (n : Nat) : isqrt n * isqrt n ≤ n ∧ n < (isqrt n + 1) * (isqrt n + 1) := by
  unfold isqrt
  apply isqrtFrom_spec
  · simp
  · rw [Nat.zero_add, ← pow_add]
    rcases Nat.eq_zero_or_pos n with rfl | hn
    · simp
    · refine (Nat.lt_log2_self (n := n)).trans_le (Nat.pow_le_pow_right (by norm_num) ?_)
      omega

/-- `rsqrt n` is the integer nearest to the square root of `n` (R11). -/
theorem rsqrt_nearest (n : Nat) : NearestRoot n (rsqrt n) := by
  obtain ⟨h1, h2⟩ := isqrt_spec n
  unfold rsqrt NearestRoot
  generalize isqrt n = s at *
  have e : (s + 1) * (s + 1) = s * s + 2 * s + 1 := by ring
  split
  · rw [e]
    generalize s * s = x at *
    exact ⟨.inr (by omega), by omega⟩
  · rcases Nat.eq_zero_or_pos s with rfl | hs
    · exact ⟨.inl rfl, by omega⟩
    · generalize s * s = x at *
      exact ⟨.inr (by omega), by omega⟩

end Sys2Proof.Laws
end

