-- ==== Sys2Proof/Laws/State.lean ====
section
/-! SUPPORT. One lemma per field of State and per named update of State, so that no later proof unfolds a record update. -/

namespace Sys2Proof.Laws

open Sys2Proof.Machine

/-! Fields after acceptance (R220). -/

@[simp] theorem accept_cfg (s : State) (w : Word) : (s.accept w).cfg = s.cfg := rfl
@[simp] theorem accept_ctrl (s : State) (w : Word) : (s.accept w).ctrl = s.ctrl := rfl
@[simp] theorem accept_status (s : State) (w : Word) : (s.accept w).status = statusAccepted s.status := rfl
@[simp] theorem accept_cmd (s : State) (w : Word) : (s.accept w).cmd = w := rfl
@[simp] theorem accept_errinfo (s : State) (w : Word) : (s.accept w).errinfo = s.errinfo := rfl
@[simp] theorem accept_ksize (s : State) (w : Word) : (s.accept w).ksize = s.ksize := rfl
@[simp] theorem accept_sharpk (s : State) (w : Word) : (s.accept w).sharpk = s.sharpk := rfl
@[simp] theorem accept_gauss (s : State) (w : Word) : (s.accept w).gauss = s.gauss := rfl
@[simp] theorem accept_allocPtr (s : State) (w : Word) : (s.accept w).allocPtr = s.allocPtr := rfl
@[simp] theorem accept_desc (s : State) (w : Word) : (s.accept w).desc = s.desc := rfl
@[simp] theorem accept_mat (s : State) (w : Word) : (s.accept w).mat = s.mat := rfl
@[simp] theorem accept_kram (s : State) (w : Word) : (s.accept w).kram = s.kram := rfl
@[simp] theorem accept_hist (s : State) (w : Word) : (s.accept w).hist = s.hist := rfl
@[simp] theorem accept_cum (s : State) (w : Word) : (s.accept w).cum = s.cum := rfl
@[simp] theorem accept_lut (s : State) (w : Word) : (s.accept w).lut = s.lut := rfl
@[simp] theorem accept_mem (s : State) (w : Word) : (s.accept w).mem = s.mem := rfl
@[simp] theorem accept_pending (s : State) (w : Word) : (s.accept w).pending = some w := rfl
@[simp] theorem accept_held (s : State) (w : Word) : (s.accept w).held = s.held := rfl
@[simp] theorem accept_events (s : State) (w : Word) : (s.accept w).events = s.events := rfl
@[simp] theorem accept_responses (s : State) (w : Word) : (s.accept w).responses = s.responses := rfl

/-! Fields after the completion update (R222). -/

@[simp] theorem complete_cfg (s : State) (r : Option (Error × Nat)) : (s.complete r).cfg = s.cfg := by cases r <;> rfl
@[simp] theorem complete_ctrl (s : State) (r : Option (Error × Nat)) : (s.complete r).ctrl = s.ctrl := by cases r <;> rfl
@[simp] theorem complete_cmd (s : State) (r : Option (Error × Nat)) : (s.complete r).cmd = s.cmd := by cases r <;> rfl
@[simp] theorem complete_ksize (s : State) (r : Option (Error × Nat)) : (s.complete r).ksize = s.ksize := by cases r <;> rfl
@[simp] theorem complete_sharpk (s : State) (r : Option (Error × Nat)) : (s.complete r).sharpk = s.sharpk := by cases r <;> rfl
@[simp] theorem complete_gauss (s : State) (r : Option (Error × Nat)) : (s.complete r).gauss = s.gauss := by cases r <;> rfl
@[simp] theorem complete_allocPtr (s : State) (r : Option (Error × Nat)) : (s.complete r).allocPtr = s.allocPtr := by cases r <;> rfl
@[simp] theorem complete_desc (s : State) (r : Option (Error × Nat)) : (s.complete r).desc = s.desc := by cases r <;> rfl
@[simp] theorem complete_mat (s : State) (r : Option (Error × Nat)) : (s.complete r).mat = s.mat := by cases r <;> rfl
@[simp] theorem complete_kram (s : State) (r : Option (Error × Nat)) : (s.complete r).kram = s.kram := by cases r <;> rfl
@[simp] theorem complete_hist (s : State) (r : Option (Error × Nat)) : (s.complete r).hist = s.hist := by cases r <;> rfl
@[simp] theorem complete_cum (s : State) (r : Option (Error × Nat)) : (s.complete r).cum = s.cum := by cases r <;> rfl
@[simp] theorem complete_lut (s : State) (r : Option (Error × Nat)) : (s.complete r).lut = s.lut := by cases r <;> rfl
@[simp] theorem complete_mem (s : State) (r : Option (Error × Nat)) : (s.complete r).mem = s.mem := by cases r <;> rfl
@[simp] theorem complete_pending (s : State) (r : Option (Error × Nat)) : (s.complete r).pending = none := by cases r <;> rfl
@[simp] theorem complete_held (s : State) (r : Option (Error × Nat)) : (s.complete r).held = s.held := by cases r <;> rfl
@[simp] theorem complete_events (s : State) (r : Option (Error × Nat)) : (s.complete r).events = s.events := by cases r <;> rfl
@[simp] theorem complete_responses (s : State) (r : Option (Error × Nat)) : (s.complete r).responses = s.responses := by cases r <;> rfl
@[simp] theorem complete_none_status (s : State) : (s.complete none).status = statusDone s.status := rfl
@[simp] theorem complete_some_status (s : State) (e : Error) (i : Nat) :
    (s.complete (some (e, i))).status = statusFailed s.status e.code := rfl
@[simp] theorem complete_none_errinfo (s : State) : (s.complete none).errinfo = 0 := rfl
@[simp] theorem complete_some_errinfo (s : State) (e : Error) (i : Nat) :
    (s.complete (some (e, i))).errinfo = BitVec.ofNat 32 i := rfl

/-! Fields after the writing of a destination extent (R77). -/

@[simp] theorem putExtent_cfg (s : State) (d : DescId) (bytes : List Byte) : (s.putExtent d bytes).cfg = s.cfg := rfl
@[simp] theorem putExtent_ctrl (s : State) (d : DescId) (bytes : List Byte) : (s.putExtent d bytes).ctrl = s.ctrl := rfl
@[simp] theorem putExtent_status (s : State) (d : DescId) (bytes : List Byte) : (s.putExtent d bytes).status = s.status := rfl
@[simp] theorem putExtent_cmd (s : State) (d : DescId) (bytes : List Byte) : (s.putExtent d bytes).cmd = s.cmd := rfl
@[simp] theorem putExtent_errinfo (s : State) (d : DescId) (bytes : List Byte) : (s.putExtent d bytes).errinfo = s.errinfo := rfl
@[simp] theorem putExtent_ksize (s : State) (d : DescId) (bytes : List Byte) : (s.putExtent d bytes).ksize = s.ksize := rfl
@[simp] theorem putExtent_sharpk (s : State) (d : DescId) (bytes : List Byte) : (s.putExtent d bytes).sharpk = s.sharpk := rfl
@[simp] theorem putExtent_gauss (s : State) (d : DescId) (bytes : List Byte) : (s.putExtent d bytes).gauss = s.gauss := rfl
@[simp] theorem putExtent_allocPtr (s : State) (d : DescId) (bytes : List Byte) : (s.putExtent d bytes).allocPtr = s.allocPtr := rfl
@[simp] theorem putExtent_desc (s : State) (d : DescId) (bytes : List Byte) : (s.putExtent d bytes).desc = s.desc := rfl
@[simp] theorem putExtent_mat (s : State) (d : DescId) (bytes : List Byte) : (s.putExtent d bytes).mat = s.mat := rfl
@[simp] theorem putExtent_kram (s : State) (d : DescId) (bytes : List Byte) : (s.putExtent d bytes).kram = s.kram := rfl
@[simp] theorem putExtent_hist (s : State) (d : DescId) (bytes : List Byte) : (s.putExtent d bytes).hist = s.hist := rfl
@[simp] theorem putExtent_cum (s : State) (d : DescId) (bytes : List Byte) : (s.putExtent d bytes).cum = s.cum := rfl
@[simp] theorem putExtent_lut (s : State) (d : DescId) (bytes : List Byte) : (s.putExtent d bytes).lut = s.lut := rfl
@[simp] theorem putExtent_mem (s : State) (d : DescId) (bytes : List Byte) : (s.putExtent d bytes).mem = Store.writeList s.mem (s.baseOf d) bytes := rfl
@[simp] theorem putExtent_pending (s : State) (d : DescId) (bytes : List Byte) : (s.putExtent d bytes).pending = s.pending := rfl
@[simp] theorem putExtent_held (s : State) (d : DescId) (bytes : List Byte) : (s.putExtent d bytes).held = s.held := rfl
@[simp] theorem putExtent_events (s : State) (d : DescId) (bytes : List Byte) : (s.putExtent d bytes).events = s.events := rfl
@[simp] theorem putExtent_responses (s : State) (d : DescId) (bytes : List Byte) : (s.putExtent d bytes).responses = s.responses := rfl

/-! Fields after the effects of ALLOC (R131). -/

@[simp] theorem allocate_cfg (s : State) (d : DescId) (size : Nat) : (s.allocate d size).cfg = s.cfg := rfl
@[simp] theorem allocate_ctrl (s : State) (d : DescId) (size : Nat) : (s.allocate d size).ctrl = s.ctrl := rfl
@[simp] theorem allocate_status (s : State) (d : DescId) (size : Nat) : (s.allocate d size).status = s.status := rfl
@[simp] theorem allocate_cmd (s : State) (d : DescId) (size : Nat) : (s.allocate d size).cmd = s.cmd := rfl
@[simp] theorem allocate_errinfo (s : State) (d : DescId) (size : Nat) : (s.allocate d size).errinfo = s.errinfo := rfl
@[simp] theorem allocate_ksize (s : State) (d : DescId) (size : Nat) : (s.allocate d size).ksize = s.ksize := rfl
@[simp] theorem allocate_sharpk (s : State) (d : DescId) (size : Nat) : (s.allocate d size).sharpk = s.sharpk := rfl
@[simp] theorem allocate_gauss (s : State) (d : DescId) (size : Nat) : (s.allocate d size).gauss = s.gauss := rfl
@[simp] theorem allocate_allocPtr (s : State) (d : DescId) (size : Nat) : (s.allocate d size).allocPtr = BitVec.ofNat 32 (s.allocPtr.toNat + size) := rfl
@[simp] theorem allocate_desc (s : State) (d : DescId) (size : Nat) : (s.allocate d size).desc = s.desc.set d { s.desc.get d with base := s.allocPtr } := rfl
@[simp] theorem allocate_mat (s : State) (d : DescId) (size : Nat) : (s.allocate d size).mat = s.mat := rfl
@[simp] theorem allocate_kram (s : State) (d : DescId) (size : Nat) : (s.allocate d size).kram = s.kram := rfl
@[simp] theorem allocate_hist (s : State) (d : DescId) (size : Nat) : (s.allocate d size).hist = s.hist := rfl
@[simp] theorem allocate_cum (s : State) (d : DescId) (size : Nat) : (s.allocate d size).cum = s.cum := rfl
@[simp] theorem allocate_lut (s : State) (d : DescId) (size : Nat) : (s.allocate d size).lut = s.lut := rfl
@[simp] theorem allocate_mem (s : State) (d : DescId) (size : Nat) : (s.allocate d size).mem = s.mem := rfl
@[simp] theorem allocate_pending (s : State) (d : DescId) (size : Nat) : (s.allocate d size).pending = s.pending := rfl
@[simp] theorem allocate_held (s : State) (d : DescId) (size : Nat) : (s.allocate d size).held = s.held := rfl
@[simp] theorem allocate_events (s : State) (d : DescId) (size : Nat) : (s.allocate d size).events = s.events := rfl
@[simp] theorem allocate_responses (s : State) (d : DescId) (size : Nat) : (s.allocate d size).responses = s.responses := rfl

/-! Fields after the loading of a kernel (R178). -/

@[simp] theorem loadKernel_cfg (s : State) (k : Nat) (ws : List Int) : (s.loadKernel k ws).cfg = s.cfg := rfl
@[simp] theorem loadKernel_ctrl (s : State) (k : Nat) (ws : List Int) : (s.loadKernel k ws).ctrl = s.ctrl := rfl
@[simp] theorem loadKernel_status (s : State) (k : Nat) (ws : List Int) : (s.loadKernel k ws).status = s.status := rfl
@[simp] theorem loadKernel_cmd (s : State) (k : Nat) (ws : List Int) : (s.loadKernel k ws).cmd = s.cmd := rfl
@[simp] theorem loadKernel_errinfo (s : State) (k : Nat) (ws : List Int) : (s.loadKernel k ws).errinfo = s.errinfo := rfl
@[simp] theorem loadKernel_ksize (s : State) (k : Nat) (ws : List Int) : (s.loadKernel k ws).ksize = BitVec.ofNat 32 (k + k * 2 ^ 8) := rfl
@[simp] theorem loadKernel_sharpk (s : State) (k : Nat) (ws : List Int) : (s.loadKernel k ws).sharpk = s.sharpk := rfl
@[simp] theorem loadKernel_gauss (s : State) (k : Nat) (ws : List Int) : (s.loadKernel k ws).gauss = s.gauss := rfl
@[simp] theorem loadKernel_allocPtr (s : State) (k : Nat) (ws : List Int) : (s.loadKernel k ws).allocPtr = s.allocPtr := rfl
@[simp] theorem loadKernel_desc (s : State) (k : Nat) (ws : List Int) : (s.loadKernel k ws).desc = s.desc := rfl
@[simp] theorem loadKernel_mat (s : State) (k : Nat) (ws : List Int) : (s.loadKernel k ws).mat = s.mat := rfl
@[simp] theorem loadKernel_kram (s : State) (k : Nat) (ws : List Int) : (s.loadKernel k ws).kram = Store.writeList s.kram 0 (ws.map fun q => BitVec.ofInt 32 q) := rfl
@[simp] theorem loadKernel_hist (s : State) (k : Nat) (ws : List Int) : (s.loadKernel k ws).hist = s.hist := rfl
@[simp] theorem loadKernel_cum (s : State) (k : Nat) (ws : List Int) : (s.loadKernel k ws).cum = s.cum := rfl
@[simp] theorem loadKernel_lut (s : State) (k : Nat) (ws : List Int) : (s.loadKernel k ws).lut = s.lut := rfl
@[simp] theorem loadKernel_mem (s : State) (k : Nat) (ws : List Int) : (s.loadKernel k ws).mem = s.mem := rfl
@[simp] theorem loadKernel_pending (s : State) (k : Nat) (ws : List Int) : (s.loadKernel k ws).pending = s.pending := rfl
@[simp] theorem loadKernel_held (s : State) (k : Nat) (ws : List Int) : (s.loadKernel k ws).held = s.held := rfl
@[simp] theorem loadKernel_events (s : State) (k : Nat) (ws : List Int) : (s.loadKernel k ws).events = s.events := rfl
@[simp] theorem loadKernel_responses (s : State) (k : Nat) (ws : List Int) : (s.loadKernel k ws).responses = s.responses := rfl

/-! Fields after an answer of the host port. -/

@[simp] theorem respond_cfg (s : State) (r : Response) : (s.respond r).cfg = s.cfg := rfl
@[simp] theorem respond_ctrl (s : State) (r : Response) : (s.respond r).ctrl = s.ctrl := rfl
@[simp] theorem respond_status (s : State) (r : Response) : (s.respond r).status = s.status := rfl
@[simp] theorem respond_cmd (s : State) (r : Response) : (s.respond r).cmd = s.cmd := rfl
@[simp] theorem respond_errinfo (s : State) (r : Response) : (s.respond r).errinfo = s.errinfo := rfl
@[simp] theorem respond_ksize (s : State) (r : Response) : (s.respond r).ksize = s.ksize := rfl
@[simp] theorem respond_sharpk (s : State) (r : Response) : (s.respond r).sharpk = s.sharpk := rfl
@[simp] theorem respond_gauss (s : State) (r : Response) : (s.respond r).gauss = s.gauss := rfl
@[simp] theorem respond_allocPtr (s : State) (r : Response) : (s.respond r).allocPtr = s.allocPtr := rfl
@[simp] theorem respond_desc (s : State) (r : Response) : (s.respond r).desc = s.desc := rfl
@[simp] theorem respond_mat (s : State) (r : Response) : (s.respond r).mat = s.mat := rfl
@[simp] theorem respond_kram (s : State) (r : Response) : (s.respond r).kram = s.kram := rfl
@[simp] theorem respond_hist (s : State) (r : Response) : (s.respond r).hist = s.hist := rfl
@[simp] theorem respond_cum (s : State) (r : Response) : (s.respond r).cum = s.cum := rfl
@[simp] theorem respond_lut (s : State) (r : Response) : (s.respond r).lut = s.lut := rfl
@[simp] theorem respond_mem (s : State) (r : Response) : (s.respond r).mem = s.mem := rfl
@[simp] theorem respond_pending (s : State) (r : Response) : (s.respond r).pending = s.pending := rfl
@[simp] theorem respond_held (s : State) (r : Response) : (s.respond r).held = s.held := rfl
@[simp] theorem respond_events (s : State) (r : Response) : (s.respond r).events = s.events := rfl
@[simp] theorem respond_responses (s : State) (r : Response) : (s.respond r).responses = r :: s.responses := rfl

/-! What releasing the held access leaves alone, and what it does (R86). -/

@[simp] theorem releaseHeld_cfg (s : State) : s.releaseHeld.cfg = s.cfg := by unfold State.releaseHeld; split <;> rfl
@[simp] theorem releaseHeld_ctrl (s : State) : s.releaseHeld.ctrl = s.ctrl := by unfold State.releaseHeld; split <;> rfl
@[simp] theorem releaseHeld_status (s : State) : s.releaseHeld.status = s.status := by unfold State.releaseHeld; split <;> rfl
@[simp] theorem releaseHeld_cmd (s : State) : s.releaseHeld.cmd = s.cmd := by unfold State.releaseHeld; split <;> rfl
@[simp] theorem releaseHeld_errinfo (s : State) : s.releaseHeld.errinfo = s.errinfo := by unfold State.releaseHeld; split <;> rfl
@[simp] theorem releaseHeld_ksize (s : State) : s.releaseHeld.ksize = s.ksize := by unfold State.releaseHeld; split <;> rfl
@[simp] theorem releaseHeld_sharpk (s : State) : s.releaseHeld.sharpk = s.sharpk := by unfold State.releaseHeld; split <;> rfl
@[simp] theorem releaseHeld_gauss (s : State) : s.releaseHeld.gauss = s.gauss := by unfold State.releaseHeld; split <;> rfl
@[simp] theorem releaseHeld_allocPtr (s : State) : s.releaseHeld.allocPtr = s.allocPtr := by unfold State.releaseHeld; split <;> rfl
@[simp] theorem releaseHeld_desc (s : State) : s.releaseHeld.desc = s.desc := by unfold State.releaseHeld; split <;> rfl
@[simp] theorem releaseHeld_mat (s : State) : s.releaseHeld.mat = s.mat := by unfold State.releaseHeld; split <;> rfl
@[simp] theorem releaseHeld_kram (s : State) : s.releaseHeld.kram = s.kram := by unfold State.releaseHeld; split <;> rfl
@[simp] theorem releaseHeld_hist (s : State) : s.releaseHeld.hist = s.hist := by unfold State.releaseHeld; split <;> rfl
@[simp] theorem releaseHeld_cum (s : State) : s.releaseHeld.cum = s.cum := by unfold State.releaseHeld; split <;> rfl
@[simp] theorem releaseHeld_lut (s : State) : s.releaseHeld.lut = s.lut := by unfold State.releaseHeld; split <;> rfl
@[simp] theorem releaseHeld_mem (s : State) : s.releaseHeld.mem = s.mem := by unfold State.releaseHeld; split <;> rfl
@[simp] theorem releaseHeld_pending (s : State) : s.releaseHeld.pending = s.pending := by unfold State.releaseHeld; split <;> rfl
@[simp] theorem releaseHeld_responses (s : State) : s.releaseHeld.responses = s.responses := by unfold State.releaseHeld; split <;> rfl

@[simp] theorem releaseHeld_held (s : State) : s.releaseHeld.held = none := by
  unfold State.releaseHeld; split
  · assumption
  · rfl

theorem releaseHeld_of_none {s : State} (h : s.held = none) : s.releaseHeld = s := by unfold State.releaseHeld; rw [h]

theorem releaseHeld_of_some {s : State} {a : Access} (h : s.held = some a) :
    s.releaseHeld = { s with held := none, events := .access a :: s.events } := by unfold State.releaseHeld; rw [h]

end Sys2Proof.Laws
end

