-- ==== Sys2Proof/Laws/Store.lean ====
section
/-! SUPPORT. The laws of stores and buffer memory: a read after a write, the canonical form, the values of a written
block. Later proofs cite these and do not unfold the operations. -/

namespace Sys2Proof.Laws

open Sys2Proof.Machine

variable {α : Type}

/-- Reading the key just written gives the value written. -/
theorem read_write_same (m : Store α) (k : Nat) (v : α) : Store.read (Store.write m k v) k = some v := by
  induction m with
  | nil => simp [Store.write, Store.read]
  | cons p rest ih =>
    obtain ⟨j, u⟩ := p
    simp only [Store.write]
    split
    · simp [Store.read]
    · split
      · simp [Store.read]
      · rename_i h1 h2
        simp [Store.read, ih, show ¬ j = k from fun h => h2 h.symm]

/-- A write leaves every other key alone. -/
theorem read_write_other (m : Store α) {k l : Nat} (v : α) (h : l ≠ k) :
    Store.read (Store.write m k v) l = Store.read m l := by
  induction m with
  | nil => simp [Store.write, Store.read, h.symm]
  | cons p rest ih =>
    obtain ⟨j, u⟩ := p
    simp only [Store.write]
    split
    · simp [Store.read, h.symm]
    · split
      · rename_i h1 h2
        subst h2
        simp [Store.read, h.symm]
      · simp only [Store.read, ih]

/-- Where a written key can come from. -/
theorem mem_write {m : Store α} {k : Nat} {v : α} {p : Nat × α} (h : p ∈ Store.write m k v) : p = (k, v) ∨ p ∈ m := by
  induction m with
  | nil => simpa [Store.write] using h
  | cons q rest ih =>
    obtain ⟨j, u⟩ := q
    simp only [Store.write] at h
    split at h
    · simpa using h
    · split at h
      · rcases List.mem_cons.mp h with h | h
        · exact .inl h
        · exact .inr (List.mem_cons_of_mem _ h)
      · rcases List.mem_cons.mp h with h | h
        · exact .inr (h ▸ List.mem_cons_self)
        · exact (ih h).imp_right (List.mem_cons_of_mem _)

/-- A write keeps the canonical form. -/
theorem wf_write {m : Store α} (k : Nat) (v : α) (h : Store.Wf m) : Store.Wf (Store.write m k v) := by
  induction m with
  | nil => simp [Store.write, Store.Wf]
  | cons p rest ih =>
    obtain ⟨j, u⟩ := p
    have hcons := List.pairwise_cons.mp h
    simp only [Store.write]
    split
    · rename_i hlt
      refine List.pairwise_cons.mpr ⟨fun q hq => ?_, h⟩
      rcases List.mem_cons.mp hq with rfl | hq
      · exact hlt
      · exact hlt.trans (hcons.1 q hq)
    · split
      · rename_i heq
        exact List.pairwise_cons.mpr ⟨fun q hq => heq ▸ hcons.1 q hq, hcons.2⟩
      · refine List.pairwise_cons.mpr ⟨fun q hq => ?_, ih hcons.2⟩
        rcases mem_write hq with rfl | hq
        · show j < k
          omega
        · exact hcons.1 q hq

/-- A block write leaves every key outside the block alone. -/
theorem read_writeList_outside (vs : List α) (m : Store α) {base k : Nat} (h : k < base ∨ base + vs.length ≤ k) :
    Store.read (Store.writeList m base vs) k = Store.read m k := by
  induction vs generalizing m base with
  | nil => rfl
  | cons v vs ih =>
    have hlen : (v :: vs).length = vs.length + 1 := rfl
    rw [Store.writeList, ih _ (by omega), read_write_other _ _ (by omega)]

/-- Inside a written block each key reads as the value written to it. -/
theorem read_writeList_inside (vs : List α) (m : Store α) (base i : Nat) (h : i < vs.length) :
    Store.read (Store.writeList m base vs) (base + i) = some vs[i] := by
  induction vs generalizing m base i with
  | nil => simp at h
  | cons v vs ih =>
    rw [Store.writeList]
    cases i with
    | zero =>
      rw [read_writeList_outside _ _ (.inl (by omega))]
      exact read_write_same _ _ _
    | succ i =>
      have h' : i < vs.length := by simpa using h
      rw [show base + (i + 1) = base + 1 + i by omega, ih _ _ _ h']
      rfl

/-- A block write keeps the canonical form. -/
theorem wf_writeList (vs : List α) {m : Store α} (base : Nat) (h : Store.Wf m) : Store.Wf (Store.writeList m base vs) := by
  induction vs generalizing m base with
  | nil => exact h
  | cons v vs ih => exact ih _ (wf_write _ _ h)

/-- Every key of a store after a block write lies in the block or was there before. -/
theorem mem_writeList {vs : List α} {m : Store α} {base : Nat} {p : Nat × α} (h : p ∈ Store.writeList m base vs) :
    (base ≤ p.1 ∧ p.1 < base + vs.length) ∨ p ∈ m := by
  induction vs generalizing m base with
  | nil => exact .inr h
  | cons v vs ih =>
    have hlen : (v :: vs).length = vs.length + 1 := rfl
    rcases ih h with h | h
    · exact .inl ⟨by omega, by omega⟩
    · rcases mem_write h with rfl | h
      · exact .inl ⟨Nat.le_refl _, by simp⟩
      · exact .inr h

/-- The store of a list reads as the list. -/
theorem read_ofListFrom (vs : List α) (k i : Nat) : Store.read (Store.ofListFrom k vs) (k + i) = vs[i]? := by
  induction vs generalizing k i with
  | nil => simp [Store.ofListFrom, Store.read]
  | cons v vs ih =>
    cases i with
    | zero => simp [Store.ofListFrom, Store.read]
    | succ i =>
      have := ih (k + 1) i
      rw [show k + 1 + i = k + (i + 1) by omega] at this
      simpa [Store.ofListFrom, Store.read] using this

/-- The keys of the store of a list. -/
theorem mem_ofListFrom {vs : List α} {k : Nat} {p : Nat × α} (h : p ∈ Store.ofListFrom k vs) :
    k ≤ p.1 ∧ p.1 < k + vs.length := by
  induction vs generalizing k with
  | nil => simp [Store.ofListFrom] at h
  | cons v vs ih =>
    have hlen : (v :: vs).length = vs.length + 1 := rfl
    rcases List.mem_cons.mp h with rfl | h
    · exact ⟨Nat.le_refl _, by simp⟩
    · have := ih h
      exact ⟨by omega, by omega⟩

/-- The store of a list is canonical. -/
theorem wf_ofListFrom (vs : List α) (k : Nat) : Store.Wf (Store.ofListFrom k vs) := by
  induction vs generalizing k with
  | nil => exact List.Pairwise.nil
  | cons v vs ih => exact List.pairwise_cons.mpr ⟨fun q hq => (mem_ofListFrom hq).1, ih _⟩

/-- Forgetting a range keeps the canonical form. -/
theorem wf_forget {m : Store α} (lo hi : Nat) (h : Store.Wf m) : Store.Wf (Store.forget m lo hi) := List.Pairwise.filter _ h

/-- What a store reads after a range was forgotten: nothing inside the range, the old value outside. -/
theorem read_forget (m : Store α) (lo hi k : Nat) :
    Store.read (Store.forget m lo hi) k = if lo ≤ k ∧ k < hi then none else Store.read m k := by
  induction m with
  | nil => simp [Store.forget, Store.read]
  | cons p rest ih =>
    obtain ⟨j, u⟩ := p
    have hsplit : Store.forget ((j, u) :: rest) lo hi =
        if lo ≤ j ∧ j < hi then Store.forget rest lo hi else (j, u) :: Store.forget rest lo hi := by
      simp only [Store.forget, List.filter_cons]
      by_cases hj : lo ≤ j ∧ j < hi
      · rw [if_pos hj, if_neg (by simp [hj.1, hj.2])]
      · rw [if_neg hj, if_pos (by simp only [Bool.not_eq_true', Bool.and_eq_false_iff, decide_eq_false_iff_not]; omega)]
    rw [hsplit]
    by_cases hj : lo ≤ j ∧ j < hi
    · rw [if_pos hj, ih]
      by_cases hk : lo ≤ k ∧ k < hi
      · rw [if_pos hk, if_pos hk]
      · have hne : ¬ j = k := by rintro rfl; exact hk hj
        rw [if_neg hk, if_neg hk, Store.read, if_neg hne]
    · rw [if_neg hj]
      by_cases hjk : j = k
      · subst hjk
        rw [Store.read, if_pos rfl, if_neg hj, Store.read, if_pos rfl]
      · rw [Store.read, if_neg hjk, ih, Store.read, if_neg hjk]

/-- The keys left after a range was forgotten were there before. -/
theorem mem_forget {m : Store α} {lo hi : Nat} {p : Nat × α} (h : p ∈ Store.forget m lo hi) : p ∈ m :=
  List.mem_of_mem_filter h

theorem length_leBytes (n v : Nat) : (leBytes n v).length = n := by
  induction n generalizing v with
  | zero => rfl
  | succ n ih => simp [leBytes, ih]

/-- A little-endian read after a little-endian write of the same width gives the bytes written. -/
theorem readLE_writeLE (m : Memory) (addr n v : Nat) :
    Memory.readLE (Memory.writeLE m addr n v) addr n = some (v % 256 ^ n) := by
  unfold Memory.writeLE
  induction n generalizing m addr v with
  | zero => simp [Memory.readLE, Nat.mod_one]
  | succ n ih =>
    have h0 : Store.read (Store.writeList m addr (leBytes (n + 1) v)) addr = some (BitVec.ofNat 8 (v % 256)) := by
      have := read_writeList_inside (leBytes (n + 1) v) m addr 0 (by simp [leBytes])
      simpa [leBytes] using this
    rw [Memory.readLE, h0]
    simp only [leBytes, Store.writeList]
    rw [ih]
    have hv : v % 256 ^ (n + 1) = v % 256 + 256 * (v / 256 % 256 ^ n) := by
      rw [pow_succ, mul_comm (256 ^ n) 256, Nat.mod_mul]
    simp [hv]

end Sys2Proof.Laws
end

