-- ==== Sys2Proof/Laws/Ops.lean ====
section
/-! SUPPORT. One lemma per shared operation that says what it can do: how a computation goes on, how a completion step ends,
when each check passes and what it raises otherwise, what a pixel read and a raster of pixels give. -/

namespace Sys2Proof.Laws

open Sys2Proof.Machine Sys2Proof.Safety

/-! Computations. -/

theorem run_bind_ok_iff {α β : Type} {x : Run α} {f : α → Run β} {b : β} :
    (x >>= f) = .ok b ↔ ∃ a, x = .ok a ∧ f a = .ok b := by
  cases x with
  | error e =>
    constructor
    · intro h; cases h
    · rintro ⟨_, h, _⟩; cases h
  | ok a =>
    constructor
    · intro h; exact ⟨a, rfl, h⟩
    · rintro ⟨_, h, h'⟩; injection h with h; subst h; exact h'

theorem run_bind_error_iff {α β : Type} {x : Run α} {f : α → Run β} {e : Halt} :
    (x >>= f) = .error e ↔ x = .error e ∨ ∃ a, x = .ok a ∧ f a = .error e := by
  cases x with
  | error e' =>
    constructor
    · intro h; injection h with h; subst h; exact .inl rfl
    · rintro (h | ⟨_, h, _⟩)
      · injection h with h; subst h; rfl
      · cases h
  | ok a =>
    constructor
    · intro h; exact .inr ⟨a, rfl, h⟩
    · rintro (h | ⟨_, h, h'⟩)
      · cases h
      · injection h with h; subst h; exact h'

theorem run_bind_of_ok {α β : Type} {x : Run α} {a : α} (f : α → Run β) (h : x = .ok a) : (x >>= f) = f a := by
  subst h; rfl

theorem run_bind_of_error {α β : Type} {x : Run α} {e : Halt} (f : α → Run β) (h : x = .error e) :
    (x >>= f) = .error e := by
  subst h; rfl

/-- How a completion step ends in a next state: without error after the effects, or with an error and no effect. -/
theorem finish_next_iff {s t : State} {r : Run State} :
    s.finish r = .next t ↔
      (∃ s', r = .ok s' ∧ t = s'.complete none) ∨ ∃ e info, r = .error (.error e info) ∧ t = s.complete (some (e, info)) := by
  rcases r with (⟨e, i⟩ | f) | s'
  · constructor
    · intro h; injection h with h; exact .inr ⟨e, i, rfl, h.symm⟩
    · rintro (⟨_, h, _⟩ | ⟨_, _, h, rfl⟩)
      · cases h
      · injection h with h; injection h with h1 h2; subst h1; subst h2; rfl
  · constructor
    · intro h; cases h
    · rintro (⟨_, h, _⟩ | ⟨_, _, h, _⟩) <;> cases h
  · constructor
    · intro h; injection h with h; exact .inl ⟨s', rfl, h.symm⟩
    · rintro (⟨_, h, rfl⟩ | ⟨_, _, h, _⟩)
      · injection h with h; subst h; rfl
      · cases h

theorem finish_of_ok {s s' : State} {r : Run State} (h : r = .ok s') : s.finish r = .next (s'.complete none) := by
  subst h; rfl

theorem finish_of_error {s : State} {r : Run State} {e : Error} {info : Nat} (h : r = .error (.error e info)) :
    s.finish r = .next (s.complete (some (e, info))) := by
  subst h; rfl

theorem finish_of_fault {s : State} {r : Run State} {f : Fault} (h : r = .error (.fault f)) : s.finish r = .fault f := by
  subst h; rfl

/-- A completion step never refuses. -/
theorem finish_not_refused {s : State} {r : Run State} {q : Refusal} : s.finish r ≠ .refused q := by
  rcases r with (⟨e, i⟩ | f) | s' <;> intro h <;> cases h

theorem collect_ok_iff {α : Type} {xs : List (Run α)} {vs : List α} : collect xs = .ok vs ↔ xs = vs.map .ok := by
  induction xs generalizing vs with
  | nil => simp [collect, eq_comm]
  | cons x xs ih =>
    rcases x with e | v
    · constructor
      · intro h; cases h
      · intro h; cases vs <;> simp at h
    · simp only [collect]
      cases hc : collect xs with
      | error e =>
        constructor
        · intro h; cases h
        · intro h
          cases vs with
          | nil => simp at h
          | cons w ws =>
            simp only [List.map_cons, List.cons.injEq] at h
            rw [ih.mpr h.2] at hc
            cases hc
      | ok ws =>
        have := ih.mp hc
        constructor
        · intro h; injection h with h; subst h; simp [this]
        · intro h
          cases vs with
          | nil => simp at h
          | cons w ws' =>
            simp only [List.map_cons, List.cons.injEq, Except.ok.injEq] at h
            have h2 := ih.mpr h.2
            rw [hc] at h2
            injection h2 with h2
            rw [h.1, h2]

theorem collect_map_ok {α β : Type} {l : List α} {f : α → Run β} (g : α → β) (h : ∀ a ∈ l, f a = .ok (g a)) :
    collect (l.map f) = .ok (l.map g) := by
  rw [collect_ok_iff, List.map_map]
  exact List.map_congr_left h

theorem collect_error {α : Type} {xs : List (Run α)} {e : Halt} (h : collect xs = .error e) : .error e ∈ xs := by
  induction xs with
  | nil => cases h
  | cons x xs ih =>
    rcases x with e' | v
    · injection h with h; subst h; exact List.mem_cons_self
    · simp only [collect] at h
      cases hc : collect xs with
      | error e' => rw [hc] at h; injection h with h; subst h; exact List.mem_cons_of_mem _ (ih hc)
      | ok ws => rw [hc] at h; cases h

theorem collect_length {α : Type} {xs : List (Run α)} {vs : List α} (h : collect xs = .ok vs) : vs.length = xs.length := by
  rw [collect_ok_iff.mp h, List.length_map]

/-- A list of computations gathers its results only if each of them has one. -/
theorem collect_ok_mem {α : Type} {xs : List (Run α)} {vs : List α} (h : collect xs = .ok vs) {x : Run α} (hx : x ∈ xs) :
    ∃ v, x = .ok v := by
  rw [collect_ok_iff.mp h] at hx
  obtain ⟨v, _, rfl⟩ := List.mem_map.mp hx
  exact ⟨v, rfl⟩

/-- A raster of pixels has a value only if every pixel has one. -/
theorem raster_ok_pixel {w h : Nat} {px : Nat → Nat → Run (List Byte)} {bytes : List Byte}
    (hb : raster w h px = .ok bytes) {x y : Nat} (hx : x < w) (hy : y < h) : ∃ bs, px x y = .ok bs := by
  obtain ⟨rows, hr, _⟩ := run_bind_ok_iff.mp hb
  refine collect_ok_mem hr (List.mem_map.mpr ⟨y * w + x, List.mem_range.mpr ?_, ?_⟩)
  · calc y * w + x < y * w + w := by omega
      _ = (y + 1) * w := by ring
      _ ≤ h * w := Nat.mul_le_mul_right _ hy
      _ = w * h := Nat.mul_comm _ _
  · rw [show (y * w + x) % w = x by rw [Nat.mul_comm, Nat.mul_add_mod, Nat.mod_eq_of_lt hx], Nat.add_comm, Nat.add_mul_div_right _ _ (by omega), Nat.div_eq_of_lt hx, Nat.zero_add]

/-! Checks. -/

theorem checkDesc_ok {s : State} {n : DescId} {f : Format} (h : DescOk s n f) : s.checkDesc n f = .ok () := by
  obtain ⟨h1, h2, h3, h4⟩ := h
  unfold State.checkDesc
  rw [if_neg (by omega), if_neg (by omega), if_neg (by omega)]

theorem checkDesc_ok_iff {s : State} {n : DescId} {f : Format} : s.checkDesc n f = .ok () ↔ DescOk s n f := by
  refine ⟨fun h => ?_, checkDesc_ok⟩
  unfold State.checkDesc at h
  split at h
  · cases h
  · split at h
    · cases h
    · split at h
      · cases h
      · exact ⟨by omega, by omega, by omega, by omega⟩

/-- What the descriptor check raises (R76). -/
theorem checkDesc_cases (s : State) (n : DescId) (f : Format) :
    (s.checkDesc n f = .ok () ∧ DescOk s n f) ∨
    (s.checkDesc n f = raise .misaligned n.val ∧ s.baseOf n % s.cfg.bufAlign ≠ 0) ∨
    (s.checkDesc n f = raise .badDescriptor n.val ∧ s.baseOf n % s.cfg.bufAlign = 0 ∧
      (s.widthOf n = 0 ∨ s.heightOf n = 0 ∨ s.cfg.memSize < s.baseOf n + s.len n f)) := by
  by_cases h1 : s.baseOf n % s.cfg.bufAlign ≠ 0
  · exact .inr (.inl ⟨by simp [State.checkDesc, h1], h1⟩)
  · by_cases h2 : s.widthOf n = 0 ∨ s.heightOf n = 0
    · exact .inr (.inr ⟨by simp only [State.checkDesc]; rw [if_neg h1, if_pos h2], by omega, by omega⟩)
    · by_cases h3 : s.cfg.memSize < s.baseOf n + s.len n f
      · exact .inr (.inr ⟨by simp only [State.checkDesc]; rw [if_neg h1, if_neg h2, if_pos h3], by omega, by omega⟩)
      · exact .inl ⟨checkDesc_ok ⟨by omega, by omega, by omega, by omega⟩, by omega, by omega, by omega, by omega⟩

theorem checkSize_ok {s : State} {a n : DescId} (h : SameSize s a n) : s.checkSize a n = .ok () := by
  unfold State.checkSize; rw [if_neg (by omega)]

theorem checkSize_ok_iff {s : State} {a n : DescId} : s.checkSize a n = .ok () ↔ SameSize s a n := by
  refine ⟨fun h => ?_, checkSize_ok⟩
  unfold State.checkSize at h
  split at h
  · cases h
  · exact ⟨by omega, by omega⟩

theorem checkSize_error {s : State} {a n : DescId} (h : ¬ SameSize s a n) :
    s.checkSize a n = raise .badDescriptor (0x10 + n.val) := by
  unfold State.checkSize; rw [if_pos (by simp only [SameSize] at h; omega)]

theorem overlaps_eq_false_iff {s : State} {p q : Operand} : s.overlaps p q = false ↔ Apart s p q := by
  simp only [State.overlaps, Bool.and_eq_false_iff, decide_eq_false_iff_not, Apart]
  omega

theorem exactAlias_iff {s : State} {p q : Operand} : s.exactAlias p q = true ↔ Alias s p q := by
  simp only [State.exactAlias, Bool.and_eq_true, decide_eq_true_eq, Alias, and_assoc]

theorem clash_pointwise_iff {s : State} {d a : Operand} : s.clash .pointwise d a = false ↔ PointwiseOk s d a := by
  rw [PointwiseOk, ← overlaps_eq_false_iff, ← exactAlias_iff, State.clash]
  cases s.overlaps d a <;> cases s.exactAlias d a <;> simp

theorem clash_neighbourhood_iff {s : State} {d a : Operand} : s.clash .neighbourhood d a = false ↔ Apart s d a := by
  rw [← overlaps_eq_false_iff, State.clash]
  cases s.overlaps d a <;> simp

/-- The overlap check passes exactly when no pair of R81 fails. -/
theorem checkOverlap_ok_iff {s : State} {cls : CmdClass} {srcs dsts : List Operand} :
    s.checkOverlap cls srcs dsts = .ok () ↔
      (∀ d ∈ dsts, ∀ a ∈ srcs, s.clash cls d a = false) ∧ ∀ p ∈ pairs dsts, s.overlaps p.1 p.2 = false := by
  have hnil : s.clashes cls srcs dsts = [] ↔
      (∀ d ∈ dsts, ∀ a ∈ srcs, s.clash cls d a = false) ∧ ∀ p ∈ pairs dsts, s.overlaps p.1 p.2 = false := by
    simp only [State.clashes, List.append_eq_nil_iff, List.flatMap_eq_nil_iff, List.map_eq_nil_iff, List.filter_eq_nil_iff,
      Bool.not_eq_true]
  rw [← hnil]
  unfold State.checkOverlap
  cases h : s.clashes cls srcs dsts with
  | nil => simp
  | cons info rest => constructor <;> intro h <;> cases h

/-- The overlap check of a command with one source and one destination. -/
theorem checkOverlap_pair {s : State} {cls : CmdClass} {a d : Operand} :
    s.checkOverlap cls [a] [d] = if s.clash cls d a then raise .overlap (a.1.val + d.1.val * 2 ^ 4) else .ok () := by
  unfold State.checkOverlap State.clashes
  cases h : s.clash cls d a <;> simp [h, pairs]

theorem checkOverlap_pointwise {s : State} {a d : Operand} (h : PointwiseOk s d a) :
    s.checkOverlap .pointwise [a] [d] = .ok () := by
  rw [checkOverlap_pair, clash_pointwise_iff.mpr h]; rfl

theorem checkOverlap_neighbourhood {s : State} {a d : Operand} (h : Apart s d a) :
    s.checkOverlap .neighbourhood [a] [d] = .ok () := by
  rw [checkOverlap_pair, clash_neighbourhood_iff.mpr h]; rfl

/-! Reads of pixels. -/

theorem readByte_ok {s : State} {addr : Nat} (h : (Store.read s.mem addr).isSome = true) :
    ∃ b, Store.read s.mem addr = some b ∧ s.readByte addr = .ok b ∧ b.toNat = byteAt s addr := by
  obtain ⟨b, hb⟩ := Option.isSome_iff_exists.mp h
  exact ⟨b, hb, by simp [State.readByte, hb, written], by simp [byteAt, hb]⟩

/-- A pixel address lies in the extent (R74). -/
theorem pixel_offset_lt {w h bpp x y o : Nat} (hx : x < w) (hy : y < h) (ho : o < bpp) :
    (y * w + x) * bpp + o < w * h * bpp := by
  have h1 : y * w + x + 1 ≤ w * h := by nlinarith
  nlinarith

theorem readable_pixel {s : State} {n : DescId} {f : Format} (hr : Readable s n f) {x y o : Nat} (hx : x < s.widthOf n)
    (hy : y < s.heightOf n) (ho : o < s.bpp f) : (Store.read s.mem (s.paddr n f x y o)).isSome = true := by
  have := hr _ (pixel_offset_lt hx hy ho)
  rwa [← Nat.add_assoc] at this

theorem get8_ok {s : State} {n : DescId} {f : Format} (hr : Readable s n f) {x y o : Nat} (hx : x < s.widthOf n)
    (hy : y < s.heightOf n) (ho : o < s.bpp f) : s.get8 n f x y o = .ok (pixelAt s n f x y o) := by
  obtain ⟨b, _, h1, h2⟩ := readByte_ok (readable_pixel hr hx hy ho)
  unfold State.get8
  rw [h1]
  exact congrArg Except.ok h2

theorem get3_ok {s : State} {n : DescId} {f : Format} (hr : Readable s n f) {x y : Nat} (hx : x < s.widthOf n)
    (hy : y < s.heightOf n) (hf : 3 ≤ s.bpp f) :
    s.get3 n f x y = .ok (pixelAt s n f x y 0, pixelAt s n f x y 1, pixelAt s n f x y 2) := by
  unfold State.get3
  rw [get8_ok hr hx hy (by omega), get8_ok hr hx hy (by omega), get8_ok hr hx hy (by omega)]
  rfl

theorem pixelAt_lt (s : State) (n : DescId) (f : Format) (x y o : Nat) : pixelAt s n f x y o < 256 := by
  unfold pixelAt byteAt
  cases Store.read s.mem (s.paddr n f x y o) with
  | none => simp
  | some b => exact b.isLt

/-- A byte read as a number and stored again is the same byte. -/
theorem byteOf_toNat (b : Byte) : byteOf b.toNat = b := by simp [byteOf]

/-- A sum over raster indices is a sum over rows and columns. -/
theorem sum_range_mul {M : Type} [AddCommMonoid M] (n k : Nat) (f : Nat → M) :
    ∑ t ∈ Finset.range (n * k), f t = ∑ i ∈ Finset.range n, ∑ j ∈ Finset.range k, f (i * k + j) := by
  induction n with
  | zero => simp
  | succ n ih => rw [Nat.succ_mul, Finset.sum_range_add, ih, Finset.sum_range_succ]

/-! Rasters. -/

theorem raster_ok {w h : Nat} {px : Nat → Nat → Run (List Byte)} (g : Nat → Nat → List Byte)
    (hpx : ∀ x y, x < w → y < h → px x y = .ok (g x y)) :
    raster w h px = .ok ((List.range (w * h)).map fun i => g (i % w) (i / w)).flatten := by
  unfold raster
  rw [collect_map_ok (fun i => g (i % w) (i / w))]
  · rfl
  · intro i hi
    have hi := List.mem_range.mp hi
    have hw : 0 < w := by
      rcases Nat.eq_zero_or_pos w with rfl | h
      · simp at hi
      · exact h
    exact hpx _ _ (Nat.mod_lt _ hw) (Nat.div_lt_of_lt_mul hi)

/-- The bytes of a raster whose pixels all have `k` bytes: byte `o` of pixel `i` stands at `i * k + o`. -/
theorem flatten_map_range_getElem? {α : Type} (n k : Nat) (g : Nat → List α) (hk : ∀ i, i < n → (g i).length = k) {i o : Nat}
    (hi : i < n) (ho : o < k) : (((List.range n).map g).flatten)[i * k + o]? = (g i)[o]? := by
  induction n generalizing i g with
  | zero => omega
  | succ n ih =>
    rw [List.range_succ_eq_map, List.map_cons, List.flatten_cons, List.map_map]
    cases i with
    | zero => rw [List.getElem?_append_left (by rw [hk 0 (by omega)]; omega)]; simp
    | succ i =>
      have h0 := hk 0 (by omega)
      rw [List.getElem?_append_right (by rw [h0]; nlinarith), h0,
        show (i + 1) * k + o - k = i * k + o by rw [Nat.add_mul]; omega]
      exact ih (g ∘ Nat.succ) (fun j hj => hk _ (by omega)) (by omega)

theorem length_flatten_map_range {α : Type} (n k : Nat) (g : Nat → List α) (hk : ∀ i, i < n → (g i).length = k) :
    ((List.range n).map g).flatten.length = n * k := by
  rw [List.length_flatten, List.map_map]
  have : (List.range n).map (List.length ∘ g) = List.replicate n k := by
    rw [List.eq_replicate_iff]
    refine ⟨by simp, fun b hb => ?_⟩
    obtain ⟨i, hi, rfl⟩ := List.mem_map.mp hb
    exact hk i (List.mem_range.mp hi)
  rw [this, List.sum_replicate, smul_eq_mul]

/-- What memory holds after a raster of pixels of `k = bpp` bytes was written to the extent of `d` (R74, R77). -/
theorem putExtent_raster_inside {s : State} {d : DescId} {f : Format} (g : Nat → Nat → List Byte)
    (hlen : ∀ x y, x < s.widthOf d → y < s.heightOf d → (g x y).length = s.bpp f) {x y o : Nat} (hx : x < s.widthOf d)
    (hy : y < s.heightOf d) (ho : o < s.bpp f) :
    Store.read (s.putExtent d ((List.range (s.widthOf d * s.heightOf d)).map fun i =>
      g (i % s.widthOf d) (i / s.widthOf d)).flatten).mem (s.paddr d f x y o) = (g x y)[o]? := by
  have hw : 0 < s.widthOf d := by omega
  have hk : ∀ i, i < s.widthOf d * s.heightOf d → (g (i % s.widthOf d) (i / s.widthOf d)).length = s.bpp f :=
    fun i hi => hlen _ _ (Nat.mod_lt _ hw) (Nat.div_lt_of_lt_mul hi)
  have hi : y * s.widthOf d + x < s.widthOf d * s.heightOf d := by nlinarith
  have hget := flatten_map_range_getElem? _ _ (fun i => g (i % s.widthOf d) (i / s.widthOf d)) hk hi ho
  have hmod : (y * s.widthOf d + x) % s.widthOf d = x := by
    rw [Nat.mul_comm, Nat.mul_add_mod, Nat.mod_eq_of_lt hx]
  have hdiv : (y * s.widthOf d + x) / s.widthOf d = y := by
    rw [Nat.mul_comm, Nat.mul_add_div hw, Nat.div_eq_of_lt hx, Nat.add_zero]
  simp only [hmod, hdiv] at hget
  have hlt : (y * s.widthOf d + x) * s.bpp f + o <
      ((List.range (s.widthOf d * s.heightOf d)).map fun i => g (i % s.widthOf d) (i / s.widthOf d)).flatten.length := by
    rw [length_flatten_map_range _ _ _ hk]
    exact pixel_offset_lt hx hy ho
  rw [putExtent_mem, State.paddr, Nat.add_assoc, read_writeList_inside _ _ _ _ hlt, ← hget,
    List.getElem?_eq_getElem hlt]

theorem putExtent_outside {s : State} {d : DescId} {bytes : List Byte} {addr : Nat}
    (h : addr < s.baseOf d ∨ s.baseOf d + bytes.length ≤ addr) :
    Store.read (s.putExtent d bytes).mem addr = Store.read s.mem addr := by
  rw [putExtent_mem]; exact read_writeList_outside _ _ h

end Sys2Proof.Laws
end

