-- ==== Sys2Proof/Laws/Convolution.lean ====
section
/-! SUPPORT. What the operations of the convolution engine give when their sources have been written: SAMPLE, the
correlation sum, the Sobel and Laplacian responses (42_convolution R171, R172, R182, R184). -/

namespace Sys2Proof.Laws

open Sys2Proof.Machine Sys2Proof.Safety

theorem clamp_eq (v lo hi : Int) (h : lo ≤ hi) : clamp v lo hi = max lo (min v hi) := by
  unfold clamp
  split
  · rw [min_eq_left (by omega), max_eq_left (by omega)]
  · split
    · rw [min_eq_right (by omega), max_eq_right (by omega)]
    · rw [min_eq_left (by omega), max_eq_right (by omega)]

theorem clamp_byte (v : Int) : clamp v 0 255 = max 0 (min 255 v) := by rw [clamp_eq _ _ _ (by norm_num), min_comm]

theorem response_eq (s : State) (g : Int) : s.response g = responseOf s g := by
  unfold State.response responseOf
  rw [clamp_byte]

/-- Where SAMPLE may be called: anywhere, but only inside the source under SHRINK (R171). -/
abbrev SampleDefined (s : State) (a : DescId) (x y : Int) : Prop :=
  s.border = .shrink → 0 ≤ x ∧ x < s.widthOf a ∧ 0 ≤ y ∧ y < s.heightOf a

/-- SAMPLE of a written source (R171). -/
theorem sample_ok {s : State} {a : DescId} (hr : Readable s a .gray) (hw : 0 < s.widthOf a) (hh : 0 < s.heightOf a) {x y : Int}
    (hx : SampleDefined s a x y) : s.sample a x y = .ok (sampleAt s a x y) := by
  have get : ∀ x y : Int, 0 ≤ x → x < s.widthOf a → 0 ≤ y → y < s.heightOf a →
      (do let v ← s.get8 a .gray x.toNat y.toNat 0; return (v : Int)) =
        (Except.ok (pixelAt s a .gray x.toNat y.toNat 0 : Int) : Run Int) := by
    intro x y h1 h2 h3 h4
    rw [get8_ok hr (by omega) (by omega) Nat.one_pos]
    rfl
  unfold State.sample sampleAt
  cases hb : s.border with
  | replicate =>
    simp only
    rw [clamp_eq _ _ _ (by omega), clamp_eq _ _ _ (by omega)]
    exact get _ _ (by omega) (by omega) (by omega) (by omega)
  | zero =>
    simp only
    split
    · rename_i h
      exact get _ _ h.1 h.2.1 h.2.2.1 h.2.2.2
    · rfl
  | shrink =>
    obtain ⟨h1, h2, h3, h4⟩ := hx hb
    exact get _ _ h1 h2 h3 h4

/-- A SAMPLE that gives a value has read a written byte, if it has read one (R171, R265). -/
theorem sample_written {s : State} {a : DescId} {x y v : Int} (h : s.sample a x y = .ok v) : SampleWritten s a x y := by
  have get : ∀ {x y v : Int}, (do let v ← s.get8 a .gray x.toNat y.toNat 0; return (v : Int)) = (Except.ok v : Run Int) →
      (Store.read s.mem (s.paddr a .gray x.toNat y.toNat 0)).isSome = true := by
    intro x y v h
    obtain ⟨n, h, _⟩ := run_bind_ok_iff.mp h
    obtain ⟨b, h, _⟩ := run_bind_ok_iff.mp h
    unfold State.readByte written at h
    cases hr : Store.read s.mem (s.paddr a .gray x.toNat y.toNat 0) with
    | none => rw [hr] at h; cases h
    | some b => rfl
  unfold State.sample at h
  unfold SampleWritten
  cases hb : s.border with
  | replicate =>
    simp only [hb] at h
    simp only [if_true]
    intro h1 h2 h3 h4
    rw [clamp_eq _ _ _ (by omega), clamp_eq _ _ _ (by omega)] at h
    exact get h
  | zero =>
    simp only [hb] at h
    simp only [reduceCtorEq, if_false]
    intro h1 h2 h3 h4
    rw [if_pos ⟨h1, h2, h3, h4⟩] at h
    exact get h
  | shrink =>
    simp only [hb] at h
    simp only [reduceCtorEq, if_false]
    intro _ _ _ _
    exact get h

/-- The centre of an output pixel, and that its neighbourhood may be sampled (R171). -/
theorem centre_eq (s : State) (r o : Nat) : s.centre r o = ((o + cutOf s r : Nat) : Int) := by
  unfold State.centre cutOf
  split <;> simp

theorem neighbour_defined {s : State} {a d : DescId} {r : Nat} (ho : OutputSize s a d r) {x y : Nat} (hx : x < s.widthOf d)
    (hy : y < s.heightOf d) {dx dy : Int} (h1 : -r ≤ dx) (h2 : dx ≤ r) (h3 : -r ≤ dy) (h4 : dy ≤ r) :
    SampleDefined s a ((x + cutOf s r : Nat) + dx) ((y + cutOf s r : Nat) + dy) := by
  intro hb
  obtain ⟨ho1, ho2⟩ := ho
  rw [cutOf, if_pos hb] at ho1 ho2 ⊢
  push_cast
  omega

/-- A weight that has been written (R39). -/
theorem weight_ok {s : State} {i : Nat} (h : (Store.read s.kram i).isSome = true) : s.weight i = .ok (weightAt s.kram i) := by
  obtain ⟨w, hw⟩ := Option.isSome_iff_exists.mp h
  simp only [State.weight, weightAt, hw, written]
  rfl

/-- The correlation sum of CONV is the weighted sum of the neighbourhood (R172). -/
theorem correlate_ok {s : State} {a d : DescId} {k : Nat} (hr : Readable s a .gray) (hw : 0 < s.widthOf a)
    (hh : 0 < s.heightOf a) (hk : k % 2 = 1) (hf : Filled s.kram (k * k)) (ho : OutputSize s a d (k / 2)) {x y : Nat}
    (hx : x < s.widthOf d) (hy : y < s.heightOf d) :
    s.correlate a k (s.centre (k / 2) x) (s.centre (k / 2) y) = .ok (weightedSum s s.kram a k x y) := by
  unfold State.correlate
  rw [centre_eq, centre_eq, collect_map_ok (fun t => weightAt s.kram t *
    sampleAt s a ((x + cutOf s (k / 2) : Nat) + (t % k : Nat) - (k / 2 : Nat)) ((y + cutOf s (k / 2) : Nat) + (t / k : Nat) - (k / 2 : Nat)))]
  · refine congrArg Except.ok ?_
    refine (sum_range_mul k k _).trans ?_
    unfold weightedSum
    refine Finset.sum_congr rfl fun i hi => Finset.sum_congr rfl fun j hj => ?_
    have hj := Finset.mem_range.mp hj
    rw [show (i * k + j) % k = j by rw [Nat.mul_comm, Nat.mul_add_mod, Nat.mod_eq_of_lt hj],
      show (i * k + j) / k = i by rw [Nat.mul_comm, Nat.mul_add_div (by omega), Nat.div_eq_of_lt hj, Nat.add_zero]]
    push_cast
    rfl
  · intro t ht
    have ht := List.mem_range.mp ht
    have h1 : t % k < k := Nat.mod_lt _ (by omega)
    have h2 : t / k < k := Nat.div_lt_of_lt_mul ht
    rw [weight_ok (hf t ht)]
    generalize t % k = p at *
    generalize t / k = q at *
    have hs := sample_ok hr hw hh (neighbour_defined ho hx hy (dx := (p : Nat) - (k / 2 : Nat))
      (dy := (q : Nat) - (k / 2 : Nat)) (by omega) (by omega) (by omega) (by omega))
    rw [← add_sub_assoc, ← add_sub_assoc] at hs
    show (do let p ← s.sample a _ _; return weightAt s.kram t * p) = _
    rw [hs]
    rfl

/-- A neighbour of the middle pixel, for SOBEL and SHARPEN (R182). -/
theorem sample_around {s : State} {a d : DescId} (hr : Readable s a .gray) (hw : 0 < s.widthOf a) (hh : 0 < s.heightOf a)
    (ho : OutputSize s a d 1) {x y : Nat} (hx : x < s.widthOf d) (hy : y < s.heightOf d) {dx dy : Int} (h1 : -1 ≤ dx)
    (h2 : dx ≤ 1) (h3 : -1 ≤ dy) (h4 : dy ≤ 1) :
    s.sample a (s.centre 1 x + dx) (s.centre 1 y + dy) = .ok (around s a x y dx dy) := by
  rw [centre_eq, centre_eq]
  exact sample_ok hr hw hh (neighbour_defined ho hx hy h1 h2 h3 h4)

/-- The Sobel magnitude (R182, R183). -/
theorem sobelAt_ok {s : State} {a d : DescId} (hr : Readable s a .gray) (hw : 0 < s.widthOf a) (hh : 0 < s.heightOf a)
    (ho : OutputSize s a d 1) {x y : Nat} (hx : x < s.widthOf d) (hy : y < s.heightOf d) :
    s.sobelAt a (s.centre 1 x) (s.centre 1 y) = .ok (min (rsqrt
      (responseOf s (gradX (around s a x y)) * responseOf s (gradX (around s a x y)) +
        responseOf s (gradY (around s a x y)) * responseOf s (gradY (around s a x y))).toNat) 255) := by
  have at' : ∀ dx dy : Int, -1 ≤ dx → dx ≤ 1 → -1 ≤ dy → dy ≤ 1 →
      s.sample a (s.centre 1 x + dx) (s.centre 1 y + dy) = .ok (around s a x y dx dy) :=
    fun dx dy h1 h2 h3 h4 => sample_around hr hw hh ho hx hy h1 h2 h3 h4
  have e1 := at' (-1) (-1) (by norm_num) (by norm_num) (by norm_num) (by norm_num)
  have e2 := at' 0 (-1) (by norm_num) (by norm_num) (by norm_num) (by norm_num)
  have e3 := at' 1 (-1) (by norm_num) (by norm_num) (by norm_num) (by norm_num)
  have e4 := at' (-1) 0 (by norm_num) (by norm_num) (by norm_num) (by norm_num)
  have e5 := at' 1 0 (by norm_num) (by norm_num) (by norm_num) (by norm_num)
  have e6 := at' (-1) 1 (by norm_num) (by norm_num) (by norm_num) (by norm_num)
  have e7 := at' 0 1 (by norm_num) (by norm_num) (by norm_num) (by norm_num)
  have e8 := at' 1 1 (by norm_num) (by norm_num) (by norm_num) (by norm_num)
  simp only [← sub_eq_add_neg, add_zero] at e1 e2 e3 e4 e5 e6 e7 e8
  unfold State.sobelAt
  rw [e1, e2, e3, e4, e5, e6, e7, e8]
  refine congrArg Except.ok ?_
  rw [response_eq, response_eq]
  rfl

/-- The sharpened level (R184, R185). -/
theorem sharpenAt_ok {s : State} {a d : DescId} (hr : Readable s a .gray) (hw : 0 < s.widthOf a) (hh : 0 < s.heightOf a)
    (ho : OutputSize s a d 1) {x y : Nat} (hx : x < s.widthOf d) (hy : y < s.heightOf d) :
    s.sharpenAt a (s.centre 1 x) (s.centre 1 y) = .ok (clamp (rha (256 * around s a x y 0 0 +
      s16 s.sharpk * responseOf s (laplaceAt (around s a x y))) 256) 0 255) := by
  have at' : ∀ dx dy : Int, -1 ≤ dx → dx ≤ 1 → -1 ≤ dy → dy ≤ 1 →
      s.sample a (s.centre 1 x + dx) (s.centre 1 y + dy) = .ok (around s a x y dx dy) :=
    fun dx dy h1 h2 h3 h4 => sample_around hr hw hh ho hx hy h1 h2 h3 h4
  have e0 := at' 0 0 (by norm_num) (by norm_num) (by norm_num) (by norm_num)
  have e1 := at' 0 (-1) (by norm_num) (by norm_num) (by norm_num) (by norm_num)
  have e2 := at' (-1) 0 (by norm_num) (by norm_num) (by norm_num) (by norm_num)
  have e3 := at' 1 0 (by norm_num) (by norm_num) (by norm_num) (by norm_num)
  have e4 := at' 0 1 (by norm_num) (by norm_num) (by norm_num) (by norm_num)
  simp only [← sub_eq_add_neg, add_zero] at e0 e1 e2 e3 e4
  unfold State.sharpenAt
  rw [e0, e1, e2, e3, e4]
  refine congrArg Except.ok ?_
  rw [response_eq]
  rfl

/-- The Sobel magnitude has a value only if its eight samples have been written where they read (R182, R265). -/
theorem sobelAt_written {s : State} {a : DescId} {cx cy : Int} {m : Nat} (h : s.sobelAt a cx cy = .ok m) :
    ∀ o ∈ sobelOffsets, SampleWritten s a (cx + o.1) (cy + o.2) := by
  unfold State.sobelAt at h
  simp only [run_bind_ok_iff] at h
  obtain ⟨_, h1, _, h2, _, h3, _, h4, _, h5, _, h6, _, h7, _, h8, _⟩ := h
  have w1 := sample_written h1
  have w2 := sample_written h2
  have w3 := sample_written h3
  have w4 := sample_written h4
  have w5 := sample_written h5
  have w6 := sample_written h6
  have w7 := sample_written h7
  have w8 := sample_written h8
  simp only [sobelOffsets, List.forall_mem_cons, ← sub_eq_add_neg, add_zero]
  exact ⟨w1, w2, w3, w4, w5, w6, w7, w8, fun _ h => absurd h List.not_mem_nil⟩

/-- The sharpened level has a value only if its five samples have been written where they read (R184, R185, R265). -/
theorem sharpenAt_written {s : State} {a : DescId} {cx cy v : Int} (h : s.sharpenAt a cx cy = .ok v) :
    ∀ o ∈ sharpenOffsets, SampleWritten s a (cx + o.1) (cy + o.2) := by
  unfold State.sharpenAt at h
  simp only [run_bind_ok_iff] at h
  obtain ⟨_, h1, _, h2, _, h3, _, h4, _, h5, _⟩ := h
  have w1 := sample_written h1
  have w2 := sample_written h2
  have w3 := sample_written h3
  have w4 := sample_written h4
  have w5 := sample_written h5
  simp only [sharpenOffsets, List.forall_mem_cons, ← sub_eq_add_neg, add_zero]
  exact ⟨w1, w2, w3, w4, w5, fun _ h => absurd h List.not_mem_nil⟩

/-- DIMCHECK passes exactly when the destination has the size the border policy asks for (R171). -/
theorem dimcheck_ok_iff {s : State} {a d : DescId} {r : Nat} : s.dimcheck a d r = .ok () ↔ OutputSize s a d r := by
  unfold State.dimcheck OutputSize cutOf
  by_cases hb : s.border = .shrink
  · simp only [hb, if_true]
    split
    · constructor
      · intro h; cases h
      · intro h; omega
    · exact ⟨fun _ => by omega, fun _ => rfl⟩
  · simp only [hb, if_false]
    split
    · constructor
      · intro h; cases h
      · intro h; omega
    · exact ⟨fun _ => by omega, fun _ => rfl⟩

theorem dimcheck_error {s : State} {a d : DescId} {r : Nat} (h : ¬ OutputSize s a d r) :
    s.dimcheck a d r = raise .badDescriptor (0x10 + d.val) := by
  have hcases : s.dimcheck a d r = raise .badDescriptor (0x10 + d.val) ∨ s.dimcheck a d r = .ok () := by
    unfold State.dimcheck
    exact ite_eq_or_eq _ _ _
  exact hcases.resolve_right (mt dimcheck_ok_iff.mp h)

/-- The kernel checks (R170, R176). -/
theorem kcheck_ok {s : State} {kw kh : Nat} (h : kw = kh ∧ kw % 2 = 1 ∧ kw ≤ s.cfg.kmax) : s.kcheck kw kh = .ok () := by
  unfold State.kcheck
  rw [if_neg (by omega)]

theorem scheck_ok {s : State} {k : Nat} (h : k % 2 = 1 ∧ k ≤ s.cfg.kmax) : s.scheck k = .ok () := by
  unfold State.scheck
  rw [if_neg (by omega)]

theorem checkSigma_ok {s : State} (h : s.sigma ≠ 0) : s.checkSigma = .ok () := by
  unfold State.checkSigma
  rw [if_neg h]

end Sys2Proof.Laws
end

