-- ==== Sys2Proof/Laws/Decode.lean ====
section
/-! SUPPORT. The layout of the command word (30_encoding R100): fields read back from the word they make, and the word made
again from its fields. -/

namespace Sys2Proof.Laws

/-- The number a command word is. -/
theorem toNat_wordOf {op : Nat} (hop : op < 64) (f : Fields) :
    (wordOf op f).toNat =
      op + f.da.val * 64 + f.db.val * 512 + f.dc.val * 4096 + f.dd.val * 32768 + f.imm.toNat * 262144 := by
  have h1 := f.da.isLt
  have h2 := f.db.isLt
  have h3 := f.dc.isLt
  have h4 := f.dd.isLt
  have h5 := f.imm.isLt
  simp only [wordOf, BitVec.toNat_ofNat]
  omega

/-- OP is read back from the word. -/
theorem op_wordOf {op : Nat} (hop : op < 64) (f : Fields) : bits (wordOf op f) 5 0 = op := by
  rw [bits, toNat_wordOf hop]
  omega

/-- RSVD of the word is 0. -/
theorem rsvd_wordOf {op : Nat} (hop : op < 64) (f : Fields) : bits (wordOf op f) 31 26 = 0 := by
  have h1 := f.da.isLt
  have h2 := f.db.isLt
  have h3 := f.dc.isLt
  have h4 := f.dd.isLt
  have h5 := f.imm.isLt
  rw [bits, toNat_wordOf hop]
  omega

/-- Operand fields and immediate are read back from the word. -/
theorem fieldsOf_wordOf {op : Nat} (hop : op < 64) (f : Fields) : fieldsOf (wordOf op f) = f := by
  obtain ⟨da, db, dc, dd, imm⟩ := f
  have h1 := da.isLt
  have h2 := db.isLt
  have h3 := dc.isLt
  have h4 := dd.isLt
  have h5 := imm.isLt
  simp only [fieldsOf, Fields.mk.injEq]
  refine ⟨Fin.ext ?_, Fin.ext ?_, Fin.ext ?_, Fin.ext ?_, BitVec.eq_of_toNat_eq ?_⟩ <;>
    simp only [Fin.ofNat, BitVec.toNat_ofNat, bits, toNat_wordOf hop] <;> omega

/-- A word whose RSVD is 0 is the word of its own fields. -/
theorem wordOf_fieldsOf {w : Word} (h : bits w 31 26 = 0) : wordOf (bits w 5 0) (fieldsOf w) = w := by
  apply BitVec.eq_of_toNat_eq
  have hop : bits w 5 0 < 64 := by unfold bits; omega
  rw [toNat_wordOf hop]
  have hw := w.isLt
  simp only [fieldsOf, bits, Fin.ofNat, BitVec.toNat_ofNat] at *
  omega

/-- Every opcode is found under its code. -/
theorem opcodeOf_code (op : Opcode) : opcodeOf op.code = some op := by cases op <;> rfl

theorem code_lt (op : Opcode) : op.code < 64 := by cases op <;> decide

/-- An opcode is found only under its own code. -/
theorem code_of_opcodeOf {n : Nat} {op : Opcode} (h : opcodeOf n = some op) : op.code = n := by
  have := List.find?_some h
  simpa using this

/-- What a word that decodes looks like: an assigned opcode, no stray bit, and the command its fields make. -/
theorem decode_ok_iff {w : Word} {i : Instr} :
    decode w = .ok i ↔ ∃ op : Opcode, op.code = bits w 5 0 ∧ bits w 31 26 = 0 ∧ op.strayField (fieldsOf w) = false ∧
      op.immKind.strayBits (fieldsOf w).imm = false ∧ i = op.build (fieldsOf w) ∧ i.wellFormed = true := by
  unfold decode
  constructor
  · intro h
    cases ho : opcodeOf (bits w 5 0) with
    | none => rw [ho] at h; cases h
    | some op =>
      rw [ho] at h
      simp only at h
      split at h
      · cases h
      · split at h
        · cases h
        · split at h
          · cases h
          · split at h
            · injection h with h
              subst h
              exact ⟨op, code_of_opcodeOf ho, by omega, by simpa using ‹¬ op.strayField _ = true›, by simpa using ‹¬ op.immKind.strayBits _ = true›, rfl, ‹_›⟩
            · cases h
  · rintro ⟨op, ho, h1, h2, h3, rfl, h4⟩
    rw [← ho, opcodeOf_code]
    simp [h1, h2, h3, h4]

end Sys2Proof.Laws
end

