-- ==== Sys2Proof/Laws/Exec.lean ====
section
/-! SUPPORT. What a completion step can do, said once: `exec_cases`. If a command completes, either it ended in an error and
the state is unchanged but for the completion update, or its effects are the ones `Effect` names. -/

namespace Sys2Proof.Laws

open Sys2Proof.Machine Sys2Proof.Safety

/-- One destination extent was written whole, after its descriptor passed the check. -/
def WritesExtent (s : State) (d : DescId) (f : Format) (s' : State) : Prop :=
  ∃ bytes, bytes.length = s.len d f ∧ DescOk s d f ∧ s' = s.putExtent d bytes

/-- A kernel of side `k` was loaded. -/
def LoadsKernel (s : State) (k : Nat) (s' : State) : Prop := ∃ ws, ws.length = k * k ∧ s' = s.loadKernel k ws

/-- The shape of the effects of each command, before the completion update. -/
def Effect (s : State) : Instr → State → Prop
  | .nop, s' => s' = s
  | .alloc d f, s' => ∃ size, size = s.alen (s.widthOf d) (s.heightOf d) f ∧ s.allocPtr.toNat + size ≤ s.cfg.memSize ∧
      s' = s.allocate d size
  | .copy d _ f, s' => WritesExtent s d f s'
  | .gray d _, s' => WritesExtent s d .gray s'
  | .split b c d _, s' => ∃ s1 s2, WritesExtent s b .gray s1 ∧ WritesExtent s1 c .gray s2 ∧ WritesExtent s2 d .gray s'
  | .merge d _ _ _, s' => WritesExtent s d .rgb s'
  | .rgb2hsv d _, s' => WritesExtent s d .hsv s'
  | .hsv2rgb d _, s' => WritesExtent s d .rgb s'
  | .matx d _ _, s' => WritesExtent s d .rgb s'
  | .lut d _ f, s' => WritesExtent s d f s'
  | .conv d _, s' => WritesExtent s d .gray s'
  | .kgauss k, s' => k.toNat ≤ s.cfg.kmax ∧ LoadsKernel s k.toNat s'
  | .ksobelh, s' => LoadsKernel s 3 s'
  | .ksobelv, s' => LoadsKernel s 3 s'
  | .klapl, s' => LoadsKernel s 3 s'
  | .sobel d _, s' => WritesExtent s d .gray s'
  | .sharpen d _, s' => WritesExtent s d .gray s'
  | .blur d _ k, s' => k.toNat ≤ s.cfg.kmax ∧ ∃ s1, LoadsKernel s k.toNat s1 ∧ WritesExtent s1 d .gray s'
  | .hist _ _, s' => ∃ vs, vs.length = 256 ∧ s' = { s with hist := Store.ofListFrom 0 vs }
  | .cum _, s' => ∃ vs, vs.length = 256 ∧ s' = { s with cum := Store.ofListFrom 0 vs }
  | .equalize d _ _, s' => ∃ cs ts, cs.length = 256 ∧ ts.length = 256 ∧
      WritesExtent { s with cum := Store.ofListFrom 0 cs, lut := Store.ofListFrom 0 ts } d .gray s'
  | .stretch d _ _, s' => WritesExtent s d .gray s'

/-! Lengths of what the commands write. -/

theorem raster_length {w h : Nat} {px : Nat → Nat → Run (List Byte)} {bytes : List Byte} (k : Nat)
    (hpx : ∀ x y bs, px x y = .ok bs → bs.length = k) (hb : raster w h px = .ok bytes) : bytes.length = w * h * k := by
  unfold raster at hb
  obtain ⟨rows, hr, hb⟩ := run_bind_ok_iff.mp hb
  injection hb with hb
  subst hb
  have hrows := collect_ok_iff.mp hr
  have hlen : ∀ r ∈ rows, r.length = k := by
    intro r hr
    have : (.ok r : Run (List Byte)) ∈ (List.range (w * h)).map fun i => px (i % w) (i / w) := by
      rw [hrows]; exact List.mem_map_of_mem hr
    obtain ⟨i, -, hi⟩ := List.mem_map.mp this
    exact hpx _ _ _ hi
  have hcount : rows.length = w * h := by
    have := congrArg List.length hrows
    simpa using this.symm
  rw [List.length_flatten, List.map_congr_left (g := fun _ => k) hlen, List.map_const', List.sum_replicate, hcount, smul_eq_mul]

theorem runningSums_length (acc : Nat) (hs : List Nat) : (runningSums acc hs).length = hs.length := by
  induction hs generalizing acc with
  | nil => rfl
  | cons h hs ih => simp [runningSums, ih]

theorem cumf_length {counts : List Nat} (h : counts.length ≤ 256) : (cumf counts).length = 256 := by
  simp only [cumf, List.length_append, List.length_replicate, runningSums_length]
  omega

theorem counts_length {s : State} {l : Byte} {cs : List Nat} (h : s.counts l.toNat = .ok cs) : cs.length ≤ 256 := by
  have := collect_length h
  rw [this, List.length_map, List.length_range]
  have := l.isLt
  omega

theorem levels_length {s : State} {a : DescId} {px : List Nat} (h : s.levels a = .ok px) :
    px.length = s.widthOf a * s.heightOf a := by
  have := collect_length h
  simpa using this

theorem len_of_sameSize {s : State} {a d : DescId} (f : Format) (h : SameSize s a d) : s.len d f = s.len a f := by
  simp only [State.len, h.1, h.2]

/-- A raster over the source, written to a destination of the same size. -/
theorem writesExtent_raster {s s1 : State} {d a : DescId} {f : Format} {px : Nat → Nat → Run (List Byte)} {bytes : List Byte}
    (hd : DescOk s d f) (hs : SameSize s a d) (hpx : ∀ x y bs, px x y = .ok bs → bs.length = s.bpp f)
    (hb : raster (s.widthOf a) (s.heightOf a) px = .ok bytes) (h : s1 = s.putExtent d bytes) : WritesExtent s d f s1 :=
  ⟨bytes, by rw [raster_length _ hpx hb, State.len, hs.1, hs.2], hd, h⟩

/-- A raster over the destination itself. -/
theorem writesExtent_raster_self {s s1 : State} {d : DescId} {f : Format} {px : Nat → Nat → Run (List Byte)}
    {bytes : List Byte} (hd : DescOk s d f) (hpx : ∀ x y bs, px x y = .ok bs → bs.length = s.bpp f)
    (hb : raster (s.widthOf d) (s.heightOf d) px = .ok bytes) (h : s1 = s.putExtent d bytes) : WritesExtent s d f s1 :=
  writesExtent_raster hd ⟨rfl, rfl⟩ hpx hb h

theorem ok_inj {α : Type} {a b : α} (h : (Except.ok a : Run α) = .ok b) : b = a := by injection h with h; exact h.symm

theorem exec_cases {i : Instr} {s t : State} (h : exec i s = .next t) :
    (∃ e info, t = s.complete (some (e, info))) ∨ ∃ s', Effect s i s' ∧ t = s'.complete none := by
  have key : ∀ r : Run State, s.finish r = .next t → (∀ s', r = .ok s' → Effect s i s') →
      (∃ e info, t = s.complete (some (e, info))) ∨ ∃ s', Effect s i s' ∧ t = s'.complete none := by
    intro r hr he
    rcases finish_next_iff.mp hr with ⟨s', hok, rfl⟩ | ⟨e, info, _, rfl⟩
    · exact .inr ⟨s', he s' hok, rfl⟩
    · exact .inl ⟨e, info, rfl⟩
  cases i with
  | nop => exact key (.ok s) h fun s' hr => ok_inj hr
  | alloc d f =>
    refine key _ h fun s' hr => ?_
    split at hr
    · cases hr
    · dsimp only at hr
      split at hr
      · cases hr
      · exact ⟨_, rfl, by omega, ok_inj hr⟩
  | copy d a f =>
    refine key _ h fun s' hr => ?_
    simp only [run_bind_ok_iff] at hr
    obtain ⟨_, _, _, hd, _, hs, _, _, bytes, hb, hr⟩ := hr
    have hs := checkSize_ok_iff.mp hs
    exact ⟨bytes, by rw [collect_length hb, List.length_map, List.length_range, len_of_sameSize f hs],
      checkDesc_ok_iff.mp hd, ok_inj hr⟩
  | gray d a =>
    refine key _ h fun s' hr => ?_
    simp only [run_bind_ok_iff] at hr
    obtain ⟨_, _, _, hd, _, hs, _, _, bytes, hb, hr⟩ := hr
    refine writesExtent_raster (checkDesc_ok_iff.mp hd) (checkSize_ok_iff.mp hs) (fun x y bs hp => ?_) hb (ok_inj hr)
    obtain ⟨⟨r, g, b⟩, _, hp⟩ := run_bind_ok_iff.mp hp
    rw [ok_inj hp]; rfl
  | split b c d a =>
    refine key _ h fun s' hr => ?_
    simp only [run_bind_ok_iff] at hr
    obtain ⟨_, _, _, hb, _, hc, _, hd, _, sb, _, sc, _, sd, _, _, b0, h0, b1, h1, b2, h2, hr⟩ := hr
    have plane : ∀ o x y (bs : List Byte), (do let v ← s.get8 a .rgb x y o; return [byteOf v]) = (Except.ok bs : Run _) →
        bs.length = s.bpp .gray := fun o x y bs hp => by
      obtain ⟨v, _, hp⟩ := run_bind_ok_iff.mp hp
      rw [ok_inj hp]; rfl
    have hb := checkDesc_ok_iff.mp hb
    have hc := checkDesc_ok_iff.mp hc
    have hd := checkDesc_ok_iff.mp hd
    refine ⟨_, _, writesExtent_raster hb (checkSize_ok_iff.mp sb) (plane 0) h0 rfl,
      ⟨b1, ?_, hc, rfl⟩, ⟨b2, ?_, hd, ok_inj hr⟩⟩
    · rw [raster_length _ (plane 1) h1]
      have hs := checkSize_ok_iff.mp sc
      exact congrArg₂ (· * · * _) hs.1.symm hs.2.symm
    · rw [raster_length _ (plane 2) h2]
      have hs := checkSize_ok_iff.mp sd
      exact congrArg₂ (· * · * _) hs.1.symm hs.2.symm
  | merge d a b c =>
    refine key _ h fun s' hr => ?_
    simp only [run_bind_ok_iff] at hr
    obtain ⟨_, _, _, _, _, _, _, hd, _, _, _, _, _, hs, _, _, bytes, hb, hr⟩ := hr
    refine writesExtent_raster (checkDesc_ok_iff.mp hd) (checkSize_ok_iff.mp hs) (fun x y bs hp => ?_) hb (ok_inj hr)
    simp only [run_bind_ok_iff] at hp
    obtain ⟨_, _, _, _, _, _, hp⟩ := hp
    rw [ok_inj hp]; rfl
  | rgb2hsv d a =>
    refine key _ h fun s' hr => ?_
    simp only [run_bind_ok_iff] at hr
    obtain ⟨_, _, _, hd, _, hs, _, _, hr⟩ := hr
    have hr : ∃ bytes, raster (s.widthOf a) (s.heightOf a) (fun x y => do
        let (r, g, b) ← s.get3 a .rgb x y
        let (h, sat, v) := hsvForward r g b
        return s.hsvBytes h sat v) = .ok bytes ∧ s' = s.putExtent d bytes := by
      split at hr
      · obtain ⟨_, _, hr⟩ := run_bind_ok_iff.mp hr
        obtain ⟨bytes, hb, hr⟩ := run_bind_ok_iff.mp hr
        exact ⟨bytes, hb, ok_inj hr⟩
      · obtain ⟨bytes, hb, hr⟩ := run_bind_ok_iff.mp hr
        exact ⟨bytes, hb, ok_inj hr⟩
    obtain ⟨bytes, hb, hr⟩ := hr
    refine writesExtent_raster (checkDesc_ok_iff.mp hd) (checkSize_ok_iff.mp hs) (fun x y bs hp => ?_) hb hr
    obtain ⟨⟨r, g, b⟩, _, hp⟩ := run_bind_ok_iff.mp hp
    rw [ok_inj hp, State.hsvBytes, State.bpp]
    cases s.packed <;> rfl
  | hsv2rgb d a =>
    refine key _ h fun s' hr => ?_
    simp only [run_bind_ok_iff] at hr
    obtain ⟨_, _, _, hd, _, hs, _, _, bytes, hb, hr⟩ := hr
    refine writesExtent_raster (checkDesc_ok_iff.mp hd) (checkSize_ok_iff.mp hs) (fun x y bs hp => ?_) hb (ok_inj hr)
    obtain ⟨⟨r, g, b⟩, _, hp⟩ := run_bind_ok_iff.mp hp
    rw [ok_inj hp]; rfl
  | matx d a bank =>
    refine key _ h fun s' hr => ?_
    simp only [run_bind_ok_iff] at hr
    obtain ⟨_, _, _, hd, _, hs, _, _, bytes, hb, hr⟩ := hr
    refine writesExtent_raster (checkDesc_ok_iff.mp hd) (checkSize_ok_iff.mp hs) (fun x y bs hp => ?_) hb (ok_inj hr)
    obtain ⟨⟨r, g, b⟩, _, hp⟩ := run_bind_ok_iff.mp hp
    rw [ok_inj hp]; rfl
  | lut d a f =>
    refine key _ h fun s' hr => ?_
    split at hr
    · obtain ⟨_, hr, _⟩ := run_bind_ok_iff.mp hr
      cases hr
    · simp only [run_bind_ok_iff] at hr
      obtain ⟨_, _, _, hd, _, hs, _, _, bytes, hb, hr⟩ := hr
      have hs := checkSize_ok_iff.mp hs
      exact ⟨bytes, by rw [collect_length hb, List.length_map, List.length_range, len_of_sameSize f hs],
        checkDesc_ok_iff.mp hd, ok_inj hr⟩
  | conv d a =>
    refine key _ h fun s' hr => ?_
    simp only [run_bind_ok_iff] at hr
    obtain ⟨_, _, _, hd, _, _, _, _, _, _, bytes, hb, hr⟩ := hr
    refine writesExtent_raster_self (checkDesc_ok_iff.mp hd) (fun x y bs hp => ?_) hb (ok_inj hr)
    obtain ⟨_, _, hp⟩ := run_bind_ok_iff.mp hp
    rw [ok_inj hp]; rfl
  | kgauss k =>
    refine key _ h fun s' hr => ?_
    simp only [run_bind_ok_iff] at hr
    obtain ⟨_, hk, _, _, hr⟩ := hr
    unfold State.scheck at hk
    split at hk
    · cases hk
    · exact ⟨by omega, _, by simp [gaussWeights], ok_inj hr⟩
  | ksobelh =>
    exact key (.ok (s.loadKernel 3 (sobelH.map fun q => 65536 * q))) h fun s' hr => ⟨_, rfl, ok_inj hr⟩
  | ksobelv =>
    exact key (.ok (s.loadKernel 3 (sobelV.map fun q => 65536 * q))) h fun s' hr => ⟨_, rfl, ok_inj hr⟩
  | klapl =>
    exact key (.ok (s.loadKernel 3 (laplacian.map fun q => 65536 * q))) h fun s' hr => ⟨_, rfl, ok_inj hr⟩
  | sobel d a =>
    refine key _ h fun s' hr => ?_
    simp only [run_bind_ok_iff] at hr
    obtain ⟨_, _, _, hd, _, _, _, _, bytes, hb, hr⟩ := hr
    refine writesExtent_raster_self (checkDesc_ok_iff.mp hd) (fun x y bs hp => ?_) hb (ok_inj hr)
    obtain ⟨_, _, hp⟩ := run_bind_ok_iff.mp hp
    rw [ok_inj hp]; rfl
  | sharpen d a =>
    refine key _ h fun s' hr => ?_
    simp only [run_bind_ok_iff] at hr
    obtain ⟨_, _, _, hd, _, _, _, _, bytes, hb, hr⟩ := hr
    refine writesExtent_raster_self (checkDesc_ok_iff.mp hd) (fun x y bs hp => ?_) hb (ok_inj hr)
    obtain ⟨_, _, hp⟩ := run_bind_ok_iff.mp hp
    rw [ok_inj hp]; rfl
  | blur d a k =>
    refine key _ h fun s' hr => ?_
    simp only [run_bind_ok_iff] at hr
    obtain ⟨_, _, _, hd, _, hk, _, _, _, _, _, _, bytes, hb, hr⟩ := hr
    unfold State.scheck at hk
    split at hk
    · cases hk
    · refine ⟨by omega, _, ⟨gaussWeights k.toNat s.sigma, by simp [gaussWeights], rfl⟩, ?_⟩
      refine writesExtent_raster_self (checkDesc_ok_iff.mp hd) (fun x y bs hp => ?_) hb (ok_inj hr)
      obtain ⟨_, _, hp⟩ := run_bind_ok_iff.mp hp
      rw [ok_inj hp]; rfl
  | hist a l =>
    refine key _ h fun s' hr => ?_
    obtain ⟨_, _, hr⟩ := run_bind_ok_iff.mp hr
    obtain ⟨px, _, hr⟩ := run_bind_ok_iff.mp hr
    exact ⟨_, by rw [List.length_map, List.length_range], ok_inj hr⟩
  | cum l =>
    refine key _ h fun s' hr => ?_
    obtain ⟨cs, hc, hr⟩ := run_bind_ok_iff.mp hr
    exact ⟨_, by rw [List.length_map, cumf_length (counts_length hc)], ok_inj hr⟩
  | equalize d a l =>
    refine key _ h fun s' hr => ?_
    simp only [run_bind_ok_iff] at hr
    obtain ⟨_, _, _, hd, _, hs, _, _, cs, hc, px, hp, hr⟩ := hr
    have hcl := cumf_length (counts_length hc)
    have hs := checkSize_ok_iff.mp hs
    refine ⟨_, _, ?_, ?_, _, ?_, checkDesc_ok_iff.mp hd, ok_inj hr⟩
    · rw [List.length_map, hcl]
    · rw [List.length_map, equalizeTable, List.length_map, hcl]
    · rw [List.length_map, levels_length hp, ← hs.1, ← hs.2]
      exact (Nat.mul_one _).symm
  | stretch d a l =>
    refine key _ h fun s' hr => ?_
    simp only [run_bind_ok_iff] at hr
    obtain ⟨_, _, _, hd, _, hs, _, _, cs, hc, hr⟩ := hr
    have hs := checkSize_ok_iff.mp hs
    split at hr
    · obtain ⟨_, hr, _⟩ := run_bind_ok_iff.mp hr
      cases hr
    · obtain ⟨px, hp, hr⟩ := run_bind_ok_iff.mp hr
      refine ⟨_, ?_, checkDesc_ok_iff.mp hd, ok_inj hr⟩
      rw [List.length_map, levels_length hp, State.len, hs.1, hs.2]
      exact (Nat.mul_one _).symm

end Sys2Proof.Laws
end

