-- ==== Sys2Proof/Laws/Flags.lean ====
section
/-! SUPPORT. What each change of STATUS and CTRL does, bit by bit, and to ERRCODE and BORDER (10_state R25 to R29, 60_exceptions
R222, R226). -/

namespace Sys2Proof.Laws

open Sys2Proof.Machine

theorem statusWrite_bit (w v : Word) (i : Nat) :
    (statusWrite w v).getLsbD i = (w.getLsbD i && !((i == 1 || i == 2 || i == 3) && v.getLsbD i)) := by
  unfold statusWrite
  rcases Nat.lt_or_ge i 32 with hi | hi
  · interval_cases i <;> simp
  · simp [hi]

theorem statusAccepted_bit (w : Word) (i : Nat) :
    (statusAccepted w).getLsbD i = (i == 0 || (w.getLsbD i && i != 1 && i != 2)) := by
  unfold statusAccepted
  rcases Nat.lt_or_ge i 32 with hi | hi
  · interval_cases i <;> simp
  · simp [hi]
    omega

theorem statusOverrun_bit (w : Word) (i : Nat) : (statusOverrun w).getLsbD i = (i == 3 || w.getLsbD i) := by
  unfold statusOverrun
  rcases Nat.lt_or_ge i 32 with hi | hi
  · interval_cases i <;> simp
  · simp [hi]
    omega

theorem statusDone_bit (w : Word) (i : Nat) :
    (statusDone w).getLsbD i = (i == 1 || (w.getLsbD i && i != 0 && !(8 ≤ i && i ≤ 11))) := by
  unfold statusDone
  rcases Nat.lt_or_ge i 32 with hi | hi
  · interval_cases i <;> simp
  · simp [hi]
    omega

theorem statusFailed_bit (w : Word) (e : Error) (i : Nat) :
    (statusFailed w e.code).getLsbD i =
      (i == 1 || i == 2 || (w.getLsbD i && i != 0 && !(8 ≤ i && i ≤ 11)) || (8 ≤ i && i ≤ 11 && e.code.testBit (i - 8))) := by
  have hc : e.code < 2 ^ 4 := by cases e <;> decide
  have hhigh : ∀ j, 4 ≤ j → e.code.testBit j = false := fun j hj =>
    Nat.testBit_lt_two_pow (hc.trans_le (Nat.pow_le_pow_right (by norm_num) hj))
  unfold statusFailed
  generalize e.code = c at *
  rcases Nat.lt_or_ge i 32 with hi | hi
  · simp only [BitVec.getLsbD_or, BitVec.getLsbD_ofNat, Nat.testBit_mul_two_pow]
    interval_cases i <;> simp [hhigh]
  · simp [hi]
    omega

/-- A field of four bits, as a bit vector. -/
theorem errcode_field (w : Word) : bits w 11 8 = ((w >>> 8).setWidth 4).toNat := by
  simp [bits, Nat.shiftRight_eq_div_pow]

theorem statusDone_errcode (w : Word) : bits (statusDone w) 11 8 = 0 := by
  have h : ((statusDone w) >>> 8).setWidth 4 = 0#4 := by
    ext i hi
    simp only [BitVec.getElem_setWidth, BitVec.getLsbD_ushiftRight, statusDone_bit]
    interval_cases i <;> simp
  rw [errcode_field, h]
  rfl

theorem statusFailed_errcode (w : Word) (e : Error) : bits (statusFailed w e.code) 11 8 = e.code := by
  have h : ((statusFailed w e.code) >>> 8).setWidth 4 = BitVec.ofNat 4 e.code := by
    apply BitVec.eq_of_getLsbD_eq
    intro i hi
    rw [BitVec.getLsbD_setWidth, BitVec.getLsbD_ushiftRight, statusFailed_bit, BitVec.getLsbD_ofNat]
    interval_cases i <;> simp
  rw [errcode_field, h]
  cases e <;> rfl

/-- An error code is from 1 to 9 (R221). -/
theorem code_range (e : Error) : 1 ≤ e.code ∧ e.code ≤ 9 := by cases e <;> decide

/-- BORDER after a CTRL write (R26). -/
theorem ctrlWrite_border (old v : Word) :
    bits (ctrlWrite old v) 1 0 = if bits v 1 0 = 3 then bits old 1 0 else bits v 1 0 := by
  have field : ∀ w : Word, bits w 1 0 = (w.setWidth 2).toNat := fun w => by simp [bits]
  unfold ctrlWrite
  split
  · have h : (v &&& 0x30C#32 ||| old &&& 0x3#32).setWidth 2 = old.setWidth 2 := by
      ext i hi
      interval_cases i <;> simp
    rw [field, field]
    exact congrArg BitVec.toNat h
  · have h : (v &&& 0x30F#32).setWidth 2 = v.setWidth 2 := by
      ext i hi
      interval_cases i <;> simp
    rw [field, field]
    exact congrArg BitVec.toNat h

/-- The other bits of CTRL after a write (R25). -/
theorem ctrlWrite_bit (old v : Word) {i : Nat} (hi : 2 ≤ i) :
    (ctrlWrite old v).getLsbD i = ((i == 2 || i == 3 || i == 8 || i == 9) && v.getLsbD i) := by
  unfold ctrlWrite
  rcases Nat.lt_or_ge i 32 with h | h
  · split <;> interval_cases i <;> simp
  · split <;> simp [h]

end Sys2Proof.Laws
end

