-- ==== Sys2Proof/Laws/Histogram.lean ====
section
/-! SUPPORT. What the operations of the histogram engine give: levels and counts that have been written, the cumulative
function, the two anchors of STRETCH (43_histogram R200 to R204). -/

namespace Sys2Proof.Laws

open Sys2Proof.Machine Sys2Proof.Safety

/-- The levels of a written GRAY buffer in raster order. -/
theorem levels_ok {s : State} {a : DescId} (hr : Readable s a .gray) :
    s.levels a = .ok ((List.range (s.widthOf a * s.heightOf a)).map fun i =>
      pixelAt s a .gray (i % s.widthOf a) (i / s.widthOf a) 0) := by
  refine collect_map_ok _ fun i hi => ?_
  have hi := List.mem_range.mp hi
  have hw : 0 < s.widthOf a := by
    rcases Nat.eq_zero_or_pos (s.widthOf a) with h | h
    · rw [h, Nat.zero_mul] at hi; omega
    · exact h
  exact get8_ok hr (Nat.mod_lt _ hw) (Nat.div_lt_of_lt_mul hi) Nat.one_pos

/-- The counts `HIST[0..l]` that have been written. -/
theorem counts_ok {s : State} {l : Nat} (hf : Filled s.hist (l + 1)) :
    s.counts l = .ok ((List.range (l + 1)).map (entryAt s.hist)) := by
  refine collect_map_ok _ fun v hv => ?_
  obtain ⟨w, hw⟩ := Option.isSome_iff_exists.mp (hf v (List.mem_range.mp hv))
  simp only [hw, written, entryAt]
  rfl

/-- The number of occurrences of a level in raster order is the number of pixels with that level. -/
theorem count_levels (s : State) (a : DescId) (v : Nat) :
    ((List.range (s.widthOf a * s.heightOf a)).map fun i =>
      pixelAt s a .gray (i % s.widthOf a) (i / s.widthOf a) 0).count v = pixelCount s a v := by
  have hcount : ∀ (n : Nat) (g : Nat → Nat), ((List.range n).map g).count v = ∑ t ∈ Finset.range n, if g t = v then 1 else 0 := by
    intro n g
    induction n with
    | zero => simp
    | succ n ih =>
      rw [List.range_succ, List.map_append, List.count_append, ih, Finset.sum_range_succ]
      simp [List.count_cons]
  rw [hcount, Nat.mul_comm, sum_range_mul, pixelCount, Finset.card_filter, Finset.sum_product]
  refine Finset.sum_congr rfl fun i _ => Finset.sum_congr rfl fun j hj => ?_
  have hj := Finset.mem_range.mp hj
  rw [show (i * s.widthOf a + j) % s.widthOf a = j by rw [Nat.mul_comm, Nat.mul_add_mod, Nat.mod_eq_of_lt hj],
    show (i * s.widthOf a + j) / s.widthOf a = i by
      rw [Nat.mul_comm, Nat.mul_add_div (by omega), Nat.div_eq_of_lt hj, Nat.add_zero]]

/-- A width or a height is below 2^16. -/
theorem widthOf_lt (s : State) (n : DescId) : s.widthOf n < 65536 := by
  unfold State.widthOf bits
  omega

theorem heightOf_lt (s : State) (n : DescId) : s.heightOf n < 65536 := by
  unfold State.heightOf bits
  omega

/-- A count never overflows 32 bits (R204). -/
theorem pixelCount_le (s : State) (a : DescId) (v : Nat) : pixelCount s a v ≤ s.widthOf a * s.heightOf a := by
  unfold pixelCount
  refine (Finset.card_filter_le _ _).trans ?_
  rw [Finset.card_product, Finset.card_range, Finset.card_range, Nat.mul_comm]

theorem area_lt (s : State) (a : DescId) : s.widthOf a * s.heightOf a < 2 ^ 32 - 1 := by
  have h1 := widthOf_lt s a
  have h2 := heightOf_lt s a
  have : s.widthOf a * s.heightOf a ≤ 65535 * 65535 := Nat.mul_le_mul (by omega) (by omega)
  omega

/-- The running sums of a list of counts (R201). -/
theorem runningSums_range (h : Nat → Nat) (l : Nat) (n : Nat) (hn : n ≤ l + 1) :
    runningSums 0 ((List.range n).map h) = (List.range n).map (cumulative h l) := by
  have step : ∀ (xs : List Nat) (acc x : Nat), runningSums acc (xs ++ [x]) =
      runningSums acc xs ++ [min ((runningSums acc xs).getLastD acc + x) (2 ^ 32 - 1)] := by
    intro xs
    induction xs with
    | nil => intro acc x; simp [runningSums]
    | cons y ys ih =>
      intro acc x
      rw [List.cons_append, runningSums, ih, runningSums, List.cons_append]
      congr 3
      cases hys : runningSums (min (acc + y) (2 ^ 32 - 1)) ys with
      | nil => simp
      | cons z zs => simp only [List.getLastD_cons]
  induction n with
  | zero => rfl
  | succ n ih =>
    rw [List.range_succ, List.map_append, List.map_append, List.map_singleton, List.map_singleton, step, ih (by omega)]
    congr 2
    cases n with
    | zero => simp [cumulative]
    | succ m =>
      rw [List.range_succ, List.map_append, List.map_singleton]
      simp only [List.getLastD_concat, cumulative]
      rw [if_pos (by omega)]

/-- Above `l` the cumulative function is constant (R201). -/
theorem cumulative_above (h : Nat → Nat) {l v : Nat} (hv : l ≤ v) : cumulative h l v = cumulative h l l := by
  induction v with
  | zero => rw [Nat.le_zero.mp hv]
  | succ v ih =>
    rcases Nat.eq_or_lt_of_le hv with rfl | hlt
    · rfl
    · rw [cumulative, if_neg (by omega), ih (by omega)]

/-- `cumf` is `CUMF` (R201). -/
theorem cumf_eq (h : Nat → Nat) {l : Nat} (hl : l < 256) :
    cumf ((List.range (l + 1)).map h) = (List.range 256).map (cumulative h l) := by
  have hs := runningSums_range h l (l + 1) (Nat.le_refl _)
  unfold cumf
  simp only [hs]
  have hlast : ((List.range (l + 1)).map (cumulative h l)).getLastD 0 = cumulative h l l := by
    rw [List.range_succ, List.map_append, List.map_singleton, List.getLastD_concat]
  rw [hlast, List.length_map, List.length_range]
  apply List.ext_getElem
  · simp; omega
  · intro n h1 h2
    rw [List.getElem_append]
    split
    · simp
    · simp only [List.getElem_replicate, List.getElem_map, List.getElem_range]
      rename_i hn
      simp at hn
      exact (cumulative_above h (by omega)).symm

theorem foldl_min_spec (xs : List Nat) (a : Nat) :
    (xs.foldl min a = a ∨ xs.foldl min a ∈ xs) ∧ xs.foldl min a ≤ a ∧ ∀ x ∈ xs, xs.foldl min a ≤ x := by
  induction xs generalizing a with
  | nil => simp
  | cons y ys ih =>
    obtain ⟨h1, h2, h3⟩ := ih (min a y)
    rw [List.foldl_cons]
    refine ⟨?_, h2.trans (Nat.min_le_left _ _), fun x hx => ?_⟩
    · rcases h1 with h1 | h1
      · rcases Nat.le_total a y with h | h
        · exact .inl (h1.trans (Nat.min_eq_left h))
        · exact .inr (List.mem_cons.mpr (.inl (h1.trans (Nat.min_eq_right h))))
      · exact .inr (List.mem_cons_of_mem _ h1)
    · rcases List.mem_cons.mp hx with rfl | hx
      · exact h2.trans (Nat.min_le_right _ _)
      · exact h3 x hx

theorem foldl_max_spec (xs : List Nat) (a : Nat) :
    (xs.foldl max a = a ∨ xs.foldl max a ∈ xs) ∧ a ≤ xs.foldl max a ∧ ∀ x ∈ xs, x ≤ xs.foldl max a := by
  induction xs generalizing a with
  | nil => simp
  | cons y ys ih =>
    obtain ⟨h1, h2, h3⟩ := ih (max a y)
    rw [List.foldl_cons]
    refine ⟨?_, (Nat.le_max_left _ _).trans h2, fun x hx => ?_⟩
    · rcases h1 with h1 | h1
      · rcases Nat.le_total a y with h | h
        · exact .inr (List.mem_cons.mpr (.inl (h1.trans (Nat.max_eq_right h))))
        · exact .inl (h1.trans (Nat.max_eq_left h))
      · exact .inr (List.mem_cons_of_mem _ h1)
    · rcases List.mem_cons.mp hx with rfl | hx
      · exact (Nat.le_max_right _ _).trans h2
      · exact h3 x hx

/-- The index of a value of a mapped range: the value stands there, and at no lower place. -/
theorem idxOf_map_range (h : Nat → Nat) {n m : Nat} (hm : m ∈ (List.range n).map h) :
    ((List.range n).map h).idxOf m < n ∧ h (((List.range n).map h).idxOf m) = m ∧
      ∀ v, v < ((List.range n).map h).idxOf m → h v ≠ m := by
  have hlt : ((List.range n).map h).idxOf m < ((List.range n).map h).length := List.idxOf_lt_length_of_mem hm
  have hlt' : ((List.range n).map h).idxOf m < n := by simpa using hlt
  refine ⟨hlt', ?_, fun v hv heq => ?_⟩
  · have := List.getElem_idxOf hlt
    rwa [List.getElem_map, List.getElem_range] at this
  · have hv' := List.not_of_lt_findIdx (p := (· == m)) (xs := (List.range n).map h) (i := v) hv
    simp at hv'
    exact hv' heq

/-- The least level of the least count (R203). -/
theorem bInf_spec (h : Nat → Nat) (l : Nat) : IsLeastMin h l (bInf ((List.range (l + 1)).map h)) := by
  have hhead : ((List.range (l + 1)).map h).headD 0 ∈ (List.range (l + 1)).map h := by
    simp [List.range_succ_eq_map]
  obtain ⟨h1, h2, h3⟩ := foldl_min_spec ((List.range (l + 1)).map h) (((List.range (l + 1)).map h).headD 0)
  have hm : ((List.range (l + 1)).map h).foldl min (((List.range (l + 1)).map h).headD 0) ∈ (List.range (l + 1)).map h := by
    rcases h1 with h1 | h1
    · rw [h1]; exact hhead
    · exact h1
  obtain ⟨k1, k2, k3⟩ := idxOf_map_range h hm
  have hle : ∀ v, v < l + 1 → h (bInf ((List.range (l + 1)).map h)) ≤ h v := fun v hv => by
    unfold bInf
    rw [k2]
    exact h3 _ (List.mem_map_of_mem (List.mem_range.mpr hv))
  refine ⟨by unfold bInf; omega, hle, fun v hv => ?_⟩
  refine lt_of_le_of_ne (hle v (by unfold bInf at hv; omega)) fun heq => k3 v hv ?_
  rw [← heq]
  unfold bInf
  exact k2

/-- The least level of the greatest count (R203). -/
theorem bSup_spec (h : Nat → Nat) (l : Nat) : IsLeastMax h l (bSup ((List.range (l + 1)).map h)) := by
  have hhead : ((List.range (l + 1)).map h).headD 0 ∈ (List.range (l + 1)).map h := by
    simp [List.range_succ_eq_map]
  obtain ⟨h1, h2, h3⟩ := foldl_max_spec ((List.range (l + 1)).map h) (((List.range (l + 1)).map h).headD 0)
  have hm : ((List.range (l + 1)).map h).foldl max (((List.range (l + 1)).map h).headD 0) ∈ (List.range (l + 1)).map h := by
    rcases h1 with h1 | h1
    · rw [h1]; exact hhead
    · exact h1
  obtain ⟨k1, k2, k3⟩ := idxOf_map_range h hm
  have hle : ∀ v, v < l + 1 → h v ≤ h (bSup ((List.range (l + 1)).map h)) := fun v hv => by
    unfold bSup
    rw [k2]
    exact h3 _ (List.mem_map_of_mem (List.mem_range.mpr hv))
  refine ⟨by unfold bSup; omega, hle, fun v hv => ?_⟩
  refine lt_of_le_of_ne (hle v (by unfold bSup at hv; omega)) fun heq => k3 v hv ?_
  rw [heq]
  unfold bSup
  exact k2

/-- The two anchors are unique, so any pair with their properties is the pair STRETCH uses. -/
theorem leastMin_unique {h : Nat → Nat} {l a b : Nat} (ha : IsLeastMin h l a) (hb : IsLeastMin h l b) : a = b := by
  obtain ⟨a1, a2, a3⟩ := ha
  obtain ⟨b1, b2, b3⟩ := hb
  rcases Nat.lt_trichotomy a b with hlt | heq | hgt
  · have := b3 a hlt; have := a2 b (by omega); omega
  · exact heq
  · have := a3 b hgt; have := b2 a (by omega); omega

theorem leastMax_unique {h : Nat → Nat} {l a b : Nat} (ha : IsLeastMax h l a) (hb : IsLeastMax h l b) : a = b := by
  obtain ⟨a1, a2, a3⟩ := ha
  obtain ⟨b1, b2, b3⟩ := hb
  rcases Nat.lt_trichotomy a b with hlt | heq | hgt
  · have := b3 a hlt; have := a2 b (by omega); omega
  · exact heq
  · have := a3 b hgt; have := b2 a (by omega); omega

end Sys2Proof.Laws
end

