-- ==== Sys2Proof/Laws/Memory.lean ====
section
/-! SUPPORT. Every operation on buffer memory keeps its canonical form `Memory.wf`, and the memory after reset has it. -/

namespace Sys2Proof.Laws

open Sys2Proof.Machine

theorem wf_reset : Memory.wf State.reset.mem := List.Pairwise.nil

theorem wf_writeLE {m : Memory} (addr n v : Nat) (h : Memory.wf m) : Memory.wf (Memory.writeLE m addr n v) :=
  wf_writeList _ _ h

theorem wf_putExtent {s : State} (d : DescId) (bytes : List Byte) (h : Memory.wf s.mem) :
    Memory.wf (s.putExtent d bytes).mem :=
  wf_writeList _ _ h

theorem wf_hostMemWrite {s : State} (addr width : Nat) (v : Word) (h : Memory.wf s.mem) :
    Memory.wf (s.hostMemWrite addr width v).mem := by
  unfold State.hostMemWrite
  split
  · exact wf_writeLE _ _ _ h
  · exact h

theorem wf_forgetAll (extents : List (Nat × Nat)) {m : Memory} (h : Memory.wf m) :
    Memory.wf (extents.foldl (fun m e => Store.forget m e.1 e.2) m) := by
  induction extents generalizing m with
  | nil => exact h
  | cons e rest ih => exact ih (wf_forget _ _ h)

theorem wf_applyReset {s : State} (k : ResetKind) (h : Memory.wf s.mem) : Memory.wf (s.applyReset k).mem := by
  cases k with
  | powerOn => exact List.Pairwise.nil
  | warm => exact wf_forgetAll _ h

end Sys2Proof.Laws
end

