-- ==== Sys2Proof/Laws/PerInstr.lean ====
section
/-! SUPPORT. Families of statements made per instruction. `EncodedWord`: the word of a command carries its opcode in OP, its
operands in their fields, and 0 in RSVD (30_encoding R100, R104). -/

namespace Sys2Proof.Laws.EncodedWord

/-- OP, the fields and RSVD of the word of `i`. -/
def Statement (i : Instr) : Prop :=
  bits (encode i) 5 0 = i.opcode.code ∧ fieldsOf (encode i) = i.fields ∧ bits (encode i) 31 26 = 0

theorem holds (i : Instr) : Statement i :=
  ⟨op_wordOf (code_lt _) _, fieldsOf_wordOf (code_lt _) _, rsvd_wordOf (code_lt _) _⟩

theorem nop : Statement .nop := holds _

theorem alloc (d : DescId) (f : Format) : Statement (.alloc d f) := holds _

theorem copy (d : DescId) (a : DescId) (f : Format) : Statement (.copy d a f) := holds _

theorem gray (d : DescId) (a : DescId) : Statement (.gray d a) := holds _

theorem split (b : DescId) (c : DescId) (d : DescId) (a : DescId) : Statement (.split b c d a) := holds _

theorem merge (d : DescId) (a : DescId) (b : DescId) (c : DescId) : Statement (.merge d a b c) := holds _

theorem rgb2hsv (d : DescId) (a : DescId) : Statement (.rgb2hsv d a) := holds _

theorem hsv2rgb (d : DescId) (a : DescId) : Statement (.hsv2rgb d a) := holds _

theorem matx (d : DescId) (a : DescId) (bank : Bank) : Statement (.matx d a bank) := holds _

theorem lut (d : DescId) (a : DescId) (f : Format) : Statement (.lut d a f) := holds _

theorem conv (d : DescId) (a : DescId) : Statement (.conv d a) := holds _

theorem kgauss (s : Byte) : Statement (.kgauss s) := holds _

theorem ksobelh : Statement .ksobelh := holds _

theorem ksobelv : Statement .ksobelv := holds _

theorem klapl : Statement .klapl := holds _

theorem sobel (d : DescId) (a : DescId) : Statement (.sobel d a) := holds _

theorem sharpen (d : DescId) (a : DescId) : Statement (.sharpen d a) := holds _

theorem blur (d : DescId) (a : DescId) (s : Byte) : Statement (.blur d a s) := holds _

theorem hist (a : DescId) (l : Byte) : Statement (.hist a l) := holds _

theorem cum (l : Byte) : Statement (.cum l) := holds _

theorem equalize (d : DescId) (a : DescId) (l : Byte) : Statement (.equalize d a l) := holds _

theorem stretch (d : DescId) (a : DescId) (l : Byte) : Statement (.stretch d a l) := holds _

end Sys2Proof.Laws.EncodedWord
end

