-- ==== Sys2Proof/Laws/Step.lean ====
section
/-! SUPPORT. What a step can do, said once: `step_cases`. The three kinds of event, forwards and backwards. -/

namespace Sys2Proof.Laws

open Sys2Proof.Machine Sys2Proof.Safety

/-- A step whose event is the engine's completion. -/
theorem step_completion {s : State} {rest : List Event} (h : CompletesNext s rest) :
    step s = completion { s with events := rest } := by
  unfold step nextEvent
  rcases h with h | ⟨h, rfl⟩ | ⟨⟨a, more, h⟩, hheld, rfl⟩
  · simp [h]
  · rw [h]; exact congrArg completion (by rw [← h])
  · rw [h]; simp only [hheld, if_true]; exact congrArg completion (by rw [← h])

/-- A step whose event is a host access. -/
theorem step_access {s : State} {a : Access} {rest : List Event} (h : Issues s a rest) :
    step s = hostAccess { s with events := rest } a := by
  unfold step nextEvent
  rw [h.1]
  simp [h.2]

/-- A step whose event is a reset. -/
theorem step_reset {s : State} {k : ResetKind} {rest : List Event} (h : s.events = .reset k :: rest) :
    step s = .next ({ s with events := rest }.applyReset k) := by
  unfold step nextEvent
  rw [h]

/-- The next event is a completion, an access on a free port, or a reset. -/
theorem event_cases (s : State) :
    (∃ rest, CompletesNext s rest) ∨ (∃ a rest, Issues s a rest) ∨ ∃ k rest, s.events = .reset k :: rest := by
  cases h : s.events with
  | nil => exact .inl ⟨[], .inr (.inl ⟨h, rfl⟩)⟩
  | cons e rest =>
    cases e with
    | complete => exact .inl ⟨rest, .inl h⟩
    | reset k => exact .inr (.inr ⟨k, rest, rfl⟩)
    | access a =>
      cases hh : s.held with
      | none => exact .inr (.inl ⟨a, rest, h, hh⟩)
      | some b => exact .inl ⟨s.events, .inr (.inr ⟨⟨a, rest, h⟩, by simp [hh], rfl⟩)⟩

/-- The completion event: the pending command runs, or nothing is pending. -/
theorem completion_cases {s t : State} (h : completion s = .next t) :
    (s.pending = none ∧ t = s.releaseHeld) ∨ ∃ w u, s.pending = some w ∧ runCommand w s = .next u ∧ t = u.releaseHeld := by
  unfold completion at h
  cases hp : s.pending with
  | none =>
    rw [hp] at h
    injection h with h
    exact .inl ⟨rfl, h.symm⟩
  | some w =>
    rw [hp] at h
    simp only at h
    cases hr : runCommand w s with
    | next u =>
      rw [hr] at h
      injection h with h
      exact .inr ⟨w, u, rfl, hr, h.symm⟩
    | fault f => rw [hr] at h; cases h
    | refused r => rw [hr] at h; cases h

/-- What the completion of a command word can do: an error and nothing else, or the effects of the command it decodes to. -/
theorem runCommand_cases {w : Word} {s t : State} (h : runCommand w s = .next t) :
    (∃ e info, t = s.complete (some (e, info))) ∨ ∃ i s', decode w = .ok i ∧ Effect s i s' ∧ t = s'.complete none := by
  unfold runCommand at h
  cases hd : decode w with
  | error e =>
    rw [hd] at h
    injection h with h
    exact .inl ⟨_, _, h.symm⟩
  | ok i =>
    rw [hd] at h
    rcases exec_cases h with ⟨e, info, h⟩ | ⟨s', h1, h2⟩
    · exact .inl ⟨e, info, h⟩
    · exact .inr ⟨i, s', rfl, h1, h2⟩

/-- A host access that has a step is held, or performed. -/
theorem hostAccess_cases {s t : State} {a : Access} (h : hostAccess s a = .next t) :
    a.refusal = none ∧ ((s.busy = true ∧ a.holdable = true ∧ t = { s with held := some a }) ∨
      ((s.busy = false ∨ a.holdable = false) ∧ s.perform a = .next t)) := by
  unfold hostAccess at h
  cases hr : a.refusal with
  | some r => rw [hr] at h; cases h
  | none =>
    rw [hr] at h
    simp only at h
    split at h
    · rename_i hb
      rw [Bool.and_eq_true] at hb
      injection h with h
      exact ⟨rfl, .inl ⟨hb.1, hb.2, h.symm⟩⟩
    · rename_i hb
      refine ⟨rfl, .inr ⟨?_, h⟩⟩
      cases hbusy : s.busy
      · exact .inl rfl
      · exact .inr (by simpa [hbusy] using hb)

/-- What performing an access does to the state. -/
theorem perform_cases {s t : State} {a : Access} (h : s.perform a = .next t) :
    (∃ v, t = s.respond (.value v)) ∨ (∃ off n v, a = .regWrite off n v ∧ t = (s.writeReg v (regAt off)).respond .done) ∨
    ∃ addr n v, a = .memWrite addr n v ∧ t = (s.hostMemWrite addr n v).respond .done := by
  cases a with
  | regRead off n =>
    unfold State.perform at h
    simp only at h
    split at h
    · injection h with h; exact .inl ⟨_, h.symm⟩
    · cases h
  | regWrite off n v => injection h with h; exact .inr (.inl ⟨off, n, v, rfl, h.symm⟩)
  | memRead addr n =>
    unfold State.perform at h
    simp only at h
    split at h
    · injection h with h; exact .inl ⟨_, h.symm⟩
    · cases h
  | memWrite addr n v => injection h with h; exact .inr (.inr ⟨addr, n, v, rfl, h.symm⟩)

/-- Everything a step can do. -/
theorem step_cases {s t : State} (h : step s = .next t) :
    (∃ rest, CompletesNext s rest ∧ completion { s with events := rest } = .next t) ∨
    (∃ a rest, Issues s a rest ∧ hostAccess { s with events := rest } a = .next t) ∨
    ∃ k rest, s.events = .reset k :: rest ∧ t = { s with events := rest }.applyReset k := by
  rcases event_cases s with ⟨rest, hc⟩ | ⟨a, rest, ha⟩ | ⟨k, rest, hr⟩
  · exact .inl ⟨rest, hc, step_completion hc ▸ h⟩
  · exact .inr (.inl ⟨a, rest, ha, step_access ha ▸ h⟩)
  · rw [step_reset hr] at h
    injection h with h
    exact .inr (.inr ⟨k, rest, hr, h.symm⟩)

/-- The window index of a register offset is below 256. -/
theorem regAt_index_lt {off i : Nat} : (regAt off = .kram i → i < 256) ∧ (regAt off = .hist i → i < 256) ∧
    (regAt off = .cum i → i < 256) ∧ (regAt off = .lut i → i < 256) := by
  have hmem : ∀ r ∈ controlRegs, r.isWindow = false := by decide
  have hctl : ∀ n, (controlRegs.getD n .reserved).isWindow = false := by
    intro n
    rw [List.getD_eq_getElem?_getD]
    cases h : controlRegs[n]? with
    | none => rfl
    | some r => exact hmem r (List.mem_of_getElem? h)
  have hle : ∀ r : Reg, (∃ i, (r = .kram i ∨ r = .hist i ∨ r = .cum i ∨ r = .lut i) ∧ 256 ≤ i) → regAt off ≠ r := by
    rintro r ⟨i, hr, hi⟩ rfl
    unfold regAt at hr
    split at hr
    · have := hctl (off / 4)
      rcases hr with h | h | h | h <;> rw [h] at this <;> cases this
    · repeat' (split at hr)
      all_goals simp at hr
      all_goals omega
  have key : ∀ r : Reg, (∃ j, (r = .kram j ∨ r = .hist j ∨ r = .cum j ∨ r = .lut j) ∧ j = i) → regAt off = r → i < 256 := by
    rintro r ⟨j, hr, rfl⟩ h
    by_contra hc
    exact hle r ⟨j, hr, by omega⟩ h
  exact ⟨key _ ⟨i, .inl rfl, rfl⟩, key _ ⟨i, .inr (.inl rfl), rfl⟩, key _ ⟨i, .inr (.inr (.inl rfl)), rfl⟩,
    key _ ⟨i, .inr (.inr (.inr rfl)), rfl⟩⟩

end Sys2Proof.Laws
end

