-- ==== Sys2Proof/Tests/Slice0.lean ====
section
/-! SUPPORT. Tests whose expected values come from spec/95_test_vectors.md (and the rules it evaluates), words written out
from the encoding of 30_encoding, and for each statement with hypotheses a witness that meets them. -/

namespace Sys2Proof.Tests

open Sys2Proof.Machine Sys2Proof.Safety

/-! ## States to test on -/

/-- The state after reset with the parameters of 95: MEM_SIZE 0x10000, BUF_ALIGN 16, KMAX 15. -/
def tiny : State := { State.reset with cfg := ⟨0x10000, 16, 15⟩ }

/-- `s` with descriptor `n` set to (base, w x h). -/
def place (s : State) (n : DescId) (base w h : Nat) : State :=
  { s with desc := s.desc.set n ⟨BitVec.ofNat 32 base, BitVec.ofNat 32 (w + h * 2 ^ 16)⟩ }

/-- `s` with bytes written to memory from `base` on. -/
def poke (s : State) (base : Nat) (bytes : List Nat) : State :=
  { s with mem := Store.writeList s.mem base (bytes.map byteOf) }

/-- `s` with word entries written from entry 0 on. -/
def words (l : List Nat) : Store Word := Store.ofListFrom 0 (l.map fun v => BitVec.ofNat 32 v)

/-- `f` of the next state, if there is one. -/
def after {α : Type} (o : Host.Outcome State Fault Refusal) (f : State → α) : Option α :=
  match o with
  | .next t => some (f t)
  | _ => none

/-- The fault, if the outcome is one. -/
def faultOf (o : Host.Outcome State Fault Refusal) : Option Fault :=
  match o with
  | .fault f => some f
  | _ => none

/-- `n` bytes of memory from `base` on. -/
def dump (n base : Nat) (s : State) : List (Option Nat) :=
  (List.range n).map fun k => (Store.read s.mem (base + k)).map BitVec.toNat

/-- STATUS and ERRINFO. -/
def flags (s : State) : Nat × Nat := (s.status.toNat, s.errinfo.toNat)

/-- D0 = (0x00, 1x1) with the bytes 10, 200, 0, D1 to D3 = (0x10, 1x1), (0x20, 1x1), (0x30, 1x1). -/
def rgbState : State :=
  poke (place (place (place (place tiny 0 0 1 1) 1 0x10 1 1) 2 0x20 1 1) 3 0x30 1 1) 0 [10, 200, 0]

/-- Image A of 95 in D0 = (0x00, 3x3), and D1 = (0x10, 3x3), D2 = (0x20, 1x1). -/
def imageA : State :=
  poke (place (place (place tiny 0 0 3 3) 1 0x10 3 3) 2 0x20 1 1) 0 [10, 20, 30, 40, 50, 60, 70, 80, 90]

/-- `s` with a kernel of side `k` in KRAM. -/
def withKernel (s : State) (k : Nat) (ws : List Nat) : State :=
  { s with ksize := BitVec.ofNat 32 (k + k * 256), kram := words ws }

/-- The kernel of KSOBELH (R179). -/
def sobelWords : List Nat := [0xFFFF0000, 0, 0x00010000, 0xFFFE0000, 0, 0x00020000, 0xFFFF0000, 0, 0x00010000]

/-- 95 section 2.5: D0 = (0x00, 2x2) with the pixels 0, 64, 64, 255, and D1 = (0x10, 2x2). -/
def quad : State := poke (place (place tiny 0 0 2 2) 1 0x10 2 2) 0 [0, 64, 64, 255]

/-- HIST as `HIST D0, #255` leaves it on `quad`. -/
def quadCounts : List Nat :=
  [1] ++ List.replicate 63 0 ++ [2] ++ List.replicate 190 0 ++ [1]

/-- `s` when the host issues `a` next. -/
def issuing (s : State) (a : Access) : State := { s with events := [.access a] }

/-- `tiny` while it runs the NOP word. -/
def running : State := tiny.accept 0

/-! ## The well-formedness check -/

theorem test_wellFormed_refuses_lut_hsv : (Instr.lut 1 0 .hsv).wellFormed = false := by decide

theorem test_wellFormed_accepts_lut_ycc : (Instr.lut 1 0 .ycc).wellFormed = true := by decide

/-! ## Decoding, on words written out as OP | DA<<6 | DB<<9 | DC<<12 | DD<<15 | IMM<<18 (R100, R104) -/

/-- NOP, ALLOC D1 RGB, COPY D7 D6 GRAY. -/
theorem test_decode_buffer :
    decode 0x00000000 = .ok .nop ∧ decode 0x00048001 = .ok (.alloc 1 .rgb) ∧
    decode 0x00038182 = .ok (.copy 7 6 .gray) := by decide

/-- The colour commands; GRAY, SPLIT, RGB2HSV and MATX are words of 95. MERGE D5, D4, D1, D2 is
0x12 + 4 * 2^6 + 1 * 2^9 + 2 * 2^12 + 5 * 2^15, HSV2RGB D2, D3 is 0x14 + 3 * 2^6 + 2 * 2^15. -/
theorem test_decode_color :
    decode 0x00028110 = .ok (.gray 5 4) ∧ decode 0x0002B511 = .ok (.split 2 3 5 4) ∧
    decode 0x0002A312 = .ok (.merge 5 4 1 2) ∧
    decode 0x00008053 = .ok (.rgb2hsv 1 1) ∧ decode 0x000100D4 = .ok (.hsv2rgb 2 3) ∧
    decode 0x00048055 = .ok (.matx 1 1 1) ∧ decode 0x000C8016 = .ok (.lut 1 0 .ycc) := by decide

theorem test_decode_convolution :
    decode 0x00010060 = .ok (.conv 2 1) ∧ decode 0x000C0021 = .ok (.kgauss 3) ∧ decode 0x00000022 = .ok .ksobelh ∧
    decode 0x00000023 = .ok .ksobelv ∧ decode 0x00000024 = .ok .klapl ∧ decode 0x00010065 = .ok (.sobel 2 1) ∧
    decode 0x00018066 = .ok (.sharpen 3 1) ∧ decode 0x000C8027 = .ok (.blur 1 0 3) := by decide

/-- HIST D2, #255 is 0x30 + 2 * 2^6 + 255 * 2^18; the others are words of 95. -/
theorem test_decode_histogram :
    decode 0x03FC00B0 = .ok (.hist 2 255) ∧ decode 0x01900031 = .ok (.cum 100) ∧
    decode 0x03FC8032 = .ok (.equalize 1 0 255) ∧ decode 0x00248033 = .ok (.stretch 1 0 9) := by decide

/-- The words 95 section 2.6 gives as IllegalCommand, reasons 1 and 2. -/
theorem test_decode_reasons_1_2 :
    decode 0xFFFFFFFF = .error .unassignedOpcode ∧ decode 0x00000003 = .error .unassignedOpcode ∧
    decode 0xFC00003F = .error .unassignedOpcode ∧ decode 0x01700017 = .error .unassignedOpcode ∧
    decode 0x04000000 = .error .reservedBits ∧ decode 0x80000020 = .error .reservedBits ∧
    decode 0x04000040 = .error .reservedBits :=
  ⟨rfl, rfl, rfl, rfl, rfl, rfl, rfl⟩

/-- The same, reasons 3, 4 and 5. -/
theorem test_decode_reasons_3_4_5 :
    decode 0x00000040 = .error .unusedField ∧ decode 0x00000E20 = .error .unusedField ∧
    decode 0x00008022 = .error .unusedField ∧ decode 0x00040040 = .error .unusedField ∧
    decode 0x03FFFFF3 = .error .unusedField ∧ decode 0x00040000 = .error .immediateBits ∧
    decode 0x00100002 = .error .immediateBits ∧ decode 0x00080015 = .error .immediateBits ∧
    decode 0x00088016 = .error .reservedImmediate :=
  ⟨rfl, rfl, rfl, rfl, rfl, rfl, rfl, rfl, rfl⟩

theorem test_decodeTableWord : decodeTableWord 32 0x03FC8032 = some (.equalize 1 0 255) := by decide

/-! ## The host port (95 section 2.7) -/

theorem test_ctrl_border_three :
    after (step (issuing tiny (.regWrite 0x010 4 0x0000030B))) (fun t => t.ctrl.toNat) = some 0x308 := by decide

theorem test_status_clear :
    after (step (issuing { tiny with status := 0x40E } (.regWrite 0x014 4 0x4))) flags = some (0x40A, 0) := by decide

theorem test_ksize_reserved :
    after (step (issuing tiny (.regWrite 0x020 4 0x12345678))) (fun t => t.ksize.toNat) = some 0x5678 := by decide

theorem test_alloc_ptr_low_bits :
    after (step (issuing tiny (.regWrite 0x02C 4 0x00001235))) (fun t => t.allocPtr.toNat) = some 0x1230 := by decide

theorem test_lut_low_byte :
    after (step (issuing tiny (.regWrite 0x1014 4 0x1FF))) (fun t => t.readReg (regAt 0x1014)) = some (.ok 0xFF) := by decide

theorem test_overrun :
    after (step (issuing running (.regWrite 0x018 4 0x22))) (fun t => (t.cmd.toNat, flags t)) = some (0, 9, 0) := by decide

theorem test_held_write :
    after (step (issuing running (.memWrite 0x10 1 7))) (fun t => (t.held.isSome, dump 1 0x10 t)) =
      some (true, [none]) := by decide

theorem test_little_endian :
    after (step (issuing tiny (.memWrite 0x10 4 0x04030201))) (dump 4 0x10) = some (List.map some [1, 2, 3, 4]) := by decide

/-! ## The commands (95 sections 2.1 to 2.6) -/

theorem test_nop : after (exec .nop running) flags = some (2, 0) := by decide

theorem test_alloc :
    after (exec (.alloc 1 .rgb) (place tiny 1 0x77 5 1)) (fun t => (t.baseOf 1, t.allocPtr.toNat)) =
      some (0, 0x10) := by decide

theorem test_alloc_error :
    after (exec (.alloc 0 .gray) { place tiny 0 0x77 17 1 with allocPtr := 0xFFF0 }) (fun t => (flags t, t.baseOf 0)) =
      some ((0x206, 32), 0x77) := by decide

theorem test_copy :
    after (exec (.copy 1 0 .gray) (poke (place (place tiny 0 0 2 1) 1 0x10 2 1) 0 [7, 9])) (dump 3 0x10) =
      some [some 7, some 9, none] := by decide

theorem test_copy_size :
    after (exec (.copy 2 0 .gray) (place imageA 2 0x10 4 1)) flags = some (0x606, 0x12) := by decide

theorem test_gray : after (exec (.gray 1 0) rgbState) (dump 1 0x10) = some [some 70] := by decide

theorem test_gray_overlap :
    after (exec (.gray 5 4) (place (place tiny 4 0 2 2) 5 0 2 2)) flags = some (0x706, 0x54) := by decide

theorem test_split :
    after (exec (.split 1 2 3 0) rgbState) (fun t => [dump 1 0x10 t, dump 1 0x20 t, dump 1 0x30 t]) =
      some [[some 10], [some 200], [some 0]] := by decide

theorem test_split_same_destination :
    after (exec (.split 2 2 3 0) rgbState) flags = some (0x706, 0x22) := by decide

theorem test_merge :
    after (exec (.merge 0 1 2 3) (poke (poke (poke rgbState 0x10 [1]) 0x20 [2]) 0x30 [3])) (dump 3 0) =
      some [some 1, some 2, some 3] := by decide

theorem test_rgb2hsv_wide :
    after (exec (.rgb2hsv 1 0) rgbState) (dump 4 0x10) = some (List.map some [0x75, 0x00, 0x64, 0x4E]) := by decide

theorem test_rgb2hsv_domain :
    after (exec (.rgb2hsv 1 0) { poke rgbState 0 [128, 0, 255] with ctrl := 4 }) (fun t => (flags t, dump 1 0x10 t)) =
      some ((0x306, 0), [none]) := by decide

theorem test_hsv2rgb_clamps :
    after (exec (.hsv2rgb 1 0) { poke rgbState 0 [30, 200, 200] with ctrl := 4 }) (dump 3 0x10) =
      some (List.map some [255, 128, 0]) := by decide

theorem test_hsv2rgb_wide :
    after (exec (.hsv2rgb 1 0) (poke rgbState 0 [0x67, 0x01, 100, 100])) (dump 3 0x10) =
      some (List.map some [255, 0, 4]) := by decide

theorem test_matx_luma :
    after (exec (.matx 1 0 0) rgbState) (dump 3 0x10) = some (List.map some [120, 49, 60]) := by decide

theorem test_matx_inverse :
    after (exec (.matx 1 0 1) (poke rgbState 0 [120, 49, 60])) (dump 3 0x10) =
      some (List.map some [9, 200, 0]) := by decide

theorem test_lut :
    after (exec (.lut 1 0 .rgb) { rgbState with lut := [(0, 255), (10, 245), (200, 55)] }) (dump 3 0x10) =
      some (List.map some [245, 55, 255]) := by decide

theorem test_lut_unwritten : faultOf (exec (.lut 1 0 .gray) rgbState) = some .unwrittenLut := by decide

theorem test_conv :
    after (exec (.conv 1 0) (withKernel imageA 3 sobelWords)) (dump 9 0x10) =
      some (List.map some [40, 80, 40, 40, 80, 40, 40, 80, 40]) := by decide

theorem test_conv_halves :
    after (exec (.conv 1 0) (withKernel (poke (place (place tiny 0 0 5 1) 1 0x10 5 1) 0 [0, 1, 3, 5, 255]) 1 [0x8000]))
      (dump 5 0x10) = some (List.map some [0, 1, 2, 3, 128]) := by decide

theorem test_kgauss_even :
    after (exec (.kgauss 4) tiny) flags = some (0x106, 4) := by decide

theorem test_kgauss_size :
    after (exec (.kgauss 3) { tiny with gauss := 0x100 }) (fun t => (flags t, t.ksize.toNat)) =
      some ((2, 0), 0x303) := by decide

theorem test_ksobelh :
    after (exec .ksobelh tiny) (fun t => (t.ksize.toNat, t.kram.map fun p => p.2.toNat)) =
      some (0x303, sobelWords) := by decide

theorem test_ksobelv :
    after (exec .ksobelv tiny) (fun t => (t.ksize.toNat, t.kram.map fun p => p.2.toNat)) =
      some (0x303, [0xFFFF0000, 0xFFFE0000, 0xFFFF0000, 0, 0, 0, 0x00010000, 0x00020000, 0x00010000]) := by decide

theorem test_klapl :
    after (exec .klapl tiny) (fun t => (t.ksize.toNat, t.kram.map fun p => p.2.toNat)) =
      some (0x303, [0, 0xFFFF0000, 0, 0xFFFF0000, 0x00040000, 0xFFFF0000, 0, 0xFFFF0000, 0]) := by decide

theorem test_sobel :
    after (exec (.sobel 1 0) imageA) (dump 9 0x10) =
      some (List.map some [126, 144, 126, 243, 253, 243, 126, 144, 126]) := by decide

theorem test_sobel_zero_literal :
    after (exec (.sobel 1 0) { imageA with ctrl := 1 }) (dump 9 0x10) =
      some (List.map some [158, 209, 170, 255, 253, 180, 210, 60, 0]) := by decide

theorem test_sharpen :
    after (exec (.sharpen 1 0) { imageA with sharpk := 256 }) (dump 9 0x10) =
      some (List.map some [10, 20, 30, 40, 50, 70, 90, 110, 130]) := by decide

theorem test_sharpen_raw_soften :
    after (exec (.sharpen 1 0) { imageA with sharpk := 0xFF80, ctrl := 9 }) (dump 9 0x10) =
      some (List.map some [20, 25, 10, 25, 50, 25, 0, 25, 0]) := by decide

theorem test_blur_without_sigma :
    after (exec (.blur 1 0 3) imageA) (fun t => (flags t, t.ksize.toNat, dump 1 0x10 t)) =
      some ((0x806, 0), 0, [none]) := by decide

theorem test_blur_shrink_size :
    after (exec (.blur 1 0 3) { imageA with gauss := 0x100, ctrl := 2 }) flags = some (0x606, 0x11) := by decide

set_option maxRecDepth 8000 in
theorem test_hist :
    after (exec (.hist 0 64) quad) (fun t => [0, 64, 255].map fun v => (Store.read t.hist v).map BitVec.toNat) =
      some [some 1, some 2, some 0] := by decide

set_option maxRecDepth 8000 in
theorem test_cum :
    after (exec (.cum 255) { tiny with hist := words quadCounts })
      (fun t => [0, 63, 64, 254, 255].map fun v => (Store.read t.cum v).map BitVec.toNat) =
      some (List.map some [1, 1, 3, 3, 4]) := by decide

set_option maxRecDepth 8000 in
theorem test_cum_saturates :
    after (exec (.cum 1) { tiny with hist := words [0xFFFFFFFF, 1] })
      (fun t => [0, 1, 255].map fun v => (Store.read t.cum v).map BitVec.toNat) =
      some (List.replicate 3 (some 0xFFFFFFFF)) := by decide

set_option maxRecDepth 8000 in
theorem test_equalize :
    after (exec (.equalize 1 0 100) { quad with hist := words (quadCounts.take 101) }) (dump 4 0x10) =
      some (List.map some [25, 75, 75, 75]) := by decide

theorem test_stretch :
    after (exec (.stretch 1 0 9) { poke (place (place tiny 0 0 6 1) 1 0x10 6 1) 0 [0, 0, 0, 5, 5, 9] with
      hist := words [3, 0, 0, 0, 0, 2, 0, 0, 0, 1] }) (dump 6 0x10) =
      some (List.map some [100, 100, 100, 0, 0, 0]) := by decide

theorem test_stretch_degenerate :
    after (exec (.stretch 1 0 0) { quad with hist := words [1] }) flags = some (0x906, 0) := by decide

/-- The step runs a word placed by `withFetchWord`; after reset CONV fails its first descriptor check (95 section 2.6). -/
theorem test_fetch : after (step (State.reset.withFetchWord 32 0x00008020)) flags = some (0x606, 0) := by decide

/-! ## Witnesses: for each statement with hypotheses, states and operands that meet them -/

theorem tiny_legal : tiny.cfg.Legal :=
  by constructor <;> decide

/-- `s` when the completion of `w` is the next event. -/
def completing (s : State) (w : Word) : State := { s.accept w with events := [.complete] }

theorem witness_decode_of_encode :
    (Instr.copy 7 0 .ycc).wellFormed = true ∧ (Instr.lut 7 7 .ycc).wellFormed = true ∧
    (Instr.stretch 0 7 255).wellFormed = true := by decide

/-- The word of SPLIT D2, D3, D4, D1 and the row it matches, with four different operands. -/
theorem witness_decodes_the_opcode_table :
    (((0x00000011, 0xFFFC003F), .split 2 3 4 1) : (Word × Word) × Instr) ∈ tableRows.zip (tableCommands 0x00023451) ∧
    (0x00023451 : Word) &&& 0xFFFC003F = 0x00000011 ∧ ¬(bits 0x00023451 5 0 = 0x16 ∧ bits 0x00023451 19 18 = 2) := by decide

/-- Also a word of the table that does not decode, the one row with an exception. -/
theorem witness_encode_of_decode :
    decode 0x000F81D6 = .ok (.lut 7 7 .ycc) ∧ decode 0x000B81D6 = .error .reservedImmediate := by decide

theorem witness_illegal_command_reasons :
    (∀ row ∈ tableRows, bits 0xFFFFFFFF 5 0 ≠ bits row.1 5 0) ∧
    (bits 0x80000020 5 0 = bits 0x00000020 5 0 ∧ bits 0x80000020 31 26 ≠ 0) ∧
    (bits 0x00040040 31 26 = 0 ∧ (0x00040040 : Word) &&& 0xFFFFFFFF &&& 0x0003FFC0 ≠ 0) ∧
    (bits 0x00100002 31 26 = 0 ∧ (0x00100002 : Word) &&& 0xFFF07E3F &&& 0x0003FFC0 = 0 ∧
      (0x00100002 : Word) &&& 0xFFF07E3F &&& 0x03FC0000 ≠ 0) ∧
    ((0x00088016 : Word) &&& 0xFFF07E3F = 0x00000016 ∧ bits 0x00088016 5 0 = 0x16 ∧ bits 0x00088016 19 18 = 2) := by
  refine ⟨?_, by decide, by decide, by decide, by decide⟩
  intro row h
  simp only [tableRows, List.mem_cons, List.not_mem_nil, or_false] at h
  revert row
  simp only [forall_eq_or_imp, forall_eq]
  decide

theorem witness_step_runs_the_decoded_command :
    CompletesNext (completing tiny 0x22) [] ∧ (completing tiny 0x22).pending = some 0x22 ∧ decode 0x22 = .ok .ksobelh :=
  ⟨.inl rfl, rfl, rfl⟩

/-- The two other ways in which the completion is next: nothing else is left, or the next access waits for the held one. -/
theorem witness_completesNext :
    CompletesNext (tiny.accept 0x22) [] ∧
    CompletesNext { tiny.accept 0x22 with held := some (.memRead 0 1), events := [.access (.memRead 4 1)] }
      [.access (.memRead 4 1)] :=
  ⟨.inr (.inl ⟨rfl, rfl⟩), .inr (.inr ⟨⟨_, _, rfl⟩, rfl, rfl⟩)⟩

theorem witness_step_without_a_command :
    (CompletesNext (completing tiny 0x3F) [] ∧ (completing tiny 0x3F).pending = some 0x3F ∧
      decode 0x3F = .error .unassignedOpcode) ∧
    (CompletesNext tiny [] ∧ tiny.pending = none ∧ tiny.held = none) :=
  ⟨⟨.inl rfl, rfl, rfl⟩, .inr (.inl ⟨rfl, rfl⟩), rfl, rfl⟩

/-- A state that runs KSOBELH and holds a host write, with memory, a kernel and a histogram written. -/
def workingState : State :=
  { completing imageA 0x22 with
    ctrl := 0x30E, status := 0x009, kram := [(0, 65536), (255, 1)], hist := [(7, 3)], lut := [(255, 1)],
    allocPtr := 0x20, ksize := 0xFFFF, held := some (.memWrite 0 4 5) }

theorem witness_step_keeps_inv : Inv workingState ∧ ∃ t, step workingState = .next t ∧ t.ksize = 0x303 := by
  refine ⟨?_, _, rfl, rfl⟩
  constructor
  case params => exact tiny_legal
  case pendingCmd => exact fun w h => Option.some.inj h
  all_goals decide

/-- Power-on, warm while idle, warm while COPY D1, D0 runs (an address in its destination, one before and one after it),
warm while a word that does not decode runs. -/
theorem witness_reset_event :
    let s (w : Word) : State := { imageA.accept w with events := [.reset .warm] }
    { tiny with events := [.reset .powerOn] }.events = .reset .powerOn :: [] ∧ (s 0).events = .reset .warm :: [] ∧
    { tiny with events := [.reset .warm] }.pending = none ∧
    ((s 0x00008002).pending = some 0x00008002 ∧ decode 0x00008002 = .ok (.copy 1 0 .gray)) ∧
    ((1, Format.gray) ∈ destinations (.copy 1 0 .gray) ∧ (s 0).baseOf 1 ≤ 0x10 ∧
      0x10 < (s 0).baseOf 1 + (s 0).len 1 .gray) ∧
    (∀ addr ∈ [0x0F, 0x19], ∀ p ∈ destinations (.copy 1 0 .gray),
      addr < (s 0).baseOf p.1 ∨ (s 0).baseOf p.1 + (s 0).len p.1 p.2 ≤ addr) ∧
    ((s 0xFFFFFFFF).pending = some 0xFFFFFFFF ∧ decode 0xFFFFFFFF = .error .unassignedOpcode) :=
  ⟨rfl, rfl, rfl, ⟨rfl, rfl⟩, by decide, by decide, rfl, rfl⟩

theorem witness_cmd_register :
    (Issues (issuing tiny (.regWrite 0x018 4 0x22)) (.regWrite 0x018 4 0x22) [] ∧ tiny.busy = false) ∧
    (Issues (issuing running (.regWrite 0x018 4 0x22)) (.regWrite 0x018 4 0x22) [] ∧ running.busy = true) ∧
    Issues (issuing running (.regRead 0x018 4)) (.regRead 0x018 4) [] := by decide

theorem witness_status_write : Issues (issuing running (.regWrite 0x014 4 0xE)) (.regWrite 0x014 4 0xE) [] := by decide

theorem witness_ctrl_write :
    (∀ v : Word, Issues (issuing tiny (.regWrite 0x010 4 v)) (.regWrite 0x010 4 v) []) ∧
    tiny.busy = false ∧ bits tiny.ctrl 1 0 ≠ 3 ∧ bits 0x30B 1 0 = 3 ∧ bits 0x2 1 0 ≠ 3 :=
  ⟨fun _ => ⟨rfl, rfl⟩, by decide⟩

/-- The first and last offset of each range that stores and of each that does not. -/
theorem witness_host_register_write :
    (∀ off ∈ [0x020, 0x02C, 0x040, 0x0DC, 0x400, 0x13FC],
      Issues (issuing tiny (.regWrite off 4 7)) (.regWrite off 4 7) [] ∧ off % 4 = 0 ∧ off < 0x2000 ∧
      (0x020 ≤ off ∧ off < 0x030 ∨ 0x040 ≤ off ∧ off < 0x0E0 ∨ 0x400 ≤ off ∧ off < 0x1400)) ∧
    (∀ off ∈ [0x000, 0x00C, 0x01C, 0x030, 0x03C, 0x0E0, 0x3FC, 0x1400, 0x1FFC],
      Issues (issuing tiny (.regWrite off 4 7)) (.regWrite off 4 7) [] ∧ off % 4 = 0 ∧ off < 0x2000 ∧
      (off < 0x010 ∨ off = 0x01C ∨ 0x030 ≤ off ∧ off < 0x040 ∨ 0x0E0 ≤ off ∧ off < 0x400 ∨ 0x1400 ≤ off)) ∧
    tiny.busy = false := by decide

/-- Reads at the ends of the ranges, idle and busy, and a written entry of each window. -/
theorem witness_host_register_read :
    (∀ off ∈ [0x000, 0x3FC, 0x1400, 0x1FFC], Issues (issuing running (.regRead off 4)) (.regRead off 4) [] ∧
      (running.readReg (regAt off)).toOption.isSome = true ∧ (running.busy = false ∨ off < 0x400 ∨ 0x1400 ≤ off)) ∧
    { tiny with kram := [(0, 5)] }.readReg (regAt 0x400) = .ok 5 ∧
    Store.read { tiny with hist := [(255, 5)] }.hist 255 = some 5 ∧
    Store.read { tiny with lut := [(255, 5)] }.lut 255 = some 5 ∧ tiny.cfg.Legal :=
  ⟨by decide, by decide, by decide, by decide, tiny_legal⟩

theorem witness_hold_rule :
    running.busy = true ∧
    (∀ off ∈ [0x000, 0x3FC, 0x1400, 0x1FFC], Issues (issuing running (.regRead off 4)) (.regRead off 4) [] ∧
      (running.readReg (regAt off)).toOption.isSome = true) ∧
    (∀ off ∈ [0x014, 0x018], Issues (issuing running (.regWrite off 4 1)) (.regWrite off 4 1) []) ∧
    (∀ off ∈ [0x400, 0x13FC], Issues (issuing running (.regRead off 4)) (.regRead off 4) [] ∧ off % 4 = 0) ∧
    (∀ off ∈ [0x000, 0x010, 0x01C, 0x1FFC], Issues (issuing running (.regWrite off 4 1)) (.regWrite off 4 1) [] ∧
      off % 4 = 0 ∧ off ≠ 0x014 ∧ off ≠ 0x018) ∧
    (∀ n ∈ [1, 2, 4], Issues (issuing running (.memRead 0x10000 n)) (.memRead 0x10000 n) [] ∧
      Issues (issuing running (.memWrite 0 n 1)) (.memWrite 0 n 1) [] ∧ 0x10000 % n = 0 ∧ 0 % n = 0) := by decide

/-- The second half of the hold rule: a write is held, and the NOP completes. -/
theorem witness_hold_rule_release :
    let s : State := { completing tiny 0 with held := some (.memWrite 0 1 7) }
    CompletesNext s [] ∧ s.held = some (.memWrite 0 1 7) ∧ s.pending = some 0 ∧
    ∃ u, runCommand 0 { s with events := [] } = .next u := ⟨.inl rfl, rfl, rfl, _, rfl⟩

/-- Widths 1, 2 and 4 at address 0, at the last admitted address, and at MEM_SIZE. -/
theorem witness_host_memory_access :
    tiny.busy = false ∧ tiny.cfg.memSize ≤ 0x10000 ∧
    (∀ n ∈ [1, 2, 4], ∀ addr ∈ [0, 0x10000 - n, 0x10000], addr % n = 0 ∧
      Issues (issuing tiny (.memWrite addr n 7)) (.memWrite addr n 7) [] ∧
      Issues (issuing tiny (.memRead addr n)) (.memRead addr n) []) ∧
    (∀ n ∈ [1, 2, 4], 0x10000 - n + n ≤ tiny.cfg.memSize) ∧
    (∀ k, k < 4 → Store.read imageA.mem (0 + k) = some (BitVec.ofNat 8 (10 * (k + 1)))) ∧
    ¬((3 = 1 ∨ 3 = 2 ∨ 3 = 4) ∧ 0 % 3 = 0) ∧ ¬((2 = 1 ∨ 2 = 2 ∨ 2 = 4) ∧ 1 % 2 = 0) := by decide

theorem witness_register_access_not_admitted :
    (∀ p ∈ [(0, 1), (2, 4), (0x2000, 4)], p.2 ≠ 4 ∨ p.1 % 4 ≠ 0 ∨ 0x2000 ≤ p.1) ∧
    Issues (issuing running (.regRead 2 4)) (.regRead 2 4) [] ∧
    Issues (issuing tiny (.regWrite 0x2000 4 0)) (.regWrite 0x2000 4 0) [] := by decide

theorem witness_unwritten_host_read_faults :
    tiny.busy = false ∧
    (∀ i ∈ [0, 255], Issues (issuing tiny (.regRead (0x400 + 4 * i) 4)) (.regRead (0x400 + 4 * i) 4) [] ∧
      Store.read tiny.kram i = none ∧ Store.read tiny.hist i = none ∧ Store.read tiny.cum i = none ∧
      Store.read tiny.lut i = none) ∧
    (0xFFFC + 4 ≤ tiny.cfg.memSize ∧ Issues (issuing tiny (.memRead 0xFFFC 4)) (.memRead 0xFFFC 4) [] ∧
      Store.read tiny.mem (0xFFFC + 3) = none) := by decide

theorem witness_interrupt_output :
    Issues (issuing { tiny with status := 6, ctrl := 0x300 } (.regWrite 0x014 4 6)) (.regWrite 0x014 4 6) [] ∧
    (6 : Word).getLsbD 1 = true ∧ (6 : Word).getLsbD 2 = true ∧
    Issues (issuing { tiny with status := 6, ctrl := 0x300 } (.regWrite 0x018 4 0)) (.regWrite 0x018 4 0) [] ∧
    { tiny with status := 6, ctrl := 0x300 }.busy = false ∧ { tiny with status := 6, ctrl := 0x300 }.irq = true := by decide

/-- A completion without error and one with error. -/
theorem witness_completion_update :
    (∃ t, runCommand 0x22 running = .next t ∧ t.errcode = 0) ∧ ∃ t, runCommand 0x00008020 running = .next t ∧ t.errcode ≠ 0 :=
  ⟨⟨_, rfl, by decide⟩, _, rfl, by decide⟩

theorem witness_errors_are_precise : ∃ t, runCommand 0xFFFFFFFF running = .next t ∧ t.errcode ≠ 0 := ⟨_, rfl, by decide⟩

theorem witness_commands_write_only_destinations :
    (∃ t, exec (.copy 1 0 .gray) imageA = .next t ∧ t.errcode = 0) ∧
    ∀ addr ∈ [0x0F, 0x19], ∀ p ∈ destinations (.copy 1 0 .gray),
      addr < imageA.baseOf p.1 ∨ imageA.baseOf p.1 + imageA.len p.1 p.2 ≤ addr := ⟨⟨_, rfl, by decide⟩, by decide⟩

/-- ALLOC, and a command outside each of the lists. -/
theorem witness_commands_leave_control_state :
    (∃ t, exec (.alloc 1 .gray) imageA = .next t ∧ t.errcode = 0) ∧ (1 : DescId) ≠ 0 ∧
    (∃ t, exec .nop imageA = .next t) ∧ Instr.nop.opcode ∉ [Opcode.kgauss, .ksobelh, .ksobelv, .klapl, .blur] ∧
    Instr.nop.opcode ∉ [Opcode.cum, .equalize] ∧ destinations .nop = [] :=
  ⟨⟨_, rfl, by decide⟩, by decide, ⟨_, rfl⟩, by decide, by decide, rfl⟩

theorem filled_replicate {α : Type} (n : Nat) (v : α) : Filled (Store.ofListFrom 0 (List.replicate n v)) n := by
  intro i hi
  have h := Laws.read_ofListFrom (List.replicate n v) 0 i
  rw [Nat.zero_add] at h
  rw [h, List.getElem?_replicate, if_pos hi]
  rfl

/-- A machine with 16 bytes of memory in which everything has been written, running SOBEL. -/
def fullState : State :=
  { completing (place (place State.reset 0 0 2 2) 1 4 2 2) 0x00008025 with
    cfg := ⟨16, 4, 3⟩
    mem := Store.ofListFrom 0 (List.replicate 16 1)
    kram := Store.ofListFrom 0 (List.replicate 256 1)
    hist := Store.ofListFrom 0 (List.replicate 256 1)
    lut := Store.ofListFrom 0 (List.replicate 256 1) }

theorem witness_every_command_completes :
    fullState.cfg.Legal ∧ CompletesNext fullState [] ∧ fullState.pending = some 0x00008025 ∧
    (∀ addr, addr < fullState.cfg.memSize → (Store.read fullState.mem addr).isSome = true) ∧ Filled fullState.kram 256 ∧
    Filled fullState.hist 256 ∧ Filled fullState.lut 256 :=
  ⟨by constructor <;> decide, .inl rfl, rfl,
    filled_replicate 16 1, filled_replicate 256 1, filled_replicate 256 1, filled_replicate 256 1⟩

/-- CONV, CUM, LUT, SOBEL and SHARPEN complete without error; a command outside the list of the first clause. -/
theorem witness_written_before_read :
    (∃ t, exec (.conv 1 0) (withKernel imageA 1 [65536]) = .next t ∧ t.errcode = 0) ∧
    (∃ t, exec (.cum 0) { tiny with hist := words [1] } = .next t ∧ t.errcode = 0) ∧
    (∃ t, exec (.lut 1 0 .gray) { rgbState with lut := [(10, 1)] } = .next t ∧ t.errcode = 0) ∧
    (∃ t, exec (.sobel 1 0) imageA = .next t ∧ t.errcode = 0) ∧
    (∃ t, exec (.sharpen 1 0) imageA = .next t ∧ t.errcode = 0) ∧
    (Instr.conv 1 0).opcode ∉ [Opcode.sobel, .sharpen] ∧ (0, Format.gray) ∈ sourcesOf (.conv 1 0) :=
  ⟨⟨_, rfl, by decide⟩, ⟨_, rfl, by decide⟩, ⟨_, rfl, by decide⟩, ⟨_, rfl, by decide⟩, ⟨_, rfl, by decide⟩, by decide,
    by decide⟩

/-- SHRINK reads no corner of a 3x3 source for its one output pixel of SHARPEN, and SOBEL does not read its centre: both
complete with exactly the bytes they read written, and SOBEL on an unwritten neighbour faults. -/
theorem test_unread_pixels :
    let s : State := { place (place tiny 0 0 3 3) 2 0x20 1 1 with ctrl := 2 }
    let ring := poke (poke s 0 [10, 20, 30, 40]) 5 [60, 70, 80, 90]
    let plus := poke (poke (poke s 1 [20]) 3 [40, 50, 60]) 7 [80]
    after (exec (.sobel 2 0) ring) (dump 1 0x20) = some [some 253] ∧
    after (exec (.sharpen 2 0) plus) (dump 1 0x20) = some [some 50] ∧
    faultOf (exec (.sobel 2 0) plus) = some .unwrittenMemory := by decide

/-- The second operand of COPY misaligned, with W = 0, with H = 0, and with an extent one byte too long. -/
theorem witness_descriptor_errors :
    operandsOf (.copy 1 0 .gray) = [(0, .gray)] ++ (1, .gray) :: [] ∧ (Instr.copy 1 0 .gray).wellFormed = true ∧
    DescOk imageA 0 .gray ∧
    (place imageA 1 0x18 3 3).baseOf 1 % 16 ≠ 0 ∧
    ((place imageA 1 0x10 0 3).baseOf 1 % 16 = 0 ∧ (place imageA 1 0x10 0 3).widthOf 1 = 0) ∧
    (place imageA 1 0x10 3 0).heightOf 1 = 0 ∧
    0x10000 < (place imageA 1 0xFFF0 17 1).baseOf 1 + (place imageA 1 0xFFF0 17 1).len 1 .gray := by decide

/-- COPY into D2 of another size; CONV with radius 0 into D2. -/
theorem witness_size_errors :
    (∀ q ∈ operandsOf (.copy 2 0 .gray), DescOk imageA q.1 q.2) ∧
    (sizeChecks (.copy 2 0 .gray) = some (0, [] ++ 2 :: []) ∧ ¬SameSize imageA 0 2) ∧
    (∀ q ∈ operandsOf (.sobel 2 0), DescOk imageA q.1 q.2) ∧
    (neighbourhood imageA (.sobel 2 0) = some (2, 0, 1) ∧ ¬OutputSize imageA 0 2 1) := by decide

theorem witness_size_errors_kernel : KernelOk imageA (.copy 2 0 .gray) ∧ KernelOk imageA (.sobel 2 0) := ⟨trivial, trivial⟩

/-- SPLIT D1, D3, D3, D0: the pairs up to (D1, D3) pass, (D3, D3) does not. -/
theorem witness_overlap_errors :
    (∀ q ∈ operandsOf (.split 1 3 3 0), DescOk rgbState q.1 q.2) ∧ KernelOk rgbState (.split 1 3 3 0) ∧
    SizesOk rgbState (.split 1 3 3 0) ∧
    overlapChecks (.split 1 3 3 0) = (overlapChecks (.split 1 3 3 0)).take 5 ++ ((3, .gray), (3, .gray), false) :: [] ∧
    (∀ b ∈ (overlapChecks (.split 1 3 3 0)).take 5, PairOk rgbState b) ∧
    ¬PairOk rgbState ((3, .gray), (3, .gray), false) := by
  refine ⟨by decide, trivial, ⟨?_, ?_⟩, rfl, by decide, by decide⟩
  · intro a ns h
    obtain ⟨rfl, rfl⟩ := Prod.mk.inj (Option.some.inj h)
    decide
  · intro d a r h
    cases h

theorem witness_kernel_errors :
    (DescOk imageA 0 .gray ∧ DescOk imageA 1 .gray) ∧
    imageA.kw % 2 = 0 ∧ { imageA with ksize := 0x103 }.kw ≠ { imageA with ksize := 0x103 }.kh ∧
    imageA.cfg.kmax < { imageA with ksize := 0x1111 }.kw ∧
    ((4 : Byte).toNat % 2 = 0 ∧ imageA.cfg.kmax < (17 : Byte).toNat) ∧
    ((15 : Byte).toNat % 2 = 1 ∧ (15 : Byte).toNat ≤ imageA.cfg.kmax ∧ imageA.sigma = 0) := by decide

/-- A word with the opcode of NOP that is not its word. -/
theorem witness_nop_completes : bits 0x00000040 5 0 = 0 ∧ (0x00000040 : Word) ≠ 0 := by decide

/-- W = 0, H = 0, 17 bytes above 0xFFF0, and exactly 16. -/
theorem witness_alloc_places_a_buffer :
    tiny.cfg.Legal ∧ tiny.widthOf 0 = 0 ∧ (place tiny 0 0 3 0).heightOf 0 = 0 ∧
    (let s : State := { place tiny 0 0 17 1 with allocPtr := 0xFFF0 }
     0 < s.widthOf 0 ∧ 0 < s.heightOf 0 ∧
     s.cfg.memSize < s.allocPtr.toNat +
       (s.widthOf 0 * s.heightOf 0 * s.bpp .gray + s.cfg.bufAlign - 1) / s.cfg.bufAlign * s.cfg.bufAlign) ∧
    (let s : State := { place tiny 0 0 16 1 with allocPtr := 0xFFF0 }
     0 < s.widthOf 0 ∧ 0 < s.heightOf 0 ∧ s.allocPtr.toNat % s.cfg.bufAlign = 0 ∧
     s.allocPtr.toNat + (s.widthOf 0 * s.heightOf 0 * s.bpp .gray + s.cfg.bufAlign - 1) / s.cfg.bufAlign *
       s.cfg.bufAlign ≤ s.cfg.memSize) :=
  ⟨tiny_legal, by decide, by decide, by decide, by decide⟩

/-- Disjoint, and in place. -/
theorem witness_copy_copies_the_extent :
    PointwiseReady imageA (1, .gray) (0, .gray) ∧ PointwiseReady imageA (0, .gray) (0, .gray) := by decide

theorem witness_gray_averages : PointwiseReady rgbState (1, .gray) (0, .rgb) := by decide

theorem witness_split_separates_the_planes :
    PointwiseReady rgbState (1, .gray) (0, .rgb) ∧ PointwiseReady rgbState (2, .gray) (0, .rgb) ∧
    PointwiseReady rgbState (3, .gray) (0, .rgb) ∧ Apart rgbState (1, .gray) (2, .gray) ∧
    Apart rgbState (1, .gray) (3, .gray) ∧ Apart rgbState (2, .gray) (3, .gray) := by decide

theorem witness_merge_interleaves_the_planes :
    let s := poke (poke (poke rgbState 0x10 [1]) 0x20 [2]) 0x30 [3]
    PointwiseReady s (0, .rgb) (1, .gray) ∧ PointwiseReady s (0, .rgb) (2, .gray) ∧
    PointwiseReady s (0, .rgb) (3, .gray) := by decide

/-- Together with `witness_split_separates_the_planes`: the merged buffer may be the source itself. -/
theorem witness_merge_after_split_restores :
    DescOk rgbState 0 .rgb ∧ SameSize rgbState 0 0 ∧ PointwiseOk rgbState (0, .rgb) (1, .gray) ∧
    PointwiseOk rgbState (0, .rgb) (2, .gray) ∧ PointwiseOk rgbState (0, .rgb) (3, .gray) := by decide

/-- WIDE, PACKED with a hue of 117, and PACKED with a hue of 270 (95 section 2.2). -/
theorem witness_rgb2hsv_converts :
    PointwiseReady rgbState (1, .hsv) (0, .rgb) ∧ rgbState.packed = false ∧
    (let s : State := { rgbState with ctrl := 4 }
     PointwiseReady s (0, .hsv) (0, .rgb) ∧ s.packed = true ∧
     (hsvForward (pixelAt s 0 .rgb 0 0 0) (pixelAt s 0 .rgb 0 0 1) (pixelAt s 0 .rgb 0 0 2)).1 ≤ 255) ∧
    (let s : State := { poke rgbState 0 [128, 0, 255] with ctrl := 4 }
     PointwiseReady s (1, .hsv) (0, .rgb) ∧ s.packed = true ∧ 0 < s.widthOf 0 * s.heightOf 0 ∧
     255 < (hsvForward (pixelAt s 0 .rgb 0 0 0) (pixelAt s 0 .rgb 0 0 1) (pixelAt s 0 .rgb 0 0 2)).1) := by decide

/-- 95 section 2.2: hues 117, 0 for a grey, and 359.76 stored as 0. -/
theorem witness_hsv_forward_function :
    hsvForward 10 200 0 = (117, 100, 78) ∧ hsvForward 128 128 128 = (0, 0, 50) ∧ hsvForward 255 0 1 = (0, 100, 100) := by
  decide

/-- 95 section 2.2, with the ends of the range of the hue. -/
theorem witness_hsv_inverse_function :
    hsvInverse 0 100 100 = (255, 0, 0) ∧ hsvInverse 360 100 100 = (255, 0, 0) ∧ hsvInverse 186 100 73 = (0, 168, 186) := by
  decide

theorem witness_hsv2rgb_converts :
    PointwiseReady (poke rgbState 0 [0x67, 0x01, 100, 100]) (1, .rgb) (0, .hsv) ∧
    (let s : State := { rgbState with ctrl := 4 }
     PointwiseReady s (0, .rgb) (0, .hsv)) := by decide

theorem witness_matx_multiplies : PointwiseReady rgbState (0, .rgb) (0, .rgb) := by decide

theorem witness_reset_matrices_are_luma_chroma : tiny.mat = resetMat := rfl

theorem witness_lut_maps_every_byte :
    let s : State := { rgbState with lut := [(0, 255), (10, 245), (200, 55)] }
    Format.ycc ≠ .hsv ∧ PointwiseReady s (1, .ycc) (0, .ycc) ∧
    ∀ k, k < s.len 0 .ycc → (Store.read s.lut (byteAt s (s.baseOf 0 + k))).isSome = true := by decide

/-- The largest kernel side on this image under REPLICATE, and SHRINK into a 1x1 destination. -/
theorem witness_conv_correlates :
    let s := withKernel imageA 3 sobelWords
    let u : State := { s with ctrl := 2 }
    (s.kw = s.kh ∧ s.kw % 2 = 1 ∧ s.kw ≤ s.cfg.kmax) ∧ NeighbourReady s 1 0 (s.kw / 2) ∧ Filled s.kram (s.kw * s.kw) ∧
    NeighbourReady u 2 0 (u.kw / 2) := by decide

theorem witness_conv_correlates_kernel : KernelOk (withKernel imageA 3 sobelWords) (.conv 1 0) := by
  show _ ∧ _ ∧ _
  decide

theorem witness_conv_identity :
    let s := withKernel imageA 1 [65536]
    1 ≤ s.cfg.kmax ∧ s.kw = 1 ∧ s.kh = 1 ∧ Store.read s.kram 0 = some 0x00010000 ∧ DescOk s 0 .gray ∧ DescOk s 1 .gray ∧
    SameSize s 0 1 ∧ Apart s (1, .gray) (0, .gray) ∧ Readable s 0 .gray := by decide

/-- REPLICATE into D1 and SHRINK into D1 as a 1x1 buffer, on the one interior pixel (1, 1). -/
theorem witness_conv_interior_agreement :
    let s := withKernel imageA 3 sobelWords
    let s' : State := { place s 1 0x10 1 1 with ctrl := 2 }
    s'.mem = s.mem ∧ s'.kram = s.kram ∧ s'.ksize = s.ksize ∧ s'.desc.get 0 = s.desc.get 0 ∧
    after (exec (.conv 1 0) s) State.errcode = some 0 ∧ after (exec (.conv 1 0) s') State.errcode = some 0 ∧
    s.kw / 2 ≤ 1 ∧ 1 + s.kw / 2 < s.widthOf 0 ∧ 1 + s.kw / 2 < s.heightOf 0 := by decide

theorem witness_kgauss_loads_the_kernel :
    (1 : Byte).toNat % 2 = 1 ∧ (15 : Byte).toNat % 2 = 1 ∧ (15 : Byte).toNat ≤ tiny.cfg.kmax ∧
    { tiny with gauss := 0xFFFF }.sigma ≠ 0 ∧ { tiny with gauss := 1 }.sigma ≠ 0 := by decide

theorem witness_gauss_kernel_weights :
    { tiny with gauss := 1 }.cfg.Legal ∧ { tiny with gauss := 1 }.sigma ≠ 0 ∧
    ∃ t, exec (.kgauss 3) { tiny with gauss := 1 } = .next t ∧ t.errcode = 0 := ⟨tiny_legal, by decide, _, rfl, by decide⟩

theorem witness_sobel_magnitude :
    NeighbourReady imageA 1 0 1 ∧ NeighbourReady { imageA with ctrl := 2 } 2 0 1 := by decide

theorem witness_sharpen_adds_the_laplacian :
    NeighbourReady { imageA with ctrl := 9 } 1 0 1 ∧ NeighbourReady { imageA with ctrl := 10 } 2 0 1 := by decide

theorem witness_blur_smooths :
    KernelOk { imageA with gauss := 0x100 } (.blur 1 0 15) ∧
    NeighbourReady { imageA with gauss := 0x100 } 1 0 ((15 : Byte).toNat / 2) := by
  refine ⟨?_, by decide⟩
  show _ ∧ _ ∧ _
  decide

theorem witness_blur_is_kgauss_then_conv :
    let s : State := { poke (place (place tiny 0 0 1 1) 1 0x10 1 1) 0 [9] with gauss := 0x100 }
    ∃ t u, exec (.kgauss 1) s = .next t ∧ t.errcode = 0 ∧ exec (.conv 1 0) t = .next u ∧ u.errcode = 0 :=
  ⟨_, _, rfl, by decide, rfl, by decide⟩

theorem witness_hist_counts : DescOk quad 0 .gray ∧ Readable quad 0 .gray := by decide

/-- L = 0 and L = 255. -/
theorem witness_cum_sums :
    Filled { tiny with hist := [(0, 7)] }.hist ((0 : Byte).toNat + 1) ∧ Filled fullState.hist ((255 : Byte).toNat + 1) :=
  ⟨by decide, filled_replicate 256 1⟩

theorem witness_cumulative_total :
    ∀ x, x < quad.widthOf 0 → ∀ y, y < quad.heightOf 0 → pixelAt quad 0 .gray x y 0 ≤ (255 : Byte).toNat := by decide

theorem witness_equalize_remaps :
    let s : State := { quad with hist := words [1, 2] }
    PointwiseReady s (1, .gray) (0, .gray) ∧ PointwiseReady s (0, .gray) (0, .gray) ∧ Filled s.hist ((1 : Byte).toNat + 1) := by
  decide

/-- The least and the greatest count at different levels, and at the same level. -/
theorem witness_stretch_rescales :
    let s : State := { quad with hist := words [3, 0, 2] }
    let u : State := { quad with hist := words [4, 4] }
    PointwiseReady s (1, .gray) (0, .gray) ∧ Filled s.hist ((2 : Byte).toNat + 1) ∧
    IsLeastMin (entryAt s.hist) 2 1 ∧ IsLeastMax (entryAt s.hist) 2 0 ∧
    Filled u.hist ((1 : Byte).toNat + 1) ∧ IsLeastMin (entryAt u.hist) 1 0 ∧ IsLeastMax (entryAt u.hist) 1 0 := by decide

end Sys2Proof.Tests
end

section
/-! PROOFS. The invariant of the machine: it holds after reset, and every step keeps it (10_state R25 to R35, R46, R47,
60_exceptions R220 to R222). Each kind of change of the state has one lemma; `step_cases` puts them together. -/

namespace Sys2Proof.Proofs

open Sys2Proof Sys2Proof.Machine Sys2Proof.Safety Sys2Proof.Laws

/-! ## Fields of a register, bit by bit -/

/-- Fields that read 0 still read 0 when no bit of them has become 1. -/
theorem reserved_of_bits {w w' m : Word} (h : w &&& m = 0)
    (hb : ∀ i, m.getLsbD i = true → w'.getLsbD i = true → w.getLsbD i = true) : w' &&& m = 0 := by
  apply BitVec.eq_of_getLsbD_eq
  intro i _
  have hw : w.getLsbD i = true → m.getLsbD i = false := by
    have := congrArg (·.getLsbD i) h
    simpa using this
  rw [BitVec.getLsbD_and, show (0 : Word).getLsbD i = false by simp]
  cases hm : m.getLsbD i with
  | false => simp
  | true =>
    cases hw' : w'.getLsbD i with
    | false => rfl
    | true => rw [hw (hb i hm hw')] at hm; cases hm

/-- ERRCODE is bits 8 to 11 of STATUS (R27). -/
theorem errcode_of_bits {w w' : Word} (h : ∀ i, 8 ≤ i → i < 12 → w'.getLsbD i = w.getLsbD i) :
    bits w' 11 8 = bits w 11 8 := by
  rw [errcode_field, errcode_field]
  congr 1
  apply BitVec.eq_of_getLsbD_eq
  intro i hi
  simp only [BitVec.getLsbD_setWidth, BitVec.getLsbD_ushiftRight, h (8 + i) (by omega) (by omega)]

/-- The reserved fields of STATUS are bits 4 to 7 and 12 to 31 (R27). -/
theorem not_reserved_status_bit {i : Nat} (h : (0xFFFFF0F0 : Word).getLsbD i = true) :
    i ≠ 0 ∧ i ≠ 1 ∧ i ≠ 2 ∧ i ≠ 3 ∧ ¬(8 ≤ i ∧ i ≤ 11) := by
  refine ⟨?_, ?_, ?_, ?_, fun ⟨h1, h2⟩ => ?_⟩
  case refine_5 => interval_cases i <;> simp at h
  all_goals
    rintro rfl
    simp at h

theorem statusAccepted_reserved {w : Word} (h : w &&& 0xFFFFF0F0 = 0) : statusAccepted w &&& 0xFFFFF0F0 = 0 := by
  refine reserved_of_bits h fun i hm hb => ?_
  obtain ⟨h0, h1, h2, -, -⟩ := not_reserved_status_bit hm
  simpa [statusAccepted_bit, h0, h1, h2] using hb

theorem statusOverrun_reserved {w : Word} (h : w &&& 0xFFFFF0F0 = 0) : statusOverrun w &&& 0xFFFFF0F0 = 0 := by
  refine reserved_of_bits h fun i hm hb => ?_
  obtain ⟨-, -, -, h3, -⟩ := not_reserved_status_bit hm
  simpa [statusOverrun_bit, h3] using hb

theorem statusWrite_reserved {w : Word} (v : Word) (h : w &&& 0xFFFFF0F0 = 0) : statusWrite w v &&& 0xFFFFF0F0 = 0 := by
  refine reserved_of_bits h fun i _ hb => ?_
  rw [statusWrite_bit, Bool.and_eq_true] at hb
  exact hb.1

theorem statusDone_reserved {w : Word} (h : w &&& 0xFFFFF0F0 = 0) : statusDone w &&& 0xFFFFF0F0 = 0 := by
  refine reserved_of_bits h fun i hm hb => ?_
  obtain ⟨h0, h1, -, -, h8⟩ := not_reserved_status_bit hm
  rw [statusDone_bit] at hb
  simp only [h1, beq_iff_eq, Bool.or_eq_true, Bool.and_eq_true, false_or] at hb
  exact hb.1.1

theorem statusFailed_reserved {w : Word} (e : Error) (h : w &&& 0xFFFFF0F0 = 0) :
    statusFailed w e.code &&& 0xFFFFF0F0 = 0 := by
  refine reserved_of_bits h fun i hm hb => ?_
  obtain ⟨h0, h1, h2, -, h8⟩ := not_reserved_status_bit hm
  rw [statusFailed_bit] at hb
  simp only [h1, h2, beq_iff_eq, Bool.or_eq_true, Bool.and_eq_true, decide_eq_true_eq, false_or, h8, false_and,
    or_false] at hb
  exact hb.1.1

theorem statusAccepted_errcode (w : Word) : bits (statusAccepted w) 11 8 = bits w 11 8 := by
  refine errcode_of_bits fun i h1 h2 => ?_
  interval_cases i <;> exact (statusAccepted_bit w _).trans (by simp)

theorem statusOverrun_errcode (w : Word) : bits (statusOverrun w) 11 8 = bits w 11 8 := by
  refine errcode_of_bits fun i h1 h2 => ?_
  rw [statusOverrun_bit]
  simp [show i ≠ 3 by omega]

theorem statusWrite_errcode (w v : Word) : bits (statusWrite w v) 11 8 = bits w 11 8 := by
  refine errcode_of_bits fun i h1 h2 => ?_
  rw [statusWrite_bit]
  simp [show i ≠ 1 by omega, show i ≠ 2 by omega, show i ≠ 3 by omega]

/-- A CTRL write leaves the reserved fields of CTRL 0 (R25). -/
theorem ctrlWrite_reserved (old v : Word) : ctrlWrite old v &&& 0xFFFFFCF0 = 0 := by
  refine reserved_of_bits (w := 0) (by simp) fun i hm hb => ?_
  have h01 : 2 ≤ i := by
    by_contra hc
    have : i = 0 ∨ i = 1 := by omega
    rcases this with rfl | rfl <;> simp at hm
  rw [ctrlWrite_bit old v h01, Bool.and_eq_true] at hb
  simp only [Bool.or_eq_true, beq_iff_eq] at hb
  obtain ⟨((rfl | rfl) | rfl) | rfl, -⟩ := hb <;> simp at hm

/-- A CTRL write never makes BORDER 3 (R26). -/
theorem ctrlWrite_border_ne {old : Word} (v : Word) (h : bits old 1 0 ≠ 3) : bits (ctrlWrite old v) 1 0 ≠ 3 := by
  rw [ctrlWrite_border]
  split <;> assumption

/-- A register that keeps the low half of what is written has its high half 0 (R31 to R33). -/
theorem low_half_reserved (v : Word) : v &&& 0xFFFF &&& 0xFFFF0000 = 0 := by
  rw [BitVec.and_assoc, show (0xFFFF : Word) &&& 0xFFFF0000 = 0 by decide]
  exact BitVec.and_zero

theorem accept_busy (s : State) (w : Word) : (s.accept w).busy = true := statusAccepted_bit s.status 0

theorem accept_doneBit (s : State) (w : Word) : (s.accept w).doneBit = false :=
  (statusAccepted_bit s.status 1).trans (by simp)

theorem accept_errBit (s : State) (w : Word) : (s.accept w).errBit = false :=
  (statusAccepted_bit s.status 2).trans (by simp)

/-- The completion update ends BUSY, whatever the command's outcome (R222). -/
theorem complete_busy (s : State) (r : Option (Error × Nat)) : (s.complete r).busy = false := by
  cases r with
  | none => exact (statusDone_bit s.status 0).trans (by simp)
  | some p => exact (statusFailed_bit s.status p.1 0).trans (by simp)

/-! ## Bounds of stores -/

theorem write_bound {α : Type} {m : Store α} {n k : Nat} (v : α) (hk : k < n) (h : ∀ p ∈ m, p.1 < n) :
    ∀ p ∈ Store.write m k v, p.1 < n := by
  intro p hp
  rcases mem_write hp with rfl | hp
  · exact hk
  · exact h p hp

theorem writeList_bound {α : Type} {m : Store α} {n base : Nat} {vs : List α} (hb : base + vs.length ≤ n)
    (h : ∀ p ∈ m, p.1 < n) : ∀ p ∈ Store.writeList m base vs, p.1 < n := by
  intro p hp
  rcases mem_writeList hp with ⟨_, hlt⟩ | hp
  · omega
  · exact h p hp

theorem ofListFrom_bound {α : Type} {n : Nat} {vs : List α} (hb : vs.length ≤ n) :
    ∀ p ∈ Store.ofListFrom 0 vs, p.1 < n := by
  intro p hp
  have := (mem_ofListFrom hp).2
  omega

theorem forgetAll_bound {n : Nat} (extents : List (Nat × Nat)) {m : Memory} (h : ∀ p ∈ m, p.1 < n) :
    ∀ p ∈ extents.foldl (fun m e => Store.forget m e.1 e.2) m, p.1 < n := by
  induction extents generalizing m with
  | nil => exact h
  | cons e rest ih => exact ih fun p hp => h p (mem_forget hp)

/-! ## Each change of the state keeps the invariant -/

/-- The model's own fields play no part in the invariant. -/
theorem inv_world {s : State} (h : Inv s) (es : List Event) (rs : List Response) :
    Inv { s with events := es, responses := rs } := { h with }

theorem inv_respond {s : State} (h : Inv s) (r : Response) : Inv (s.respond r) := inv_world h s.events (r :: s.responses)

/-- Holding an access while BUSY (R86). -/
theorem inv_hold {s : State} (h : Inv s) (hb : s.busy = true) (a : Access) : Inv { s with held := some a } :=
  { h with heldBusy := fun _ => hb }

/-- Dropping the held access, whatever the events are then. -/
theorem inv_releaseHeld {s : State} (h : Inv s) : Inv s.releaseHeld := by
  cases hh : s.held with
  | none => rwa [releaseHeld_of_none hh]
  | some a =>
    rw [releaseHeld_of_some hh]
    exact { h with heldBusy := fun hc => by cases hc }

/-- Acceptance of a command (R29, R220). -/
theorem inv_accept {s : State} (h : Inv s) (w : Word) : Inv (s.accept w) :=
  { h with
    statusReserved := statusAccepted_reserved h.statusReserved
    errcode := (statusAccepted_errcode s.status).trans_le h.errcode
    errinfo := fun hc => h.errinfo ((statusAccepted_errcode s.status).symm.trans hc)
    pendingBusy := (accept_busy s w).symm
    pendingCmd := fun _ hw => Option.some.inj hw
    busyClear := fun _ => ⟨accept_doneBit s w, accept_errBit s w⟩
    heldBusy := fun _ => accept_busy s w }

/-- The completion update, once no access is held (R222). -/
theorem inv_complete {s : State} (h : Inv s) (hh : s.held = none) (r : Option (Error × Nat)) : Inv (s.complete r) := by
  have hbusy := complete_busy s r
  have pendingBusy : (s.complete r).pending.isSome = (s.complete r).busy := by rw [complete_pending, hbusy]; rfl
  have busyClear : (s.complete r).busy = true → (s.complete r).doneBit = false ∧ (s.complete r).errBit = false :=
    fun hc => by rw [hbusy] at hc; cases hc
  have heldBusy : (s.complete r).held.isSome = true → (s.complete r).busy = true :=
    fun hc => by rw [complete_held, hh] at hc; cases hc
  cases r with
  | none =>
    have hcode : (s.complete none).errcode = 0 := statusDone_errcode s.status
    exact { h with
      statusReserved := statusDone_reserved h.statusReserved
      errcode := by omega
      errinfo := fun _ => rfl
      pendingCmd := fun _ hw => by cases hw
      pendingBusy, busyClear, heldBusy }
  | some p =>
    obtain ⟨e, info⟩ := p
    have hcode : (s.complete (some (e, info))).errcode = e.code := statusFailed_errcode s.status e
    have hrange := code_range e
    exact { h with
      statusReserved := statusFailed_reserved e h.statusReserved
      errcode := by omega
      errinfo := fun hc => by omega
      pendingCmd := fun _ hw => by cases hw
      pendingBusy, busyClear, heldBusy }

/-- The held access may as well be released before the completion update. -/
theorem releaseHeld_complete (s : State) (r : Option (Error × Nat)) :
    (s.complete r).releaseHeld = s.releaseHeld.complete r := by
  cases hh : s.held with
  | none => rw [releaseHeld_of_none hh, releaseHeld_of_none (by rw [complete_held, hh])]
  | some a =>
    rw [releaseHeld_of_some hh, releaseHeld_of_some (by rw [complete_held, hh])]
    cases r <;> rfl

theorem inv_complete_releaseHeld {s : State} (h : Inv s) (r : Option (Error × Nat)) : Inv (s.complete r).releaseHeld := by
  rw [releaseHeld_complete]
  exact inv_complete (inv_releaseHeld h) (releaseHeld_held s) r

/-- A host write of a register or window entry (R25 to R43). -/
theorem inv_writeReg {s : State} (h : Inv s) (v : Word) (off : Nat) : Inv (s.writeReg v (regAt off)) := by
  cases hr : regAt off with
  | id | version | caps | memSize | errinfo | reserved => exact h
  | ctrl =>
    exact { h with
      ctrlReserved := ctrlWrite_reserved s.ctrl v
      ctrlBorder := ctrlWrite_border_ne v h.ctrlBorder }
  | status =>
    have hbit := statusWrite_bit s.status v
    have hbusy : (s.writeReg v .status).busy = s.busy := by
      exact (hbit 0).trans (Bool.and_true _)
    exact { h with
      statusReserved := statusWrite_reserved v h.statusReserved
      errcode := (statusWrite_errcode s.status v).trans_le h.errcode
      errinfo := fun hc => h.errinfo ((statusWrite_errcode s.status v).symm.trans hc)
      pendingBusy := h.pendingBusy.trans hbusy.symm
      busyClear := fun hc => by
        obtain ⟨hdone, herr⟩ := h.busyClear (hbusy ▸ hc)
        unfold State.doneBit State.errBit at *
        exact ⟨by rw [State.writeReg, hbit, hdone]; rfl, by rw [State.writeReg, hbit, herr]; rfl⟩
      heldBusy := fun hc => hbusy.trans (h.heldBusy hc) }
  | cmd =>
    rw [State.writeReg]
    split
    · have hbit := statusOverrun_bit s.status
      exact { h with
        statusReserved := statusOverrun_reserved h.statusReserved
        errcode := (statusOverrun_errcode s.status).trans_le h.errcode
        errinfo := fun hc => h.errinfo ((statusOverrun_errcode s.status).symm.trans hc)
        pendingBusy := h.pendingBusy.trans (hbit 0).symm
        busyClear := fun hc => by
          obtain ⟨hdone, herr⟩ := h.busyClear ((hbit 0).symm.trans hc)
          exact ⟨(hbit 1).trans hdone, (hbit 2).trans herr⟩
        heldBusy := fun hc => (hbit 0).trans (h.heldBusy hc) }
    · exact inv_accept h v
  | ksize => exact { h with ksizeReserved := low_half_reserved v }
  | sharpk => exact { h with sharpkReserved := low_half_reserved v }
  | gauss => exact { h with gaussReserved := low_half_reserved v }
  | allocPtr =>
    refine { h with allocAligned := ?_ }
    show (BitVec.ofNat 32 (v.toNat / s.cfg.bufAlign * s.cfg.bufAlign)).toNat % s.cfg.bufAlign = 0
    have hle : v.toNat / s.cfg.bufAlign * s.cfg.bufAlign ≤ v.toNat := Nat.div_mul_le_self _ _
    rw [BitVec.toNat_ofNat, Nat.mod_eq_of_lt (hle.trans_lt v.isLt), Nat.mul_mod_left]
  | descBase _ | descDim _ | mat _ => exact { h with }
  | kram i =>
    obtain ⟨hkram, -, -, -⟩ := regAt_index_lt (off := off) (i := i)
    exact { h with kramWf := wf_write _ _ h.kramWf, kramBound := write_bound _ (hkram hr) h.kramBound }
  | hist i =>
    obtain ⟨-, hhist, -, -⟩ := regAt_index_lt (off := off) (i := i)
    exact { h with histWf := wf_write _ _ h.histWf, histBound := write_bound _ (hhist hr) h.histBound }
  | cum i =>
    obtain ⟨-, -, hcum, -⟩ := regAt_index_lt (off := off) (i := i)
    exact { h with cumWf := wf_write _ _ h.cumWf, cumBound := write_bound _ (hcum hr) h.cumBound }
  | lut i =>
    obtain ⟨-, -, -, hlut⟩ := regAt_index_lt (off := off) (i := i)
    exact { h with lutWf := wf_write _ _ h.lutWf, lutBound := write_bound _ (hlut hr) h.lutBound }

/-- A host write of buffer memory (R87). -/
theorem inv_hostMemWrite {s : State} (h : Inv s) (addr n : Nat) (v : Word) : Inv (s.hostMemWrite addr n v) := by
  have hwf := wf_hostMemWrite addr n v h.memWf
  unfold State.hostMemWrite at *
  split
  · rename_i hle
    rw [if_pos hle] at hwf
    exact { h with
      memWf := hwf
      memBound := writeList_bound (by rw [length_leBytes]; exact hle) h.memBound }
  · exact h

/-- The writing of a destination extent (R77). -/
theorem inv_writesExtent {s s' : State} {d : DescId} {f : Format} (h : Inv s) (hw : WritesExtent s d f s') : Inv s' := by
  obtain ⟨bytes, hlen, ⟨-, -, -, hfit⟩, rfl⟩ := hw
  exact { h with
    memWf := wf_putExtent d bytes h.memWf
    memBound := writeList_bound (hlen ▸ hfit) h.memBound }

/-- KSIZE as a kernel builder sets it has its high half 0 (R31). -/
theorem ksize_word_reserved {k : Nat} (hk : k ≤ 15) : BitVec.ofNat 32 (k + k * 2 ^ 8) &&& 0xFFFF0000 = 0 := by
  interval_cases k <;> rfl

/-- The loading of a kernel that KMAX allows (R178). -/
theorem inv_loadsKernel {s s' : State} {k : Nat} (h : Inv s) (hk : k ≤ 15) (hl : LoadsKernel s k s') : Inv s' := by
  obtain ⟨ws, hlen, rfl⟩ := hl
  have hsize : k * k ≤ 15 * 15 := Nat.mul_le_mul hk hk
  exact { h with
    kramWf := wf_writeList _ 0 h.kramWf
    kramBound := writeList_bound (by rw [List.length_map]; omega) h.kramBound
    ksizeReserved := ksize_word_reserved hk }

/-- The effects of ALLOC: the new ALLOC_PTR is inside 32 bits and aligned (R34, R131). -/
theorem inv_allocate {s : State} (h : Inv s) (d : DescId) {w l : Nat} {f : Format}
    (hfit : s.allocPtr.toNat + s.alen w l f ≤ s.cfg.memSize) : Inv (s.allocate d (s.alen w l f)) := by
  have hmem := h.params.mem_hi
  refine { h with allocAligned := ?_ }
  have halen : s.alen w l f % s.cfg.bufAlign = 0 := Nat.mul_mod_left _ _
  have hlt : s.allocPtr.toNat + s.alen w l f < 2 ^ 32 := by omega
  rw [allocate_allocPtr, allocate_cfg, BitVec.toNat_ofNat, Nat.mod_eq_of_lt hlt, Nat.add_mod, h.allocAligned, halen]
  exact Nat.zero_mod _

/-- The effects of every command (R220). -/
theorem inv_effect {s s' : State} {i : Instr} (h : Inv s) (he : Effect s i s') : Inv s' := by
  have hkmax := h.params.kmax_hi
  cases i with
  | nop => exact he ▸ h
  | alloc d f =>
    obtain ⟨_, rfl, hfit, rfl⟩ := he
    exact inv_allocate h d hfit
  | copy | gray | merge | rgb2hsv | hsv2rgb | matx | lut | conv | sobel | sharpen | stretch => exact inv_writesExtent h he
  | split =>
    obtain ⟨s1, s2, h1, h2, h3⟩ := he
    exact inv_writesExtent (inv_writesExtent (inv_writesExtent h h1) h2) h3
  | kgauss k => exact inv_loadsKernel h (he.1.trans hkmax) he.2
  | ksobelh | ksobelv | klapl => exact inv_loadsKernel h (by omega) he
  | blur d a k =>
    obtain ⟨hk, s1, hload, hwrite⟩ := he
    exact inv_writesExtent (inv_loadsKernel h (hk.trans hkmax) hload) hwrite
  | hist =>
    obtain ⟨vs, hlen, rfl⟩ := he
    exact { h with histWf := wf_ofListFrom vs 0, histBound := ofListFrom_bound hlen.le }
  | cum =>
    obtain ⟨vs, hlen, rfl⟩ := he
    exact { h with cumWf := wf_ofListFrom vs 0, cumBound := ofListFrom_bound hlen.le }
  | equalize =>
    obtain ⟨cs, ts, hcs, hts, hwrite⟩ := he
    refine inv_writesExtent ?_ hwrite
    exact { h with
      cumWf := wf_ofListFrom cs 0, cumBound := ofListFrom_bound hcs.le
      lutWf := wf_ofListFrom ts 0, lutBound := ofListFrom_bound hts.le }

/-! ## The state after reset, and every step -/

theorem default_params_legal : Config.Params.default.Legal := by constructor <;> decide

/-- Settles O9: the parameters are the defaults, and every other field is a constant. -/
theorem resetMeetsInv : Obligations.reset_meets_inv := by
  unfold Obligations.reset_meets_inv
  constructor
  case params => exact default_params_legal
  case pendingCmd => exact fun _ hw => by cases hw
  all_goals decide

/-- A reset keeps of the state only the parameters and a part of memory (R260 to R263). -/
theorem inv_applyReset {s : State} (h : Inv s) (k : ResetKind) : Inv (s.applyReset k) := by
  have hreset : Inv State.reset := resetMeetsInv
  refine { hreset with params := h.params, memWf := wf_applyReset k h.memWf, memBound := ?_, allocAligned := Nat.zero_mod _ }
  cases k with
  | powerOn => exact fun _ hp => by cases hp
  | warm => exact forgetAll_bound s.abandonedExtents h.memBound

theorem inv_completion {s t : State} (h : Inv s) (hc : completion s = .next t) : Inv t := by
  rcases completion_cases hc with ⟨-, rfl⟩ | ⟨w, u, -, hrun, rfl⟩
  · exact inv_releaseHeld h
  · rcases runCommand_cases hrun with ⟨e, info, rfl⟩ | ⟨i, s', -, he, rfl⟩
    · exact inv_complete_releaseHeld h _
    · exact inv_complete_releaseHeld (inv_effect h he) _

theorem inv_perform {s t : State} {a : Access} (h : Inv s) (hp : s.perform a = .next t) : Inv t := by
  rcases perform_cases hp with ⟨v, rfl⟩ | ⟨off, n, v, -, rfl⟩ | ⟨addr, n, v, -, rfl⟩
  · exact inv_respond h _
  · exact inv_respond (inv_writeReg h v off) _
  · exact inv_respond (inv_hostMemWrite h addr n v) _

theorem inv_hostAccess {s t : State} {a : Access} (h : Inv s) (ha : hostAccess s a = .next t) : Inv t := by
  obtain ⟨-, ⟨hb, -, rfl⟩ | ⟨-, hp⟩⟩ := hostAccess_cases ha
  · exact inv_hold h hb a
  · exact inv_perform h hp

theorem inv_step {s t : State} (h : Inv s) (hs : step s = .next t) : Inv t := by
  have hworld : ∀ rest, Inv { s with events := rest } := fun rest => inv_world h rest s.responses
  rcases step_cases hs with ⟨rest, -, hc⟩ | ⟨a, rest, -, ha⟩ | ⟨k, rest, -, rfl⟩
  · exact inv_completion (hworld rest) hc
  · exact inv_hostAccess (hworld rest) ha
  · exact inv_applyReset (hworld rest) k

end Sys2Proof.Proofs
end

section
/-! PROOFS. What a completed command may have changed, by the shape of its effects (`effect_shapes`), and with it the frame of
the commands (10_state R31, R36, 42_convolution R178, R186, 43_histogram R200 to R202) and the constancy of the parameters. -/

namespace Sys2Proof.Proofs

open Sys2Proof Sys2Proof.Machine Sys2Proof.Safety Sys2Proof.Laws

/-- Reading an entry of a vector of registers after one of them was written. -/
theorem vector_get_set {α : Type} {n : Nat} (v : Vector α n) (i j : Fin n) (x : α) :
    (v.set i x).get j = if i = j then x else v.get j := by
  simp only [Vector.get_eq_getElem, Vector.getElem_set, Fin.val_inj]

/-- What a command without error may have changed: ALLOC a descriptor and ALLOC_PTR; the kernel builders and BLUR the
kernel; HIST, CUM and EQUALIZE their windows; every other command buffer memory only, if it has a destination at all. -/
theorem effect_shapes {s s' : State} {i : Instr} (he : Effect s i s') :
    (∃ d f size, i = .alloc d f ∧ s' = s.allocate d size) ∨
    ∃ m, (destinations i = [] → m = s.mem) ∧ (∀ d f, i ≠ .alloc d f) ∧
      (s' = { s with mem := m } ∨
       (i.opcode ∈ [Opcode.kgauss, .ksobelh, .ksobelv, .klapl, .blur] ∧
         ∃ k z, s' = { s with mem := m, kram := k, ksize := z }) ∨
       (i.opcode = .hist ∧ ∃ h, s' = { s with mem := m, hist := h }) ∨
       (i.opcode = .cum ∧ ∃ c, s' = { s with mem := m, cum := c }) ∨
       (i.opcode = .equalize ∧ ∃ c l, s' = { s with mem := m, cum := c, lut := l })) := by
  cases i with
  | nop => exact .inr ⟨s.mem, fun _ => rfl, by simp, .inl he⟩
  | alloc d f =>
    obtain ⟨size, -, -, rfl⟩ := he
    exact .inl ⟨d, f, size, rfl, rfl⟩
  | copy | gray | merge | rgb2hsv | hsv2rgb | matx | lut | conv | sobel | sharpen | stretch =>
    obtain ⟨bytes, -, -, rfl⟩ := he
    exact .inr ⟨_, by simp [destinations], by simp, .inl rfl⟩
  | split =>
    obtain ⟨_, _, ⟨_, -, -, rfl⟩, ⟨_, -, -, rfl⟩, ⟨_, -, -, rfl⟩⟩ := he
    exact .inr ⟨_, by simp [destinations], by simp, .inl rfl⟩
  | kgauss =>
    obtain ⟨-, _, -, rfl⟩ := he
    exact .inr ⟨s.mem, fun _ => rfl, by simp, .inr (.inl ⟨by simp [Instr.opcode], _, _, rfl⟩)⟩
  | ksobelh | ksobelv | klapl =>
    obtain ⟨_, -, rfl⟩ := he
    exact .inr ⟨s.mem, fun _ => rfl, by simp, .inr (.inl ⟨by simp [Instr.opcode], _, _, rfl⟩)⟩
  | blur =>
    obtain ⟨-, _, ⟨_, -, rfl⟩, ⟨_, -, -, rfl⟩⟩ := he
    exact .inr ⟨_, by simp [destinations], by simp, .inr (.inl ⟨by simp [Instr.opcode], _, _, rfl⟩)⟩
  | hist =>
    obtain ⟨_, -, rfl⟩ := he
    exact .inr ⟨s.mem, fun _ => rfl, by simp, .inr (.inr (.inl ⟨rfl, _, rfl⟩))⟩
  | cum =>
    obtain ⟨_, -, rfl⟩ := he
    exact .inr ⟨s.mem, fun _ => rfl, by simp, .inr (.inr (.inr (.inl ⟨rfl, _, rfl⟩)))⟩
  | equalize =>
    obtain ⟨_, _, -, -, _, -, -, rfl⟩ := he
    exact .inr ⟨_, by simp [destinations], by simp, .inr (.inr (.inr (.inr ⟨rfl, _, _, rfl⟩)))⟩

/-- What command `i` leaves unchanged from `s` to `t`: the frame that R31, R36 and R200 to R202 give it. -/
def ControlKept (i : Instr) (s t : State) : Prop :=
  (t.cfg = s.cfg ∧ t.ctrl = s.ctrl ∧ t.cmd = s.cmd ∧ t.sharpk = s.sharpk ∧ t.gauss = s.gauss ∧ t.mat = s.mat ∧
    t.held = s.held ∧ t.events = s.events ∧ t.responses = s.responses) ∧
  (∀ n, (t.desc.get n).dim = (s.desc.get n).dim) ∧
  ((∀ d f, i ≠ .alloc d f) → t.desc = s.desc ∧ t.allocPtr = s.allocPtr) ∧
  (∀ d f, i = .alloc d f → ∀ n, n ≠ d → t.desc.get n = s.desc.get n) ∧
  (i.opcode ∉ [Opcode.kgauss, .ksobelh, .ksobelv, .klapl, .blur] → t.kram = s.kram ∧ t.ksize = s.ksize) ∧
  (i.opcode ≠ .hist → t.hist = s.hist) ∧ (i.opcode ∉ [Opcode.cum, .equalize] → t.cum = s.cum) ∧
  (i.opcode ≠ .equalize → t.lut = s.lut) ∧ (destinations i = [] → t.mem = s.mem)

/-- The completion update touches only STATUS, ERRINFO and PENDING. -/
theorem controlKept_complete {i : Instr} {s t : State} (h : ControlKept i s t) (r : Option (Error × Nat)) :
    ControlKept i s (t.complete r) := by
  cases r <;> exact h

theorem controlKept_refl (i : Instr) (s : State) : ControlKept i s s := by
  simp [ControlKept]

theorem controlKept_allocate (s : State) (d : DescId) (f : Format) (size : Nat) :
    ControlKept (.alloc d f) s (s.allocate d size) := by
  refine ⟨by simp, fun n => ?_, fun h => absurd rfl (h d f), fun d' f' hi n hn => ?_, by simp⟩
  · rw [allocate_desc, vector_get_set]
    split
    · rename_i hd; rw [hd]
    · rfl
  · obtain ⟨rfl, rfl⟩ := Instr.alloc.inj hi
    rw [allocate_desc, vector_get_set, if_neg (Ne.symm hn)]

theorem effect_keeps_control {s s' : State} {i : Instr} (he : Effect s i s') : ControlKept i s s' := by
  rcases effect_shapes he with ⟨d, f, size, rfl, rfl⟩ | ⟨m, hm, hi, hs⟩
  · exact controlKept_allocate s d f size
  · rcases hs with rfl | ⟨hk, k, z, rfl⟩ | ⟨ho, h, rfl⟩ | ⟨ho, c, rfl⟩ | ⟨ho, c, l, rfl⟩
    · simpa [ControlKept] using hm
    · exact ⟨by simp, by simp, by simp, by simp, fun hn => absurd hk hn, by simp, by simp, by simp, hm⟩
    all_goals simpa [ControlKept, ho] using hm

/-- Settles O25: by the two ways in which a command completes. -/
theorem commandsLeaveControlState : Obligations.commands_leave_control_state := by
  intro i s t h
  rcases exec_cases h with ⟨e, info, rfl⟩ | ⟨s', he, rfl⟩
  · exact controlKept_complete (controlKept_refl i s) _
  · exact controlKept_complete (effect_keeps_control he) _

/-! ## No step changes the parameters (R46) -/

theorem writeReg_cfg (s : State) (v : Word) (r : Reg) : (s.writeReg v r).cfg = s.cfg := by
  cases r with
  | cmd => rw [State.writeReg]; split <;> rfl
  | _ => rfl

theorem hostMemWrite_cfg (s : State) (addr n : Nat) (v : Word) : (s.hostMemWrite addr n v).cfg = s.cfg := by
  unfold State.hostMemWrite
  split <;> rfl

theorem completion_cfg {s t : State} (h : completion s = .next t) : t.cfg = s.cfg := by
  rcases completion_cases h with ⟨-, rfl⟩ | ⟨w, u, -, hrun, rfl⟩
  · exact releaseHeld_cfg s
  · rcases runCommand_cases hrun with ⟨e, info, rfl⟩ | ⟨i, s', -, he, rfl⟩
    · rw [releaseHeld_cfg, complete_cfg]
    · obtain ⟨⟨hcfg, -⟩, -⟩ := effect_keeps_control he
      rw [releaseHeld_cfg, complete_cfg, hcfg]

theorem hostAccess_cfg {s t : State} {a : Access} (h : hostAccess s a = .next t) : t.cfg = s.cfg := by
  obtain ⟨-, ⟨-, -, rfl⟩ | ⟨-, hp⟩⟩ := hostAccess_cases h
  · rfl
  · rcases perform_cases hp with ⟨v, rfl⟩ | ⟨off, n, v, -, rfl⟩ | ⟨addr, n, v, -, rfl⟩
    · exact respond_cfg s _
    · rw [respond_cfg, writeReg_cfg]
    · rw [respond_cfg, hostMemWrite_cfg]

theorem step_cfg {s t : State} (h : step s = .next t) : t.cfg = s.cfg := by
  rcases step_cases h with ⟨rest, -, hc⟩ | ⟨a, rest, -, ha⟩ | ⟨k, rest, -, rfl⟩
  · exact (completion_cfg hc).trans rfl
  · exact (hostAccess_cfg ha).trans rfl
  · rfl

/-- Settles O10: by the kind of event the step takes. -/
theorem stepKeepsInv : Obligations.step_keeps_inv := fun _ _ h hs => ⟨inv_step h hs, step_cfg hs⟩

end Sys2Proof.Proofs
end

section
/-! PROOFS. The host port: the register map offset by offset (10_state R20), reads and writes of registers (20_memory R85, R86),
and the statements about single registers made of them (R21 to R44). -/

namespace Sys2Proof.Proofs

open Sys2Proof Sys2Proof.Machine Sys2Proof.Safety Sys2Proof.Laws

/-! ## The register map (R20) -/

theorem regAt_descBase (n : DescId) : regAt (0x040 + 8 * n.val) = .descBase n := by revert n; decide

theorem regAt_descDim (n : DescId) : regAt (0x044 + 8 * n.val) = .descDim n := by revert n; decide

theorem regAt_mat (k : Fin 24) : regAt (0x080 + 4 * k.val) = .mat k := by revert k; decide

theorem regAt_kram {i : Nat} (h : i < 256) : regAt (0x400 + 4 * i) = .kram i := by
  rw [regAt, if_neg (by omega), if_neg (by omega), if_neg (by omega), if_neg (by omega), if_neg (by omega),
    if_pos (by omega), show (0x400 + 4 * i - 0x400) / 4 = i by omega]

theorem regAt_hist {i : Nat} (h : i < 256) : regAt (0x800 + 4 * i) = .hist i := by
  rw [regAt, if_neg (by omega), if_neg (by omega), if_neg (by omega), if_neg (by omega), if_neg (by omega),
    if_neg (by omega), if_pos (by omega), show (0x800 + 4 * i - 0x800) / 4 = i by omega]

theorem regAt_cum {i : Nat} (h : i < 256) : regAt (0xC00 + 4 * i) = .cum i := by
  rw [regAt, if_neg (by omega), if_neg (by omega), if_neg (by omega), if_neg (by omega), if_neg (by omega),
    if_neg (by omega), if_neg (by omega), if_pos (by omega), show (0xC00 + 4 * i - 0xC00) / 4 = i by omega]

theorem regAt_lut {i : Nat} (h : i < 256) : regAt (0x1000 + 4 * i) = .lut i := by
  rw [regAt, if_neg (by omega), if_neg (by omega), if_neg (by omega), if_neg (by omega), if_neg (by omega),
    if_neg (by omega), if_neg (by omega), if_neg (by omega), if_pos (by omega),
    show (0x1000 + 4 * i - 0x1000) / 4 = i by omega]

/-- The offsets that belong to no register and no window (R35). -/
abbrev ReservedOffset (off : Nat) : Prop := 0x030 ≤ off ∧ off < 0x040 ∨ 0x0E0 ≤ off ∧ off < 0x400 ∨ 0x1400 ≤ off

theorem regAt_reserved {off : Nat} (h : ReservedOffset off) : regAt off = .reserved := by
  unfold regAt
  rw [if_neg (by omega)]
  rcases h with h | h | h
  · rw [if_pos (by omega)]
  · rw [if_neg (by omega), if_neg (by omega), if_neg (by omega), if_pos (by omega)]
  · rw [if_neg (by omega), if_neg (by omega), if_neg (by omega), if_neg (by omega), if_neg (by omega), if_neg (by omega),
      if_neg (by omega), if_neg (by omega)]

/-- The aligned offsets of descriptors, matrix words and window entries. -/
theorem entry_offset_cases {off : Nat} (h4 : off % 4 = 0)
    (h : 0x040 ≤ off ∧ off < 0x0E0 ∨ 0x400 ≤ off ∧ off < 0x1400) :
    (∃ n : DescId, off = 0x040 + 8 * n.val ∨ off = 0x044 + 8 * n.val) ∨ (∃ k : Fin 24, off = 0x080 + 4 * k.val) ∨
    ∃ i, i < 256 ∧ (off = 0x400 + 4 * i ∨ off = 0x800 + 4 * i ∨ off = 0xC00 + 4 * i ∨ off = 0x1000 + 4 * i) := by
  rcases h with ⟨h1, h2⟩ | ⟨h1, h2⟩
  · rcases Nat.lt_or_ge off 0x080 with h3 | h3
    · exact .inl ⟨⟨(off - 0x040) / 8, by omega⟩, by dsimp only; omega⟩
    · exact .inr (.inl ⟨⟨(off - 0x080) / 4, by omega⟩, by dsimp only; omega⟩)
  · exact .inr (.inr ⟨off / 4 % 256, by omega, by omega⟩)

/-- The offset of a register or window entry; the reserved ones share 0 here. -/
def offsetOf : Reg → Nat
  | .id => 0x000
  | .version => 0x004
  | .caps => 0x008
  | .memSize => 0x00C
  | .ctrl => 0x010
  | .status => 0x014
  | .cmd => 0x018
  | .errinfo => 0x01C
  | .ksize => 0x020
  | .sharpk => 0x024
  | .gauss => 0x028
  | .allocPtr => 0x02C
  | .descBase n => 0x040 + 8 * n.val
  | .descDim n => 0x044 + 8 * n.val
  | .mat k => 0x080 + 4 * k.val
  | .kram i => 0x400 + 4 * i
  | .hist i => 0x800 + 4 * i
  | .cum i => 0xC00 + 4 * i
  | .lut i => 0x1000 + 4 * i
  | .reserved => 0

/-- No two offsets name the same register: the map of R20 has an inverse. -/
theorem offsetOf_regAt {off : Nat} (h4 : off % 4 = 0) (h : ¬ReservedOffset off) : offsetOf (regAt off) = off := by
  have hctl : ∀ k : Fin 12, offsetOf (regAt (4 * k.val)) = 4 * k.val := by decide
  rcases Nat.lt_or_ge off 0x030 with hlt | hge
  · have := hctl ⟨off / 4, by omega⟩
    rwa [show 4 * (off / 4) = off by omega] at this
  · rcases entry_offset_cases h4 (by omega) with ⟨n, rfl | rfl⟩ | ⟨k, rfl⟩ | ⟨i, hi, rfl | rfl | rfl | rfl⟩
    · rw [regAt_descBase]; rfl
    · rw [regAt_descDim]; rfl
    · rw [regAt_mat]; rfl
    · rw [regAt_kram hi]; rfl
    · rw [regAt_hist hi]; rfl
    · rw [regAt_cum hi]; rfl
    · rw [regAt_lut hi]; rfl

/-- The windows are the offsets from 0x400 to 0x13FF (R39, R41 to R43). -/
theorem regAt_not_window {off : Nat} (h4 : off % 4 = 0) (h : off < 0x400 ∨ 0x1400 ≤ off) :
    (regAt off).isWindow = false := by
  by_cases hr : ReservedOffset off
  · rw [regAt_reserved hr]; rfl
  · have hinv := offsetOf_regAt h4 hr
    cases hreg : regAt off with
    | kram | hist | cum | lut =>
      rw [hreg, offsetOf] at hinv
      omega
    | _ => rfl

/-! ## Reads and writes of registers -/

/-- No register is read from the model's own fields. -/
theorem readReg_events (s : State) (es : List Event) (r : Reg) : { s with events := es }.readReg r = s.readReg r := by
  cases r <;> rfl

theorem readReg_respond (s : State) (p : Response) (r : Reg) : (s.respond p).readReg r = s.readReg r := by
  cases r <;> rfl

/-- A read that the hold rule lets through answers the register's value and changes nothing else (R83, R85, R86). -/
theorem step_regRead {s : State} {off : Nat} {v : Word} {rest : List Event} (hi : Issues s (.regRead off 4) rest)
    (h4 : off % 4 = 0) (hlt : off < 0x2000) (hfree : s.busy = false ∨ (regAt off).isWindow = false)
    (hv : s.readReg (regAt off) = .ok v) : step s = .next (answered s rest (.value v)) := by
  have hadm : (Access.regRead off 4).refusal = none := by simp [Access.refusal, regAdmitted, h4, hlt]
  have hhold : (s.busy && (Access.regRead off 4).holdable) = false := by
    rcases hfree with h | h <;> simp [Access.holdable, h]
  have hperf : { s with events := rest }.perform (.regRead off 4) = .next (answered s rest (.value v)) := by
    simp only [State.perform, readReg_events, hv]
    rfl
  rw [step_access hi, hostAccess, hadm]
  exact (if_neg (Bool.eq_false_iff.mp hhold)).trans hperf

/-- A write that the hold rule lets through is performed (R85, R86). -/
theorem step_regWrite {s : State} {off : Nat} {v : Word} {rest : List Event} (hi : Issues s (.regWrite off 4 v) rest)
    (h4 : off % 4 = 0) (hlt : off < 0x2000) (hfree : s.busy = false ∨ regAt off = .status ∨ regAt off = .cmd) :
    step s = .next (({ s with events := rest }.writeReg v (regAt off)).respond .done) := by
  have hadm : (Access.regWrite off 4 v).refusal = none := by simp [Access.refusal, regAdmitted, h4, hlt]
  have hhold : (s.busy && (Access.regWrite off 4 v).holdable) = false := by
    rcases hfree with h | h | h <;> simp [Access.holdable, h]
  rw [step_access hi, hostAccess, hadm]
  exact if_neg (Bool.eq_false_iff.mp hhold)

/-- A write to a register other than CMD leaves every other register as it reads. -/
theorem readReg_writeReg_other (s : State) (v : Word) {r q : Reg} (hr : r ≠ .cmd) (hq : q ≠ r) :
    (s.writeReg v r).readReg q = s.readReg q := by
  cases r with
  | cmd => exact absurd rfl hr
  | id | version | caps | memSize | errinfo | reserved => rfl
  | ctrl => cases q with | ctrl => exact absurd rfl hq | _ => rfl
  | status => cases q with | status => exact absurd rfl hq | _ => rfl
  | ksize => cases q with | ksize => exact absurd rfl hq | _ => rfl
  | sharpk => cases q with | sharpk => exact absurd rfl hq | _ => rfl
  | gauss => cases q with | gauss => exact absurd rfl hq | _ => rfl
  | allocPtr => cases q with | allocPtr => exact absurd rfl hq | _ => rfl
  | descBase n =>
    cases q with
    | descBase m =>
      have hne : n ≠ m := fun h => hq (h ▸ rfl)
      simp only [State.readReg, State.writeReg, vector_get_set, if_neg hne]
    | descDim m =>
      simp only [State.readReg, State.writeReg, vector_get_set]
      split
      · rename_i h; rw [h]
      · rfl
    | _ => rfl
  | descDim n =>
    cases q with
    | descDim m =>
      have hne : n ≠ m := fun h => hq (h ▸ rfl)
      simp only [State.readReg, State.writeReg, vector_get_set, if_neg hne]
    | descBase m =>
      simp only [State.readReg, State.writeReg, vector_get_set]
      split
      · rename_i h; rw [h]
      · rfl
    | _ => rfl
  | mat k =>
    cases q with
    | mat j =>
      have hne : k ≠ j := fun h => hq (h ▸ rfl)
      simp only [State.readReg, State.writeReg, vector_get_set, if_neg hne]
    | _ => rfl
  | kram i =>
    cases q with
    | kram j => exact congrArg (windowRead _) (read_write_other s.kram v (ne_of_apply_ne Reg.kram hq))
    | _ => rfl
  | hist i =>
    cases q with
    | hist j => exact congrArg (windowRead _) (read_write_other s.hist v (ne_of_apply_ne Reg.hist hq))
    | _ => rfl
  | cum i =>
    cases q with
    | cum j => exact congrArg (windowRead _) (read_write_other s.cum v (ne_of_apply_ne Reg.cum hq))
    | _ => rfl
  | lut i =>
    cases q with
    | lut j =>
      exact congrArg (fun o => (windowRead .unwrittenLut o).map fun b => b.setWidth 32)
        (read_write_other s.lut (v.setWidth 8) (ne_of_apply_ne Reg.lut hq))
    | _ => rfl

/-- A write to a register other than CMD leaves memory, the hidden state and the model's own fields alone. -/
theorem writeReg_frame (s : State) (v : Word) {r : Reg} (hr : r ≠ .cmd) :
    (s.writeReg v r).mem = s.mem ∧ (s.writeReg v r).pending = s.pending ∧ (s.writeReg v r).held = s.held ∧
    (s.writeReg v r).events = s.events ∧ (s.writeReg v r).responses = s.responses := by
  cases r with
  | cmd => exact absurd rfl hr
  | _ => exact ⟨rfl, rfl, rfl, rfl, rfl⟩

/-- The low byte of a word, widened again. -/
theorem setWidth_low_byte (v : Word) : (v.setWidth 8).setWidth 32 = v &&& 0xFF := by
  apply BitVec.eq_of_getLsbD_eq
  intro i hi
  interval_cases i <;> simp

/-- What an offset that stores reads after a host write (R31 to R34, R36, R37, R39, R41 to R43). -/
theorem readReg_writeReg_stored (s : State) {off : Nat} (v : Word) (h4 : off % 4 = 0)
    (h : 0x020 ≤ off ∧ off < 0x030 ∨ 0x040 ≤ off ∧ off < 0x0E0 ∨ 0x400 ≤ off ∧ off < 0x1400) :
    (s.writeReg v (regAt off)).readReg (regAt off) = .ok (storedValue s off v) := by
  have hword : ∀ o, 0x02C < o → o < 0x1000 → storedValue s o v = v := fun o h1 h2 => by
    rw [storedValue, if_neg (by omega), if_neg (by omega), if_pos h2]
  rcases Nat.lt_or_ge off 0x030 with hlt | hge
  · have : off = 0x020 ∨ off = 0x024 ∨ off = 0x028 ∨ off = 0x02C := by omega
    rcases this with rfl | rfl | rfl | rfl
    · rfl
    · rfl
    · rfl
    · have hcut : v.toNat / s.cfg.bufAlign * s.cfg.bufAlign = v.toNat - v.toNat % s.cfg.bufAlign := by
        have := Nat.div_add_mod' v.toNat s.cfg.bufAlign
        omega
      exact congrArg (fun n => Except.ok (BitVec.ofNat 32 n)) hcut
  · rcases entry_offset_cases h4 (by omega) with ⟨n, rfl | rfl⟩ | ⟨k, rfl⟩ | ⟨i, hi, rfl | rfl | rfl | rfl⟩
    · rw [regAt_descBase, hword _ (by omega) (by omega), State.readReg, State.writeReg, vector_get_set, if_pos rfl]
    · rw [regAt_descDim, hword _ (by omega) (by omega), State.readReg, State.writeReg, vector_get_set, if_pos rfl]
    · rw [regAt_mat, hword _ (by omega) (by omega), State.readReg, State.writeReg, vector_get_set, if_pos rfl]
    · rw [regAt_kram hi, hword _ (by omega) (by omega), State.readReg, State.writeReg, read_write_same]; rfl
    · rw [regAt_hist hi, hword _ (by omega) (by omega), State.readReg, State.writeReg, read_write_same]; rfl
    · rw [regAt_cum hi, hword _ (by omega) (by omega), State.readReg, State.writeReg, read_write_same]; rfl
    · rw [regAt_lut hi, State.readReg, State.writeReg, read_write_same, storedValue, if_neg (by omega),
        if_neg (by omega), if_neg (by omega), ← setWidth_low_byte]
      rfl

/-! ## CMD, STATUS, CTRL and IRQ -/

/-- Settles O12: a CMD write is never held (R86), and `writeReg` decides by BUSY. -/
theorem cmdRegister : Obligations.cmd_register := by
  refine ⟨rfl, fun s w rest => ⟨fun hi hb => ?_, fun hi hb => ?_, fun hi => ?_⟩⟩
  · refine ⟨statusAccepted s.status, ?_, statusAccepted_bit s.status⟩
    rw [step_regWrite hi rfl (by decide) (.inr (.inr rfl))]
    exact congrArg (fun t => Host.Outcome.next (State.respond t .done)) (if_neg (Bool.eq_false_iff.mp hb))
  · refine ⟨statusOverrun s.status, ?_, statusOverrun_bit s.status⟩
    rw [step_regWrite hi rfl (by decide) (.inr (.inr rfl))]
    exact congrArg (fun t => Host.Outcome.next (State.respond t .done)) (if_pos hb)
  · exact step_regRead hi rfl (by decide) (.inr rfl) rfl

/-- A STATUS write is never held and writes STATUS alone (R28, R86). -/
theorem step_statusWrite {s : State} {v : Word} {rest : List Event} (hi : Issues s (.regWrite 0x014 4 v) rest) :
    step s = .next { answered s rest .done with status := statusWrite s.status v } :=
  step_regWrite hi rfl (by decide) (.inr (.inl rfl))

/-- Settles O13. -/
theorem statusWriteClears : Obligations.status_write :=
  fun s v _ hi => ⟨statusWrite s.status v, step_statusWrite hi, statusWrite_bit s.status v⟩

/-- Settles O14. -/
theorem ctrlWriteKeepsBorder : Obligations.ctrl_write :=
  fun s v _ hi hb => ⟨ctrlWrite s.ctrl v, step_regWrite hi rfl (by decide) (.inl hb), ctrlWrite_border s.ctrl v,
    fun _ => ctrlWrite_bit s.ctrl v, ctrlWrite_border_ne v⟩

/-- IRQ is low while DONE and ERR are 0 (R44). -/
theorem irq_of_clear {s : State} (hd : s.doneBit = false) (he : s.errBit = false) : s.irq = false := by
  rw [State.irq, hd, he]
  rfl

/-- Settles O21: after either write both DONE and ERR are 0. -/
theorem interruptOutput : Obligations.interrupt_output := by
  refine ⟨fun s => rfl, fun s v rest hi h1 h2 => ?_, fun s w rest hi hb => ?_⟩
  · have hbit := statusWrite_bit s.status v
    refine ⟨_, step_statusWrite hi, irq_of_clear ((hbit 1).trans ?_) ((hbit 2).trans ?_)⟩
    · rw [h1]; exact Bool.and_false _
    · rw [h2]; exact Bool.and_false _
  · obtain ⟨-, hcmd⟩ := cmdRegister
    obtain ⟨haccept, -, -⟩ := hcmd s w rest
    obtain ⟨st, hstep, hbit⟩ := haccept hi hb
    exact ⟨_, hstep, irq_of_clear ((hbit 1).trans (by simp)) ((hbit 2).trans (by simp))⟩

/-! ## The whole register space -/

/-- Settles O15: what an offset stores is `readReg_writeReg_stored`, and every other offset names another register. -/
theorem hostRegisterWrite : Obligations.host_register_write := by
  intro s off v rest hi hb h4 hlt
  have hstep := step_regWrite hi h4 hlt (.inl hb)
  refine ⟨fun hstore => ?_, fun hignore => ?_⟩
  · have hinv := offsetOf_regAt h4 (off := off) (by omega)
    have hcmd : regAt off ≠ .cmd := fun h => by rw [h, offsetOf] at hinv; omega
    obtain ⟨hmem, hpending, hheld, hevents, hresp⟩ := writeReg_frame { s with events := rest } v hcmd
    refine ⟨_, hstep, ?_, fun o ho4 holt hne => ?_, writeReg_cfg _ _ _, hmem, hpending, hheld.trans hi.2, hevents,
      congrArg _ hresp⟩
    · rw [readReg_respond]
      exact readReg_writeReg_stored _ v h4 hstore
    · have hother : regAt o ≠ regAt off := fun h => by
        by_cases hr : ReservedOffset o
        · rw [← h, regAt_reserved hr, offsetOf] at hinv
          omega
        · exact hne ((offsetOf_regAt ho4 hr).symm.trans (h ▸ hinv))
      rw [readReg_respond, readReg_writeReg_other _ v hcmd hother, readReg_events]
  · have hreg : regAt off ∈ [Reg.id, .version, .caps, .memSize, .errinfo, .reserved] := by
      have hctl : off = 0x000 ∨ off = 0x004 ∨ off = 0x008 ∨ off = 0x00C ∨ off = 0x01C ∨ ReservedOffset off := by omega
      rcases hctl with rfl | rfl | rfl | rfl | rfl | hr
      case inr.inr.inr.inr.inr => simp [regAt_reserved hr]
      all_goals decide
    rw [hstep]
    cases hr : regAt off with
    | id | version | caps | memSize | errinfo | reserved => rfl
    | _ => simp [hr] at hreg

/-- The fields of CAPS, of the sizes that R7 allows (R23). -/
theorem capsWord_fields {p : Config.Params} (h : p.Legal) :
    bits (capsWord p) 7 0 = p.kmax ∧ 2 ^ bits (capsWord p) 11 8 = p.bufAlign ∧ bits (capsWord p) 31 12 = 0 := by
  have hk := h.kmax_hi
  have hlog : Nat.log2 p.bufAlign < 13 := by
    rw [Nat.log2_lt (by have := h.align_lo; omega)]
    have := h.align_hi
    omega
  have hword : (capsWord p).toNat = p.kmax + Nat.log2 p.bufAlign * 256 := by
    rw [capsWord, BitVec.toNat_ofNat]
    omega
  refine ⟨?_, ?_, ?_⟩
  · rw [bits, hword]; omega
  · rw [bits, hword, show (p.kmax + Nat.log2 p.bufAlign * 256) / 2 ^ 8 % 2 ^ (11 - 8 + 1) = Nat.log2 p.bufAlign by omega]
    exact h.align_pow
  · rw [bits, hword]; omega

/-- Settles O16: the map of R20 register by register. -/
theorem hostRegisterRead : Obligations.host_register_read := by
  refine ⟨fun s off v rest hi h4 hlt hfree hv => step_regRead hi h4 hlt (hfree.imp_right (regAt_not_window h4)) hv,
    fun s hl => ?_⟩
  have hsize : (BitVec.ofNat 32 s.cfg.memSize).toNat = s.cfg.memSize := by
    have := hl.mem_hi
    rw [BitVec.toNat_ofNat]
    omega
  refine ⟨rfl, rfl, ⟨_, rfl, capsWord_fields hl⟩, ⟨_, rfl, hsize⟩, rfl, rfl, rfl, rfl, rfl, rfl, rfl, rfl,
    fun n => ?_, fun k => ?_, fun i hi v => ?_, fun i hi b hb => ?_, fun off _ _ hr => ?_⟩
  · rw [regAt_descBase, regAt_descDim]
    exact ⟨rfl, rfl⟩
  · rw [regAt_mat]
    rfl
  · rw [regAt_kram hi, regAt_hist hi, regAt_cum hi]
    exact ⟨congrArg (windowRead _), congrArg (windowRead _), congrArg (windowRead _)⟩
  · refine ⟨b.setWidth 32, ?_, ?_⟩
    · rw [regAt_lut hi, State.readReg, hb]
      rfl
    · have := b.isLt
      rw [BitVec.toNat_setWidth]
      omega
  · rw [regAt_reserved hr]
    rfl

/-- Settles O8: every value is that of the definition of the reset state. -/
theorem resetTable : Obligations.reset_table := by
  have hdesc : ∀ n : DescId, State.reset.desc.get n = ⟨0, 0⟩ := by decide
  refine ⟨?_, fun _ => rfl, rfl, rfl, rfl, rfl⟩
  constructor
  case descBase => exact fun n => congrArg Desc.base (hdesc n)
  case descDim => exact fun n => congrArg Desc.dim (hdesc n)
  case mat => decide
  case kram | hist | cum | lut => exact fun _ => rfl
  all_goals rfl

end Sys2Proof.Proofs
end

section
/-! PROOFS. Commands that write one destination pixel by pixel: MATX (41_color R150, R151) and SHARPEN (42_convolution R184,
R185). What such a command leaves is said once, in `raster_completes`. -/

namespace Sys2Proof.Proofs

open Sys2Proof Sys2Proof.Machine Sys2Proof.Safety Sys2Proof.Laws

/-- A command that writes the pixels `g x y` to the whole extent of `d` completes without error, changes memory only, and
only there, and leaves the bytes of `g x y` at pixel `(x, y)` (R74, R77, R222). -/
theorem raster_completes {i : Instr} {s : State} {d : DescId} {f : Format} (g : Nat → Nat → List Byte)
    (hexec : exec i s = s.finish (.ok (s.putExtent d
      ((List.range (s.widthOf d * s.heightOf d)).map fun n => g (n % s.widthOf d) (n / s.widthOf d)).flatten)))
    (hlen : ∀ x y, (g x y).length = s.bpp f) :
    ∃ t, exec i s = .next t ∧ OnlyMemory s t ∧ MemOutside s t d f ∧
      ∀ x y o, x < s.widthOf d → y < s.heightOf d → o < s.bpp f → Store.read t.mem (s.paddr d f x y o) = (g x y)[o]? := by
  refine ⟨_, hexec, rfl, fun addr haddr => ?_, fun x y o hx hy ho => ?_⟩
  · rw [complete_mem]
    refine putExtent_outside ?_
    rw [length_flatten_map_range _ (s.bpp f) _ fun n _ => hlen _ _]
    exact haddr
  · rw [complete_mem]
    exact putExtent_raster_inside g (fun x y _ _ => hlen x y) hx hy ho

/-! ## MATX -/

/-- The word at the offset of `MAT[b][r][c]` is the entry that MATX uses (R37). -/
theorem matWord_eq_matAt (s : State) (b : Bank) {r c : Nat} (hr : r < 3) (hc : c < 4) : matWord s b r c = s.matAt b r c := by
  have hb := b.isLt
  have hk : 12 * b.val + 4 * r + c < 24 := by omega
  have hreg : regAt (0x080 + 0x30 * b.val + 0x10 * r + 4 * c) = .mat (Fin.ofNat 24 (12 * b.val + 4 * r + c)) := by
    rw [← regAt_mat, Fin.val_ofNat, Nat.mod_eq_of_lt hk]
    congr 1
    omega
  rw [matWord, hreg]
  rfl

/-- A channel of MATX rounds and saturates the exact matrix sum (R150). -/
theorem matChannel_rounds (s : State) (b : Bank) {r : Nat} (hr : r < 3) (p0 p1 p2 : Nat) :
    ∃ n, RoundsHalfAway (matrixSum s b r p0 p1 p2) n ∧ byteOfInt (s.matChannel b r p0 p1 p2) = saturate n := by
  refine ⟨_, ?_, byteOfInt_clamp _⟩
  rw [matrixSum, matWord_eq_matAt s b hr (by omega), matWord_eq_matAt s b hr (by omega), matWord_eq_matAt s b hr (by omega),
    matWord_eq_matAt s b hr (by omega)]
  exact rha_rounds _ (d := 1000000) (by norm_num)

/-- The three bytes that MATX makes of pixel `(x, y)` of `a`. -/
def matxPixel (s : State) (a : DescId) (bank : Bank) (x y : Nat) : List Byte :=
  let channel (r : Nat) := byteOfInt
    (s.matChannel bank r (pixelAt s a .rgb x y 0) (pixelAt s a .rgb x y 1) (pixelAt s a .rgb x y 2))
  [channel 0, channel 1, channel 2]

/-- MATX on operands that pass its checks. -/
theorem exec_matx {s : State} {d a : DescId} (bank : Bank) (h : PointwiseReady s (d, .rgb) (a, .rgb)) :
    exec (.matx d a bank) s = s.finish (.ok (s.putExtent d
      ((List.range (s.widthOf d * s.heightOf d)).map fun n =>
        matxPixel s a bank (n % s.widthOf d) (n / s.widthOf d)).flatten)) := by
  obtain ⟨ha, hd, hsize, hover, hread⟩ := h
  have hraster := raster_ok (w := s.widthOf a) (h := s.heightOf a) (matxPixel s a bank) (px := fun x y => do
      let (p0, p1, p2) ← s.get3 a .rgb x y
      return [byteOfInt (s.matChannel bank 0 p0 p1 p2), byteOfInt (s.matChannel bank 1 p0 p1 p2),
        byteOfInt (s.matChannel bank 2 p0 p1 p2)])
    fun x y hx hy => by rw [get3_ok hread hx hy (by rfl)]; rfl
  refine congrArg s.finish ?_
  rw [checkDesc_ok ha, checkDesc_ok hd, checkSize_ok hsize, checkOverlap_pointwise hover, hsize.1, hsize.2]
  exact run_bind_of_ok _ hraster

/-- Settles O43. -/
theorem matxMultiplies : Obligations.matx_multiplies := by
  intro s d a bank h
  obtain ⟨t, hexec, honly, hout, hin⟩ := raster_completes (f := .rgb) _ (exec_matx bank h) fun _ _ => rfl
  obtain ⟨-, -, ⟨hw, hh⟩, -, -⟩ := h
  refine ⟨t, hexec, honly, hout, fun x y r hx hy hr => ?_⟩
  obtain ⟨n, hround, hbyte⟩ := matChannel_rounds s bank hr (pixelAt s a .rgb x y 0) (pixelAt s a .rgb x y 1)
    (pixelAt s a .rgb x y 2)
  refine ⟨n, hround, ?_⟩
  rw [hin x y r (hw ▸ hx) (hh ▸ hy) hr, ← hbyte]
  interval_cases r <;> rfl

/-- The reset words of the matrices as signed numbers, in units of 10^-6 (R38). -/
def resetCoefficients : List Int :=
  [299000, 587000, 114000, 0, 499813, -418531, -81282, 128000000, -168636, -331068, 499704, 128000000,
   1000000, 1403000, 0, -179584000, 1000000, -714000, -344000, 135424000, 1000000, 0, 1773000, -226944000]

theorem matWord_reset {s : State} (h : s.mat = resetMat) (b : Bank) {r c : Nat} (hr : r < 3) (hc : c < 4) :
    matWord s b r c = resetCoefficients.getD (12 * b.val + 4 * r + c) 0 := by
  have table : ∀ k : Fin 24, s32 (resetMat.get k) = resetCoefficients.getD k.val 0 := by decide
  have hk : 12 * b.val + 4 * r + c < 24 := by omega
  rw [matWord_eq_matAt s b hr hc, State.matAt, h, table, Fin.val_ofNat, Nat.mod_eq_of_lt hk]

/-- The matrix sum with the reset matrices. -/
theorem matrixSum_reset {s : State} (h : s.mat = resetMat) (b : Bank) {r : Nat} (hr : r < 3) (p0 p1 p2 : Nat) :
    let q (c : Nat) : Int := resetCoefficients.getD (12 * b.val + 4 * r + c) 0
    matrixSum s b r p0 p1 p2 = ((q 0 : ℚ) * p0 + q 1 * p1 + q 2 * p2 + q 3) / 1000000 := by
  rw [matrixSum, matWord_reset h b hr (by omega), matWord_reset h b hr (by omega), matWord_reset h b hr (by omega),
    matWord_reset h b hr (by omega)]
  push_cast
  rfl

/-- Settles O44: the six rows of the table, multiplied out. -/
theorem resetMatricesAreLumaChroma : Obligations.reset_matrices_are_luma_chroma := by
  intro s p0 p1 p2 h
  refine ⟨?_, ?_, ?_, ?_, ?_, ?_⟩ <;> rw [matrixSum_reset h _ (by omega)] <;> simp [resetCoefficients] <;> ring

/-! ## SHARPEN -/

/-- SHARPK.K is the low half of SHARPK, signed (R9, R32). -/
theorem s16_eq (w : Word) : s16 w = (w.setWidth 16).toInt := by
  rw [s16, BitVec.ofNat_toNat]

/-- The byte that SHARPEN makes for output pixel `(x, y)` (R184, R185). -/
def sharpenPixel (s : State) (a : DescId) (x y : Nat) : List Byte :=
  [byteOfInt (clamp (rha (256 * around s a x y 0 0 + s16 s.sharpk * responseOf s (laplaceAt (around s a x y))) 256) 0 255)]

/-- SHARPEN on operands that pass its checks. -/
theorem exec_sharpen {s : State} {d a : DescId} (h : NeighbourReady s d a 1) :
    exec (.sharpen d a) s = s.finish (.ok (s.putExtent d
      ((List.range (s.widthOf d * s.heightOf d)).map fun n =>
        sharpenPixel s a (n % s.widthOf d) (n / s.widthOf d)).flatten)) := by
  obtain ⟨ha, hd, hsize, hover, hread⟩ := h
  have ⟨_, hw, hh, _⟩ := ha
  have hraster := raster_ok (w := s.widthOf d) (h := s.heightOf d) (sharpenPixel s a) (px := fun x y => do
      let v ← s.sharpenAt a (s.centre 1 x) (s.centre 1 y)
      return [byteOfInt v])
    fun x y hx hy => by rw [sharpenAt_ok hread hw hh hsize hx hy]; rfl
  refine congrArg s.finish ?_
  rw [checkDesc_ok ha, checkDesc_ok hd, dimcheck_ok_iff.mpr hsize, checkOverlap_neighbourhood hover]
  exact run_bind_of_ok _ hraster

/-- Settles O53. -/
theorem sharpenAddsTheLaplacian : Obligations.sharpen_adds_the_laplacian := by
  intro s d a h
  obtain ⟨t, hexec, honly, hout, hin⟩ := raster_completes (f := .gray) _ (exec_sharpen h) fun _ _ => rfl
  refine ⟨t, hexec, honly, hout, fun x y hx hy => ⟨_, rha_rounds _ (d := 256) (by norm_num), ?_⟩⟩
  rw [hin x y 0 hx hy Nat.one_pos, ← s16_eq, ← byteOfInt_clamp]
  rfl

end Sys2Proof.Proofs
end

section
/-! PROOFS. The words that decode are those of the opcode table (30_encoding R100 to R108): a row's mask is put together from
the masks of the fields that it fixes, and each of them is one condition of R106. -/

namespace Sys2Proof.Proofs

open Sys2Proof Sys2Proof.Machine Sys2Proof.Safety Sys2Proof.Laws

/-! ## Masks of fields -/

/-- The word with the `k` bits from bit `lo` on set. -/
def fieldMask (lo k : Nat) : Word := BitVec.ofNat 32 ((2 ^ k - 1) * 2 ^ lo)

theorem toNat_and_fieldMask (w : Word) {lo k : Nat} (h : lo + k ≤ 32) :
    (w &&& fieldMask lo k).toNat = w.toNat / 2 ^ lo % 2 ^ k * 2 ^ lo := by
  have hlt : (2 ^ k - 1) * 2 ^ lo < 2 ^ 32 :=
    calc (2 ^ k - 1) * 2 ^ lo < 2 ^ k * 2 ^ lo :=
          Nat.mul_lt_mul_of_pos_right (Nat.sub_lt (by positivity) Nat.one_pos) (by positivity)
      _ = 2 ^ (lo + k) := by rw [Nat.pow_add, Nat.mul_comm]
      _ ≤ 2 ^ 32 := Nat.pow_le_pow_right (by omega) h
  rw [fieldMask, BitVec.toNat_and, BitVec.toNat_ofNat, Nat.mod_eq_of_lt hlt]
  apply Nat.eq_of_testBit_eq
  intro i
  rw [Nat.testBit_and, Nat.testBit_mul_two_pow, Nat.testBit_mul_two_pow, Nat.testBit_two_pow_sub_one,
    Nat.testBit_mod_two_pow, Nat.testBit_div_two_pow]
  by_cases hi : lo ≤ i
  · rw [Nat.sub_add_cancel hi]
    simp [hi, Bool.and_comm]
  · simp [hi]

/-- A masked field is 0 exactly when its number is. -/
theorem and_fieldMask_eq_zero_iff (w : Word) {lo k : Nat} (h : lo + k ≤ 32) :
    w &&& fieldMask lo k = 0 ↔ w.toNat / 2 ^ lo % 2 ^ k = 0 := by
  rw [← BitVec.toNat_inj, toNat_and_fieldMask w h]
  simp

theorem and_or_eq_zero_iff (w a b : Word) : w &&& (a ||| b) = 0 ↔ w &&& a = 0 ∧ w &&& b = 0 := by
  rw [BitVec.and_or_distrib_left]
  exact BitVec.or_eq_zero_iff

/-- A word matches `c` under two disjoint masks, `c` lying under the first, if it does so under each. -/
theorem and_or_eq_iff {w a b c : Word} (hc : c &&& a = c) (hab : a &&& b = 0) :
    w &&& (a ||| b) = c ↔ w &&& a = c ∧ w &&& b = 0 := by
  constructor
  · intro h
    have ha : (a ||| b) &&& a = a := by
      ext i hi
      simpa using Or.inl
    have hb : (a ||| b) &&& b = b := by
      ext i hi
      simpa using Or.inr
    refine ⟨?_, ?_⟩
    · rw [← ha, ← BitVec.and_assoc, h, hc]
    · rw [← hb, ← BitVec.and_assoc, h, ← hc, BitVec.and_assoc, hab]
      exact BitVec.and_zero
  · rintro ⟨h1, h2⟩
    rw [BitVec.and_or_distrib_left, h1, h2]
    simp

theorem and_opMask_eq_iff (w : Word) {n : Nat} (hn : n < 64) :
    w &&& fieldMask 0 6 = BitVec.ofNat 32 n ↔ bits w 5 0 = n := by
  rw [← BitVec.toNat_inj, toNat_and_fieldMask w (by omega), BitVec.toNat_ofNat, bits]
  omega

/-! ## The rows of the table -/

/-- The immediate bits that R103 wants 0. -/
def immMask : ImmKind → Word
  | .none => fieldMask 18 8
  | .fmt => fieldMask 20 6
  | .bank => fieldMask 19 7
  | .size => 0
  | .level => 0

/-- The mask of an operand field that a command does not use (the mark "-" of R104). -/
def unusedMask (used : Bool) (lo : Nat) : Word := if used then 0 else fieldMask lo 3

/-- The bits that the row of an opcode wants 0: RSVD, unused operand fields and immediate bits. -/
def zeroMask (op : Opcode) : Word :=
  fieldMask 26 6 ||| ((unusedMask op.uses.1 6 ||| (unusedMask op.uses.2.1 9 ||| (unusedMask op.uses.2.2.1 12 |||
    unusedMask op.uses.2.2.2 15))) ||| immMask op.immKind)

/-- The table of the spec is made of these masks. -/
theorem tableRows_eq : tableRows = Opcode.all.map fun op => (BitVec.ofNat 32 op.code, fieldMask 0 6 ||| zeroMask op) := by
  decide

theorem opcode_mem_all (op : Opcode) : op ∈ Opcode.all := by cases op <;> decide

theorem and_unusedMask_eq_zero_iff (w : Word) (used : Bool) {lo : Nat} (h : lo + 3 ≤ 32) :
    w &&& unusedMask used lo = 0 ↔ (!used && decide (Fin.ofNat 8 (bits w (lo + 2) lo) ≠ 0)) = false := by
  cases used with
  | true => simp [unusedMask]
  | false =>
    rw [unusedMask, if_neg (by decide), and_fieldMask_eq_zero_iff w h]
    simp [bits, Fin.ext_iff]

theorem and_immMask_eq_zero_iff (w : Word) (k : ImmKind) :
    w &&& immMask k = 0 ↔ k.strayBits (fieldsOf w).imm = false := by
  have himm : (fieldsOf w).imm.toNat = w.toNat / 2 ^ 18 % 2 ^ 8 := by
    simp [fieldsOf, bits]
  cases k with
  | none =>
    rw [immMask, and_fieldMask_eq_zero_iff w (by omega), ImmKind.strayBits, himm, decide_eq_false_iff_not, not_not]
  | fmt | bank =>
    rw [immMask, and_fieldMask_eq_zero_iff w (by omega), ImmKind.strayBits, himm, decide_eq_false_iff_not, not_not]
    omega
  | size | level => simp [immMask, ImmKind.strayBits]

/-- A word matches the row of an opcode exactly when none of the first four conditions of R106 holds for it. -/
theorem row_match_iff (w : Word) (op : Opcode) :
    w &&& (fieldMask 0 6 ||| zeroMask op) = BitVec.ofNat 32 op.code ↔
      op.code = bits w 5 0 ∧ bits w 31 26 = 0 ∧ op.strayField (fieldsOf w) = false ∧
        op.immKind.strayBits (fieldsOf w).imm = false := by
  have hcode : BitVec.ofNat 32 op.code &&& fieldMask 0 6 = BitVec.ofNat 32 op.code := by cases op <;> decide
  have hdisj : fieldMask 0 6 &&& zeroMask op = 0 := by cases op <;> decide
  rw [and_or_eq_iff hcode hdisj, and_opMask_eq_iff w (code_lt op), eq_comm (a := bits w 5 0), zeroMask,
    and_or_eq_zero_iff, and_or_eq_zero_iff, and_or_eq_zero_iff, and_or_eq_zero_iff, and_or_eq_zero_iff,
    and_fieldMask_eq_zero_iff w (by omega), and_immMask_eq_zero_iff, and_unusedMask_eq_zero_iff w _ (by omega),
    and_unusedMask_eq_zero_iff w _ (by omega), and_unusedMask_eq_zero_iff w _ (by omega),
    and_unusedMask_eq_zero_iff w _ (by omega), Opcode.strayField]
  simp only [Bool.or_eq_false_iff, and_assoc]
  rfl

/-! ## The commands of the table -/

/-- The fields of R100, taken without their upper bounds. -/
theorem fieldsOf_eq (w : Word) :
    fieldsOf w = ⟨descField w 6, descField w 9, descField w 12, descField w 15, immField w⟩ := by
  simp only [fieldsOf, Fields.mk.injEq, descField, immField, bits]
  refine ⟨Fin.ext ?_, Fin.ext ?_, Fin.ext ?_, Fin.ext ?_, BitVec.eq_of_toNat_eq ?_⟩ <;>
    simp only [Fin.val_ofNat, BitVec.toNat_ofNat] <;> omega

theorem immField_toNat (w : Word) : (immField w).toNat = w.toNat / 2 ^ 18 % 2 ^ 8 := BitVec.toNat_ofNat _ _

theorem formatOf_immField (w : Word) : formatOf (immField w) = formatField w := by
  rw [formatOf, formatField, immField_toNat, Nat.mod_mod_of_dvd _ (by decide)] <;> rfl

theorem bank_immField (w : Word) : Fin.ofNat 2 (immField w).toNat = Fin.ofNat 2 (w.toNat / 2 ^ 18) := by
  rw [immField_toNat]
  exact Fin.ext (Nat.mod_mod_of_dvd _ (by decide))

/-- The commands of the table are those that the opcodes build from the fields of the word. -/
theorem tableCommands_eq (w : Word) : tableCommands w = Opcode.all.map fun op => op.build (fieldsOf w) := by
  simp only [tableCommands, Opcode.all, List.map_cons, List.map_nil, Opcode.build, fieldsOf_eq, formatOf_immField,
    bank_immField]

/-- The only word of a matching row without a command is LUT with FMT = 2 (R106 row 5). -/
theorem build_wellFormed_iff {w : Word} {op : Opcode} (h : op.code = bits w 5 0) :
    (op.build (fieldsOf w)).wellFormed = true ↔ ¬(bits w 5 0 = 0x16 ∧ bits w 19 18 = 2) := by
  rw [← h]
  cases op with
  | lut =>
    have hfmt : formatField w = .hsv ↔ bits w 19 18 = 2 := by
      rw [formatField, bits]
      have := Nat.mod_lt (w.toNat / 2 ^ 18) (by decide : 0 < 4)
      change _ ↔ w.toNat / 2 ^ 18 % 4 = 2
      generalize w.toNat / 2 ^ 18 % 4 = n at *
      interval_cases n <;> simp
    simp [Opcode.build, Opcode.code, Instr.wellFormed, fieldsOf_eq, formatOf_immField, hfmt]
  | _ => simp [Opcode.build, Opcode.code, Instr.wellFormed]

/-- A word decodes exactly to the commands of the rows that it matches. -/
theorem decode_ok_iff_row {w : Word} {i : Instr} :
    decode w = .ok i ↔ ∃ op : Opcode, w &&& (fieldMask 0 6 ||| zeroMask op) = BitVec.ofNat 32 op.code ∧
      ¬(bits w 5 0 = 0x16 ∧ bits w 19 18 = 2) ∧ i = op.build (fieldsOf w) := by
  simp only [decode_ok_iff, row_match_iff]
  constructor
  · rintro ⟨op, hop, hrsvd, hfield, himm, rfl, hwf⟩
    exact ⟨op, ⟨hop, hrsvd, hfield, himm⟩, (build_wellFormed_iff hop).mp hwf, rfl⟩
  · rintro ⟨op, ⟨hop, hrsvd, hfield, himm⟩, hlut, rfl⟩
    exact ⟨op, hop, hrsvd, hfield, himm, rfl, (build_wellFormed_iff hop).mpr hlut⟩

/-- Settles O3: the table is that of the opcodes, row by row. -/
theorem decodesTheOpcodeTable : Obligations.decodes_the_opcode_table := by
  intro w
  simp only [tableRows_eq, tableCommands_eq, List.zip_map', List.mem_map, exists_exists_and_eq_and,
    forall_exists_index, and_imp, forall_apply_eq_imp_iff₂]
  refine ⟨⟨?_, ?_⟩, fun op _ hrow hlut => decode_ok_iff_row.mpr ⟨op, hrow, hlut, rfl⟩⟩
  · rintro ⟨i, hi⟩
    obtain ⟨op, hrow, hlut, -⟩ := decode_ok_iff_row.mp hi
    exact ⟨⟨op, opcode_mem_all op, hrow⟩, hlut⟩
  · rintro ⟨⟨op, -, hrow⟩, hlut⟩
    exact ⟨_, decode_ok_iff_row.mpr ⟨op, hrow, hlut, rfl⟩⟩

end Sys2Proof.Proofs
end

section
/-! PROOFS. Accesses of the host port: refused (20_memory R85, R87), held while BUSY and released by the completion (R86), and
those of buffer memory (R87); with them the completion event itself (60_exceptions R220). -/

namespace Sys2Proof.Proofs

open Sys2Proof Sys2Proof.Machine Sys2Proof.Safety Sys2Proof.Laws

/-! ## The completion event -/

/-- The completion of a pending word, after which a held access is issued (R86, R220). -/
theorem completion_of_pending {s : State} {w : Word} (h : s.pending = some w) :
    completion s = released (runCommand w s) := by
  rw [completion, h]
  rfl

theorem runCommand_of_decode {w : Word} {i : Instr} (h : decode w = .ok i) (s : State) : runCommand w s = exec i s := by
  rw [runCommand, h]

/-- Settles O6. -/
theorem stepRunsTheDecodedCommand : Obligations.step_runs_the_decoded_command := by
  intro s w i rest hnext hpending hdecode
  rw [step_completion hnext, completion_of_pending (s := { s with events := rest }) hpending,
    runCommand_of_decode hdecode]

/-- The completion of a command ends BUSY and leaves the port and the events as they were (R222). -/
theorem runCommand_port {w : Word} {s t : State} (h : runCommand w s = .next t) :
    t.busy = false ∧ t.held = s.held ∧ t.events = s.events := by
  rcases runCommand_cases h with ⟨e, info, rfl⟩ | ⟨i, s', -, he, rfl⟩
  · exact ⟨complete_busy s _, complete_held s _, complete_events s _⟩
  · obtain ⟨⟨-, -, -, -, -, -, hheld, hevents, -⟩, -⟩ := effect_keeps_control he
    exact ⟨complete_busy s' _, (complete_held s' _).trans hheld, (complete_events s' _).trans hevents⟩

/-! ## Refused, held and performed accesses -/

theorem step_refused {s : State} {a : Access} {rest : List Event} {r : Refusal} (hi : Issues s a rest)
    (h : a.refusal = some r) : step s = .refused r := by
  rw [step_access hi, hostAccess, h]

/-- An admitted access that the hold rule names becomes HELD while BUSY, and nothing else changes (R86). -/
theorem step_held {s : State} {a : Access} {rest : List Event} (hi : Issues s a rest) (hadm : a.refusal = none)
    (hb : s.busy = true) (hh : a.holdable = true) : step s = .next { s with events := rest, held := some a } := by
  rw [step_access hi, hostAccess, hadm]
  exact if_pos (by rw [hh, Bool.and_true]; exact hb)

/-- An admitted access is performed while idle (R85, R87). -/
theorem step_idle {s : State} {a : Access} {rest : List Event} (hi : Issues s a rest) (hadm : a.refusal = none)
    (hb : s.busy = false) : step s = { s with events := rest }.perform a := by
  rw [step_access hi, hostAccess, hadm]
  have hidle : ({ s with events := rest } : State).busy = false := hb
  simp only [hidle, Bool.false_and, Bool.false_eq_true, if_false]

theorem regAdmitted_iff (off n : Nat) : regAdmitted off n = true ↔ n = 4 ∧ off % 4 = 0 ∧ off < 0x2000 := by
  simp [regAdmitted, and_assoc]

theorem memAdmitted_iff (addr n : Nat) : memAdmitted addr n = true ↔ (n = 1 ∨ n = 2 ∨ n = 4) ∧ addr % n = 0 := by
  simp [memAdmitted, or_assoc]

/-- Settles O19. -/
theorem registerAccessNotAdmitted : Obligations.register_access_not_admitted := by
  intro s off n rest h
  have hadm : ¬regAdmitted off n = true := by
    rw [regAdmitted_iff]
    omega
  exact ⟨fun hi => step_refused hi (if_neg hadm), fun v hi => step_refused hi (if_neg hadm)⟩

/-! ## The hold rule (R86) -/

/-- The offsets from 0x400 to 0x13FF are windows (R39, R41 to R43). -/
theorem regAt_window {off : Nat} (h4 : off % 4 = 0) (hlo : 0x400 ≤ off) (hhi : off < 0x1400) :
    (regAt off).isWindow = true := by
  rcases entry_offset_cases h4 (.inr ⟨hlo, hhi⟩) with ⟨n, _ | _⟩ | ⟨k, _⟩ | ⟨i, hi, rfl | rfl | rfl | rfl⟩
  · omega
  · omega
  · omega
  · rw [regAt_kram hi]; rfl
  · rw [regAt_hist hi]; rfl
  · rw [regAt_cum hi]; rfl
  · rw [regAt_lut hi]; rfl

/-- STATUS and CMD stand at one offset each (R20). -/
theorem regAt_ne_status_cmd {off : Nat} (h4 : off % 4 = 0) (hs : off ≠ 0x014) (hc : off ≠ 0x018) :
    regAt off ≠ .status ∧ regAt off ≠ .cmd := by
  by_cases hr : ReservedOffset off
  · rw [regAt_reserved hr]
    exact ⟨nofun, nofun⟩
  · have hinv := offsetOf_regAt h4 hr
    constructor <;> intro h <;> rw [h, offsetOf] at hinv <;> omega

/-- Settles O17: the accesses that answer at once are those of the register rules, the others are held; the completion leaves
the held access in place, and releasing it makes it the next event. -/
theorem holdRule : Obligations.hold_rule := by
  refine ⟨fun s rest hb => ⟨fun off v h4 hoff hi hv => ?_, fun off v hoff hi => ?_, fun off h4 hlo hhi hi => ?_,
    fun off v h4 hlt hs hc hi => ?_, fun addr n hn ha => ⟨fun hi => ?_, fun v hi => ?_⟩⟩,
    fun s u a w rest hnext hheld hpending hrun => ?_⟩
  · exact step_regRead hi h4 (by omega) (.inr (regAt_not_window h4 (by omega))) hv
  · rcases hoff with rfl | rfl
    · exact ⟨_, step_statusWrite hi⟩
    · obtain ⟨-, hcmd⟩ := cmdRegister
      obtain ⟨-, hdrop, -⟩ := hcmd s v rest
      obtain ⟨st, hstep, -⟩ := hdrop hi hb
      exact ⟨st, hstep⟩
  · exact step_held hi (if_pos ((regAdmitted_iff off 4).mpr ⟨rfl, h4, by omega⟩)) hb (regAt_window h4 hlo hhi)
  · refine step_held hi (if_pos ((regAdmitted_iff off 4).mpr ⟨rfl, h4, hlt⟩)) hb ?_
    obtain ⟨hstatus, hcmd⟩ := regAt_ne_status_cmd h4 hs hc
    simp [Access.holdable, hstatus, hcmd]
  · exact step_held hi (if_pos ((memAdmitted_iff addr n).mpr ⟨hn, ha⟩)) hb rfl
  · exact step_held hi (if_pos ((memAdmitted_iff addr n).mpr ⟨hn, ha⟩)) hb rfl
  · obtain ⟨hidle, hport, hevents⟩ := runCommand_port hrun
    have hu : u.held = some a := hport.trans hheld
    have hv : u.releaseHeld = { u with held := none, events := .access a :: rest } := by
      rw [releaseHeld_of_some hu, hevents]
    refine ⟨u.releaseHeld, ?_, hv, ?_, ?_⟩
    · rw [step_completion hnext, completion_of_pending (s := { s with events := rest }) hpending, hrun]
      rfl
    · rw [hv]
      exact ⟨rfl, rfl⟩
    · rw [hv]
      exact hidle

/-! ## Host accesses to buffer memory (R87) -/

/-- The bytes of a number, low byte first (R72). -/
theorem getElem_leBytes (n v k : Nat) (h : k < (leBytes n v).length) :
    (leBytes n v)[k] = BitVec.ofNat 8 (v / 256 ^ k) := by
  induction n generalizing v k with
  | zero => exact absurd h (Nat.not_lt_zero k)
  | succ n ih =>
    cases k with
    | zero => exact BitVec.eq_of_toNat_eq (by simp [leBytes])
    | succ k =>
      have hk : k < (leBytes n (v / 256)).length := Nat.lt_of_succ_lt_succ h
      rw [Nat.pow_succ', ← Nat.div_div_eq_div_mul]
      exact ih (v / 256) k hk

theorem read_writeLE_inside (m : Memory) (addr n v : Nat) {k : Nat} (h : k < n) :
    Store.read (Memory.writeLE m addr n v) (addr + k) = some (BitVec.ofNat 8 (v / 256 ^ k)) := by
  have hk : k < (leBytes n v).length := (length_leBytes n v).symm ▸ h
  rw [Memory.writeLE, read_writeList_inside _ _ _ _ hk, getElem_leBytes]

theorem read_writeLE_outside (m : Memory) (addr n v : Nat) {x : Nat} (h : x < addr ∨ addr + n ≤ x) :
    Store.read (Memory.writeLE m addr n v) x = Store.read m x :=
  read_writeList_outside _ _ (by rwa [length_leBytes])

/-- A little-endian read of written bytes (R72). -/
theorem readLE_eq_sum {m : Memory} {addr n : Nat} {b : Nat → Byte}
    (h : ∀ k, k < n → Store.read m (addr + k) = some (b k)) :
    Memory.readLE m addr n = some (∑ k ∈ Finset.range n, (b k).toNat * 256 ^ k) := by
  induction n generalizing addr b with
  | zero => rfl
  | succ n ih =>
    have hrest := ih (addr := addr + 1) (b := fun k => b (k + 1)) fun k hk => by
      rw [← h (k + 1) (by omega), Nat.add_assoc, Nat.add_comm 1 k]
    have hsum : ∑ k ∈ Finset.range (n + 1), (b k).toNat * 256 ^ k =
        (b 0).toNat + 256 * ∑ k ∈ Finset.range n, (b (k + 1)).toNat * 256 ^ k := by
      rw [Finset.sum_range_succ', Finset.mul_sum, Nat.add_comm, Nat.pow_zero, Nat.mul_one]
      congr 1
      exact Finset.sum_congr rfl fun k _ => by ring
    have hfirst : Store.read m addr = some (b 0) := h 0 (Nat.succ_pos n)
    rw [Memory.readLE, hfirst, hrest, hsum]

/-- With legal parameters MEM_SIZE is a multiple of every width of an access (R7, R87). -/
theorem four_dvd_memSize {p : Config.Params} (h : p.Legal) : 4 ∣ p.memSize := by
  have hlog : 2 ≤ Nat.log2 p.bufAlign := (Nat.le_log2 (by have := h.align_lo; omega)).mpr h.align_lo
  have halign : 4 ∣ p.bufAlign := h.align_pow ▸ pow_dvd_pow 2 hlog
  exact halign.trans (Nat.dvd_of_mod_eq_zero h.mem_mul)

/-- A host read of buffer memory while idle answers what `hostMemRead` gives and changes nothing else (R87, R88). -/
theorem step_memRead {s : State} {addr n : Nat} {v : Word} {rest : List Event} (hi : Issues s (.memRead addr n) rest)
    (hadm : memAdmitted addr n = true) (hb : s.busy = false) (hv : s.hostMemRead addr n = .ok v) :
    step s = .next (answered s rest (.value v)) := by
  have hv' : { s with events := rest }.hostMemRead addr n = .ok v := hv
  rw [step_idle hi (if_pos hadm) hb, State.perform, hv']
  rfl

/-- A host write of buffer memory while idle changes memory only, and only inside MEM_SIZE (R87). -/
theorem step_memWrite {s : State} {addr n : Nat} {v : Word} {rest : List Event} (hi : Issues s (.memWrite addr n v) rest)
    (hadm : memAdmitted addr n = true) (hb : s.busy = false) :
    step s = .next { answered s rest .done with
      mem := if addr + n ≤ s.cfg.memSize then Memory.writeLE s.mem addr n v.toNat else s.mem } := by
  rw [step_idle hi (if_pos hadm) hb, State.perform, State.hostMemWrite]
  split <;> rfl

/-- Settles O18: an admitted access is performed, and inside memory its bytes are those of `leBytes`. -/
theorem hostMemoryAccess : Obligations.host_memory_access := by
  refine ⟨fun s addr n rest hb hn ha => ?_, fun s addr n rest h => ?_⟩
  · have hadm := (memAdmitted_iff addr n).mpr ⟨hn, ha⟩
    refine ⟨fun v hi hin => ⟨_, step_memWrite hi hadm hb, rfl, ?_⟩, fun b hi hin hbytes => ?_,
      fun habove => ⟨fun hi => ?_, fun v hi => ?_⟩, fun hl => ?_⟩
    · simp only [if_pos hin]
      exact ⟨fun k hk => read_writeLE_inside _ _ _ _ hk, fun x hx => read_writeLE_outside _ _ _ _ hx⟩
    · refine step_memRead hi hadm hb ?_
      rw [State.hostMemRead, if_pos hin, readLE_eq_sum hbytes]
    · exact step_memRead hi hadm hb (if_neg (by omega))
    · rw [step_memWrite hi hadm hb, if_neg (by omega)]
      rfl
    · have hsize := four_dvd_memSize hl
      rcases hn with rfl | rfl | rfl <;> omega
  · have hadm : ¬memAdmitted addr n = true := fun hc => h ((memAdmitted_iff addr n).mp hc)
    exact ⟨fun hi => step_refused hi (if_neg hadm), fun v hi => step_refused hi (if_neg hadm)⟩

end Sys2Proof.Proofs
end

section
/-! PROOFS. The checks of a command in the order of 60_exceptions R224: every command is its list of checks followed by the
rest of its computation (`exec_eq_guarded`), so the first check that fails decides (20_memory R76, R81). -/

namespace Sys2Proof.Proofs

open Sys2Proof Sys2Proof.Machine Sys2Proof.Safety Sys2Proof.Laws

/-! ## Computations behind checks -/

/-- The checks of a list in order, then the rest. -/
def guarded {α : Type} (checks : List (Run Unit)) (rest : Run α) : Run α := checks.foldr (fun c r => c >>= fun _ => r) rest

/-- The first check of the list that fails decides. -/
theorem guarded_of_first_error {α : Type} {before after : List (Run Unit)} {c : Run Unit} {e : Halt} (rest : Run α)
    (hb : ∀ b ∈ before, b = .ok ()) (hc : c = .error e) : guarded (before ++ c :: after) rest = .error e := by
  induction before with
  | nil => exact run_bind_of_error _ hc
  | cons b bs ih =>
    obtain ⟨hok, hbs⟩ := List.forall_mem_cons.mp hb
    exact (run_bind_of_ok _ hok).trans (ih hbs)

/-- The descriptor checks of a command (R76). -/
def descRuns (s : State) (i : Instr) : List (Run Unit) := (operandsOf i).map fun p => s.checkDesc p.1 p.2

/-- The kernel and parameter checks of a neighbourhood command (R170, R176, R186). -/
def kernelRuns (s : State) : Instr → List (Run Unit)
  | .conv _ _ => [s.kcheck s.kw s.kh]
  | .blur _ _ k => [s.scheck k.toNat, s.checkSigma]
  | _ => []

/-- The dimension checks of a pointwise command (R224 step 5). -/
def pointwiseSizeRuns (s : State) (i : Instr) : List (Run Unit) :=
  match sizeChecks i with
  | some (a, ns) => ns.map (s.checkSize a)
  | none => []

/-- DIMCHECK of a neighbourhood command (R171). -/
def dimRuns (s : State) (i : Instr) : List (Run Unit) :=
  match neighbourhood s i with
  | some (d, a, r) => [s.dimcheck a d r]
  | none => []

/-- The class of the commands with an overlap check (R80). -/
def classOf : Instr → Option CmdClass
  | .copy _ _ _ | .gray _ _ | .split _ _ _ _ | .merge _ _ _ _ | .rgb2hsv _ _ | .hsv2rgb _ _ | .matx _ _ _ | .lut _ _ _
  | .equalize _ _ _ | .stretch _ _ _ => some .pointwise
  | .conv _ _ | .sobel _ _ | .sharpen _ _ | .blur _ _ _ => some .neighbourhood
  | .nop | .alloc _ _ | .kgauss _ | .ksobelh | .ksobelv | .klapl | .hist _ _ | .cum _ => none

/-- The overlap check of a command (R81). -/
def overlapRuns (s : State) (i : Instr) : List (Run Unit) :=
  match classOf i with
  | some cls => [s.checkOverlap cls (sourcesOf i) (destinations i)]
  | none => []

/-- The checks of a command in the order of R224. -/
def checkRuns (s : State) (i : Instr) : List (Run Unit) :=
  descRuns s i ++ (kernelRuns s i ++ (pointwiseSizeRuns s i ++ (dimRuns s i ++ overlapRuns s i)))

/-- Every command runs its checks in this order and then the rest (R224). -/
theorem exec_eq_guarded (s : State) {i : Instr} (hwf : i.wellFormed = true) :
    ∃ rest, exec i s = s.finish (guarded (checkRuns s i) rest) := by
  cases i with
  | lut d a f =>
    cases f with
    | hsv => cases hwf
    | gray | rgb | ycc => exact ⟨_, rfl⟩
  | nop | ksobelh | ksobelv | klapl => exact ⟨.ok _, rfl⟩
  | _ => exact ⟨_, rfl⟩

/-- A command fails with the error of the first check that does. -/
theorem fails_of_first_error {s : State} {i : Instr} (hwf : i.wellFormed = true) {before after : List (Run Unit)}
    {c : Run Unit} {e : Error} {info : Nat} (hsplit : checkRuns s i = before ++ c :: after)
    (hb : ∀ b ∈ before, b = .ok ()) (hc : c = raise e info) : Fails i s e info := by
  obtain ⟨rest, hexec⟩ := exec_eq_guarded s hwf
  rw [Fails, hexec, hsplit]
  exact finish_of_error (guarded_of_first_error rest hb hc)

/-! ## Descriptor checks (R76) -/

theorem descRuns_ok {s : State} {ops : List Operand} (h : ∀ q ∈ ops, DescOk s q.1 q.2) :
    ∀ b ∈ ops.map fun p => s.checkDesc p.1 p.2, b = .ok () :=
  List.forall_mem_map.mpr fun q hq => checkDesc_ok (h q hq)

theorem checkDesc_misaligned {s : State} {n : DescId} (f : Format) (h : s.baseOf n % s.cfg.bufAlign ≠ 0) :
    s.checkDesc n f = raise .misaligned n.val := if_pos h

theorem checkDesc_bad {s : State} {n : DescId} {f : Format} (h : s.baseOf n % s.cfg.bufAlign = 0)
    (hbad : s.widthOf n = 0 ∨ s.heightOf n = 0 ∨ s.cfg.memSize < s.baseOf n + s.len n f) :
    s.checkDesc n f = raise .badDescriptor n.val := by
  rcases checkDesc_cases s n f with ⟨-, -, hw, hh, hlen⟩ | ⟨-, hmis⟩ | ⟨hraise, -⟩
  · omega
  · exact absurd h hmis
  · exact hraise

/-- Settles O28: the descriptor checks come first, in operand order. -/
theorem descriptorErrors : Obligations.descriptor_errors := by
  intro i s before after p hwf hops hbefore
  have hsplit : ∃ tail, checkRuns s i =
      (before.map fun q => s.checkDesc q.1 q.2) ++ s.checkDesc p.1 p.2 :: tail := by
    rw [checkRuns, descRuns, hops, List.map_append, List.map_cons, List.append_assoc, List.cons_append]
    exact ⟨_, rfl⟩
  obtain ⟨tail, hsplit⟩ := hsplit
  exact ⟨fun hmis => fails_of_first_error hwf hsplit (descRuns_ok hbefore) (checkDesc_misaligned _ hmis),
    fun hal hbad => fails_of_first_error hwf hsplit (descRuns_ok hbefore) (checkDesc_bad hal hbad)⟩

/-! ## Kernel and dimension checks that pass -/

theorem kcheck_ok {s : State} {kw kh : Nat} (heq : kw = kh) (hodd : kw % 2 = 1) (hle : kw ≤ s.cfg.kmax) :
    s.kcheck kw kh = .ok () := if_neg (by omega)

theorem scheck_ok {s : State} {k : Nat} (hodd : k % 2 = 1) (hle : k ≤ s.cfg.kmax) : s.scheck k = .ok () :=
  if_neg (by omega)

theorem checkSigma_ok {s : State} (h : s.sigma ≠ 0) : s.checkSigma = .ok () := if_neg h

theorem kernelRuns_ok {s : State} {i : Instr} (h : KernelOk s i) : ∀ b ∈ kernelRuns s i, b = .ok () := by
  cases i with
  | conv d a =>
    obtain ⟨heq, hodd, hle⟩ := h
    exact List.forall_mem_singleton.mpr (kcheck_ok heq hodd hle)
  | blur d a k =>
    obtain ⟨hodd, hle, hsigma⟩ := h
    exact List.forall_mem_cons.mpr ⟨scheck_ok hodd hle, List.forall_mem_singleton.mpr (checkSigma_ok hsigma)⟩
  | _ => exact List.forall_mem_nil _

theorem pointwiseSizeRuns_ok {s : State} {i : Instr} (h : ∀ a ns, sizeChecks i = some (a, ns) → ∀ n ∈ ns, SameSize s a n) :
    ∀ b ∈ pointwiseSizeRuns s i, b = .ok () := by
  rw [pointwiseSizeRuns]
  cases hs : sizeChecks i with
  | none => exact List.forall_mem_nil _
  | some p => exact List.forall_mem_map.mpr fun n hn => checkSize_ok (h p.1 p.2 hs n hn)

theorem dimRuns_ok {s : State} {i : Instr} (h : ∀ d a r, neighbourhood s i = some (d, a, r) → OutputSize s a d r) :
    ∀ b ∈ dimRuns s i, b = .ok () := by
  rw [dimRuns]
  cases hn : neighbourhood s i with
  | none => exact List.forall_mem_nil _
  | some p => exact List.forall_mem_singleton.mpr (dimcheck_ok_iff.mpr (h p.1 p.2.1 p.2.2 hn))

/-! ## The overlap check (R81) -/

/-- The ERRINFO value of a pair that fails (R81). -/
def pairInfo (c : Operand × Operand × Bool) : Nat := c.1.1.val + c.2.1.1.val * 2 ^ 4

/-- The pairs of the overlap check of a class of commands, in the order in which the model goes through them. -/
def overlapPairs (cls : CmdClass) (srcs dsts : List Operand) : List (Operand × Operand × Bool) :=
  (dsts.flatMap fun d => srcs.map fun a => (a, d, cls == .pointwise)) ++ (pairs dsts).map fun p => (p.1, p.2, false)

/-- This order is that of R81 for every command. -/
theorem overlapPairs_eq {i : Instr} {cls : CmdClass} (h : classOf i = some cls) :
    overlapPairs cls (sourcesOf i) (destinations i) = overlapChecks i := by
  cases i with
  | nop | alloc | kgauss | ksobelh | ksobelv | klapl | hist | cum => cases h
  | _ => cases h; rfl

theorem overlapChecks_eq_nil {i : Instr} (h : classOf i = none) : overlapChecks i = [] := by
  cases i with
  | nop | alloc | kgauss | ksobelh | ksobelv | klapl | hist | cum => rfl
  | _ => cases h

/-- A destination and a source clash exactly when their pair fails. -/
theorem clash_iff {s : State} {cls : CmdClass} {d a : Operand} :
    s.clash cls d a = true ↔ ¬PairOk s (a, d, cls == .pointwise) := by
  rw [← Bool.not_eq_false, not_iff_not]
  cases cls with
  | pointwise =>
    rw [clash_pointwise_iff]
    simp only [PointwiseOk, PairOk, Apart, Alias, beq_self_eq_true, true_and]
    omega
  | neighbourhood =>
    rw [clash_neighbourhood_iff]
    simp only [PairOk, Apart, show (CmdClass.neighbourhood == CmdClass.pointwise) = false from rfl, Bool.false_eq_true,
      false_and, or_false]
    exact or_comm

theorem overlaps_iff {s : State} {p q : Operand} : s.overlaps p q = true ↔ ¬PairOk s (p, q, false) := by
  rw [← Bool.not_eq_false, not_iff_not, overlaps_eq_false_iff]
  simp [PairOk]

/-- The failures that the model lists are those of the pairs, in their order. -/
theorem clashes_eq (s : State) (cls : CmdClass) (srcs dsts : List Operand) :
    s.clashes cls srcs dsts = ((overlapPairs cls srcs dsts).filter fun c => ¬PairOk s c).map pairInfo := by
  have hclash : ∀ d : Operand, (srcs.filter fun a => s.clash cls d a).map (fun a => a.1.val + d.1.val * 2 ^ 4) =
      ((srcs.map fun a => (a, d, cls == .pointwise)).filter fun c => ¬PairOk s c).map pairInfo := fun d => by
    rw [List.filter_map, List.map_map]
    exact congrArg (List.map _) (List.filter_congr fun a _ => Bool.eq_iff_iff.mpr (clash_iff.trans decide_eq_true_iff.symm))
  have hover : ((pairs dsts).filter fun p => s.overlaps p.1 p.2).map (fun p => p.1.1.val + p.2.1.val * 2 ^ 4) =
      (((pairs dsts).map fun p => (p.1, p.2, false)).filter fun c => ¬PairOk s c).map pairInfo := by
    rw [List.filter_map, List.map_map]
    exact congrArg (List.map _) (List.filter_congr fun a _ => Bool.eq_iff_iff.mpr (overlaps_iff.trans decide_eq_true_iff.symm))
  rw [State.clashes, overlapPairs, List.filter_append, List.map_append, List.filter_flatMap, List.map_flatMap, hover]
  simp only [hclash]

/-- The first pair that fails is reported. -/
theorem checkOverlap_first {s : State} {cls : CmdClass} {srcs dsts : List Operand}
    {before after : List (Operand × Operand × Bool)} {c : Operand × Operand × Bool}
    (hsplit : overlapPairs cls srcs dsts = before ++ c :: after) (hb : ∀ b ∈ before, PairOk s b) (hc : ¬PairOk s c) :
    s.checkOverlap cls srcs dsts = raise .overlap (pairInfo c) := by
  have hpass : (before.filter fun b => ¬PairOk s b) = [] :=
    List.filter_eq_nil_iff.mpr fun b hmem hfail => of_decide_eq_true hfail (hb b hmem)
  rw [State.checkOverlap, clashes_eq, hsplit, List.filter_append, hpass, List.nil_append,
    List.filter_cons, if_pos (decide_eq_true hc), List.map_cons]

/-- Settles O30: the overlap check comes last of the checks, and its first failing pair decides. -/
theorem overlapErrors : Obligations.overlap_errors := by
  intro i s before after c hwf hdesc hkernel hsizes hsplit hbefore hc
  obtain ⟨hsame, hout⟩ := hsizes
  obtain ⟨cls, hcls⟩ := Option.ne_none_iff_exists'.mp fun hnone =>
    List.append_ne_nil_of_right_ne_nil before (List.cons_ne_nil c after) (hsplit ▸ overlapChecks_eq_nil hnone)
  have hruns : checkRuns s i =
      (descRuns s i ++ (kernelRuns s i ++ (pointwiseSizeRuns s i ++ dimRuns s i))) ++
        s.checkOverlap cls (sourcesOf i) (destinations i) :: [] := by
    simp only [checkRuns, overlapRuns, hcls, List.append_assoc]
  refine fails_of_first_error hwf hruns ?_ (checkOverlap_first ((overlapPairs_eq hcls).trans hsplit) hbefore hc)
  exact List.forall_mem_append.mpr ⟨descRuns_ok hdesc, List.forall_mem_append.mpr ⟨kernelRuns_ok hkernel,
    List.forall_mem_append.mpr ⟨pointwiseSizeRuns_ok hsame, dimRuns_ok hout⟩⟩⟩

end Sys2Proof.Proofs
end

section
/-! PROOFS. What commands write: buffer memory only in the extents of their destinations (20_memory R77), and the descriptor
and ALLOC_PTR of ALLOC (R75, 40_buffer R131). -/

namespace Sys2Proof.Proofs

open Sys2Proof Sys2Proof.Machine Sys2Proof.Safety Sys2Proof.Laws

/-! ## Memory outside the destinations (R77) -/

/-- An address outside the extents of the destinations of a command. -/
abbrev OutsideAll (s : State) (i : Instr) (addr : Nat) : Prop :=
  ∀ p ∈ destinations i, addr < s.baseOf p.1 ∨ s.baseOf p.1 + s.len p.1 p.2 ≤ addr

theorem writesExtent_outside {s t : State} {d : DescId} {f : Format} (h : WritesExtent s d f t) : MemOutside s t d f := by
  obtain ⟨bytes, hlen, -, rfl⟩ := h
  exact fun addr haddr => putExtent_outside (by rwa [hlen])

theorem effect_mem_outside {i : Instr} {s t : State} (he : Effect s i t) {addr : Nat} (h : OutsideAll s i addr) :
    Store.read t.mem addr = Store.read s.mem addr := by
  cases i with
  | nop | alloc | kgauss | ksobelh | ksobelv | klapl | hist | cum =>
    obtain ⟨-, -, -, -, -, -, -, -, hmem⟩ := effect_keeps_control he
    rw [hmem rfl]
  | copy | gray | merge | rgb2hsv | hsv2rgb | matx | lut | conv | sobel | sharpen | stretch =>
    exact writesExtent_outside he addr (h _ (List.mem_singleton_self _))
  | split b c d a =>
    obtain ⟨s1, s2, hb, hc, hd⟩ := he
    have h1 := writesExtent_outside hb addr (h (b, .gray) (by simp [destinations]))
    obtain ⟨_, -, -, rfl⟩ := hb
    have h2 := writesExtent_outside hc addr (h (c, .gray) (by simp [destinations]))
    obtain ⟨_, -, -, rfl⟩ := hc
    exact (writesExtent_outside hd addr (h (d, .gray) (by simp [destinations]))).trans (h2.trans h1)
  | blur d a k =>
    obtain ⟨-, _, ⟨ws, -, rfl⟩, hw⟩ := he
    exact writesExtent_outside hw addr (h _ (List.mem_singleton_self _))
  | equalize d a l =>
    obtain ⟨cs, ts, -, -, hw⟩ := he
    exact writesExtent_outside hw addr (h _ (List.mem_singleton_self _))

/-- Settles O24: a command that fails writes nothing, the others as `Effect` says. -/
theorem commandsWriteOnlyDestinations : Obligations.commands_write_only_destinations := by
  intro i s t h addr hout
  rcases exec_cases h with ⟨e, info, rfl⟩ | ⟨s', he, rfl⟩
  · rw [complete_mem]
  · rw [complete_mem, effect_mem_outside he hout]

/-! ## ALLOC (R131) -/

/-- ALLOC of an empty buffer. -/
theorem alloc_fails_empty {s : State} {d : DescId} (f : Format) (h : s.widthOf d = 0 ∨ s.heightOf d = 0) :
    Fails (.alloc d f) s .badDescriptor d.val := finish_of_error (if_pos h)

/-- ALLOC of a buffer that does not fit. -/
theorem alloc_fails_full {s : State} {d : DescId} {f : Format} (hw : 0 < s.widthOf d) (hh : 0 < s.heightOf d)
    (h : s.cfg.memSize < s.allocPtr.toNat + s.alen (s.widthOf d) (s.heightOf d) f) :
    Fails (.alloc d f) s .allocation (min (s.alen (s.widthOf d) (s.heightOf d) f) 0xFFFFFFFF) :=
  finish_of_error ((if_neg (by omega)).trans (if_pos h))

/-- ALLOC of a buffer that fits. -/
theorem exec_alloc_fits {s : State} {d : DescId} {f : Format} (hw : 0 < s.widthOf d) (hh : 0 < s.heightOf d)
    (h : s.allocPtr.toNat + s.alen (s.widthOf d) (s.heightOf d) f ≤ s.cfg.memSize) :
    exec (.alloc d f) s = .next ((s.allocate d (s.alen (s.widthOf d) (s.heightOf d) f)).complete none) :=
  finish_of_ok ((if_neg (by omega)).trans (if_neg (by omega)))

theorem desc_allocate_same (s : State) (d : DescId) (size : Nat) :
    (s.allocate d size).desc.get d = { s.desc.get d with base := s.allocPtr } := by
  rw [allocate_desc, vector_get_set, if_pos rfl]

theorem desc_allocate_other (s : State) {d n : DescId} (size : Nat) (h : n ≠ d) :
    (s.allocate d size).desc.get n = s.desc.get n := by
  rw [allocate_desc, vector_get_set, if_neg h.symm]

/-- Settles O33. -/
theorem allocPlacesABuffer : Obligations.alloc_places_a_buffer := by
  intro s d f hl size
  refine ⟨alloc_fails_empty f, alloc_fails_full, fun hw hh hfit => ⟨_, exec_alloc_fits hw hh hfit, rfl, ?_, ?_,
    fun n hn => desc_allocate_other s size hn, ?_⟩⟩
  · exact congrArg (fun r : Desc => r.base.toNat) (desc_allocate_same s d size)
  · exact (congrArg Desc.dim (desc_allocate_same s d size)).trans rfl
  · have hptr : (s.allocate d size).allocPtr.toNat = s.allocPtr.toNat + size := by
      have := hl.mem_hi
      rw [allocate_allocPtr, BitVec.toNat_ofNat, Nat.mod_eq_of_lt (by omega)]
    refine ⟨hptr, fun halign => ⟨?_, ?_⟩⟩
    · exact (congrArg (fun r : Desc => r.base.toNat % s.cfg.bufAlign) (desc_allocate_same s d size)).trans halign
    · exact (congrArg (· % s.cfg.bufAlign) hptr).trans ((Nat.add_mul_mod_self_right _ _ _).trans halign)

end Sys2Proof.Proofs
end

section
/-! PROOFS. Encoding and decoding are inverse to each other (30_encoding R100 to R105): a command and the fields of its word,
which have no stray bit, determine each other. With it the words that do not decode (R106). -/

namespace Sys2Proof.Proofs

open Sys2Proof Sys2Proof.Machine Sys2Proof.Safety Sys2Proof.Laws

/-! ## Immediates -/

theorem formatOf_code (f : Format) : formatOf (BitVec.ofNat 8 f.code) = f := by cases f <;> rfl

theorem code_formatOf (imm : Byte) : (formatOf imm).code = imm.toNat % 4 := by
  have hlt : imm.toNat % 4 < 4 := Nat.mod_lt _ (by decide)
  rw [formatOf]
  generalize imm.toNat % 4 = n at *
  interval_cases n <;> rfl

/-- An FMT immediate without stray bits is the code of its format (R103). -/
theorem ofNat_code_formatOf {imm : Byte} (h : ImmKind.fmt.strayBits imm = false) :
    BitVec.ofNat 8 (formatOf imm).code = imm := by
  have hlt : imm.toNat / 4 = 0 := by simpa [ImmKind.strayBits] using h
  rw [code_formatOf, Nat.mod_eq_of_lt (by omega), BitVec.ofNat_toNat, BitVec.setWidth_eq]

theorem strayBits_code (f : Format) : ImmKind.fmt.strayBits (BitVec.ofNat 8 f.code) = false := by cases f <;> decide

theorem bank_ofNat : ∀ b : Bank, Fin.ofNat 2 (BitVec.ofNat 8 b.val).toNat = b := by decide

theorem strayBits_bank : ∀ b : Bank, ImmKind.bank.strayBits (BitVec.ofNat 8 b.val) = false := by decide

/-- A bank immediate without stray bits is the number of its bank (R103). -/
theorem ofNat_bank {imm : Byte} (h : ImmKind.bank.strayBits imm = false) :
    BitVec.ofNat 8 (Fin.ofNat 2 imm.toNat).val = imm := by
  have hlt : imm.toNat / 2 = 0 := by simpa [ImmKind.strayBits] using h
  rw [Fin.val_ofNat, Nat.mod_eq_of_lt (by omega), BitVec.ofNat_toNat, BitVec.setWidth_eq]

/-- An immediate that R103 wants 0. -/
theorem eq_zero_of_strayBits {imm : Byte} (h : ImmKind.none.strayBits imm = false) : imm = 0 :=
  BitVec.eq_of_toNat_eq (by simpa [ImmKind.strayBits] using h)

/-! ## A command and the fields of its word -/

/-- No operand field is stray when each field without a use in R104 is 0. -/
theorem strayField_eq_false_iff (op : Opcode) (f : Fields) :
    op.strayField f = false ↔ (op.uses.1 = false → f.da = 0) ∧ (op.uses.2.1 = false → f.db = 0) ∧
      (op.uses.2.2.1 = false → f.dc = 0) ∧ (op.uses.2.2.2 = false → f.dd = 0) := by
  simp [Opcode.strayField, and_assoc]

theorem strayField_fields (i : Instr) : i.opcode.strayField i.fields = false := by
  rw [strayField_eq_false_iff]
  cases i <;> simp [Instr.opcode, Instr.fields, Opcode.uses]

theorem strayBits_fields (i : Instr) : i.opcode.immKind.strayBits i.fields.imm = false := by
  cases i with
  | alloc d f | copy d a f | lut d a f => exact strayBits_code f
  | matx d a bank => exact strayBits_bank bank
  | _ => rfl

/-- A command is the one that its opcode names with its fields. -/
theorem build_fields (i : Instr) : i.opcode.build i.fields = i := by
  cases i with
  | alloc d f | copy d a f | lut d a f => simp [Instr.opcode, Instr.fields, Opcode.build, formatOf_code]
  | matx d a bank => simp only [Instr.opcode, Instr.fields, Opcode.build, bank_ofNat]
  | _ => rfl

theorem opcode_build (op : Opcode) (f : Fields) : (op.build f).opcode = op := by cases op <;> rfl

/-- Fields without a stray bit are those of the command that they name. -/
theorem fields_build {op : Opcode} {f : Fields} (hfield : op.strayField f = false)
    (himm : op.immKind.strayBits f.imm = false) : (op.build f).fields = f := by
  obtain ⟨ha, hb, hc, hd⟩ := (strayField_eq_false_iff op f).mp hfield
  obtain ⟨da, db, dc, dd, imm⟩ := f
  cases op with
  | alloc | copy | lut =>
    have := ofNat_code_formatOf himm
    simp_all [Opcode.build, Instr.fields, Opcode.uses]
  | matx =>
    have := ofNat_bank himm
    simp_all [Opcode.build, Instr.fields, Opcode.uses]
  | kgauss | blur | hist | cum | equalize | stretch => simp_all [Opcode.build, Instr.fields, Opcode.uses]
  | _ =>
    have := eq_zero_of_strayBits himm
    simp_all [Opcode.build, Instr.fields, Opcode.uses]

/-! ## Words -/

/-- Settles O1: the word gives back the opcode and the fields, and these the command. -/
theorem decodeOfEncode : Obligations.decode_of_encode := by
  intro i hwf
  obtain ⟨hop, hfields, hrsvd⟩ := EncodedWord.holds i
  rw [decode_ok_iff, hfields]
  exact ⟨i.opcode, hop.symm, hrsvd, strayField_fields i, strayBits_fields i, (build_fields i).symm, hwf⟩

/-- Settles O2: the opcode and the fields of a word without stray bits are those of the command, and they make the word. -/
theorem encodeOfDecode : Obligations.encode_of_decode := by
  intro w i h
  obtain ⟨op, hop, hrsvd, hfield, himm, rfl, hwf⟩ := decode_ok_iff.mp h
  refine ⟨hwf, ?_⟩
  rw [encode, opcode_build, fields_build hfield himm, hop, wordOf_fieldsOf hrsvd]

theorem decode_of_encode_eq {w : Word} {i : Instr} (hwf : i.wellFormed = true) (h : encode i = w) : decode w = .ok i :=
  h ▸ decodeOfEncode i hwf

/-- Settles O5: each word is the encoded word of its command. -/
theorem specWordsDecode : Obligations.spec_words_decode := by
  refine ⟨?_, ?_, ?_, ?_, ?_, ?_, ?_, ?_, ?_, ?_, ?_, ?_, ?_, ?_, ?_, ?_, ?_, ?_, ?_, ?_, ?_, ?_⟩ <;>
    exact decode_of_encode_eq (by decide) (by decide)

/-! ## Words that do not decode (R106) -/

theorem decode_unassigned {w : Word} (h : ∀ op : Opcode, op.code ≠ bits w 5 0) :
    decode w = .error .unassignedOpcode := by
  have hnone : opcodeOf (bits w 5 0) = none := List.find?_eq_none.mpr fun op _ => by simpa using h op
  rw [decode, hnone]

/-- The conditions of R106 after the first, for a word of an assigned opcode. -/
theorem decode_of_opcode {w : Word} {op : Opcode} (h : op.code = bits w 5 0) :
    decode w =
      if bits w 31 26 ≠ 0 then .error .reservedBits
      else if op.strayField (fieldsOf w) then .error .unusedField
      else if op.immKind.strayBits (fieldsOf w).imm then .error .immediateBits
      else if (op.build (fieldsOf w)).wellFormed then .ok (op.build (fieldsOf w))
      else .error .reservedImmediate := by
  rw [decode, ← h, opcodeOf_code]

/-- The operand-field bits of a row's mask are those of its unused fields. -/
theorem rowMask_and_operands (op : Opcode) :
    (fieldMask 0 6 ||| zeroMask op) &&& 0x0003FFC0 = unusedMask op.uses.1 6 ||| (unusedMask op.uses.2.1 9 |||
      (unusedMask op.uses.2.2.1 12 ||| unusedMask op.uses.2.2.2 15)) := by
  cases op <;> decide

/-- The IMM bits of a row's mask are those that R103 wants 0. -/
theorem rowMask_and_imm (op : Opcode) : (fieldMask 0 6 ||| zeroMask op) &&& 0x03FC0000 = immMask op.immKind := by
  cases op <;> decide

theorem and_unusedMasks_eq_zero_iff (w : Word) (op : Opcode) :
    w &&& (unusedMask op.uses.1 6 ||| (unusedMask op.uses.2.1 9 |||
      (unusedMask op.uses.2.2.1 12 ||| unusedMask op.uses.2.2.2 15))) = 0 ↔ op.strayField (fieldsOf w) = false := by
  rw [and_or_eq_zero_iff, and_or_eq_zero_iff, and_or_eq_zero_iff, and_unusedMask_eq_zero_iff w _ (by omega),
    and_unusedMask_eq_zero_iff w _ (by omega), and_unusedMask_eq_zero_iff w _ (by omega),
    and_unusedMask_eq_zero_iff w _ (by omega), Opcode.strayField]
  simp only [Bool.or_eq_false_iff, and_assoc]
  rfl

theorem row_operands_eq_zero_iff (w : Word) (op : Opcode) :
    w &&& (fieldMask 0 6 ||| zeroMask op) &&& 0x0003FFC0 = 0 ↔ op.strayField (fieldsOf w) = false := by
  rw [BitVec.and_assoc, rowMask_and_operands, and_unusedMasks_eq_zero_iff]

theorem row_imm_eq_zero_iff (w : Word) (op : Opcode) :
    w &&& (fieldMask 0 6 ||| zeroMask op) &&& 0x03FC0000 = 0 ↔ op.immKind.strayBits (fieldsOf w).imm = false := by
  rw [BitVec.and_assoc, rowMask_and_imm, and_immMask_eq_zero_iff]

theorem runCommand_of_decode_error {w : Word} {e : DecodeError} (h : decode w = .error e) (s : State) :
    runCommand w s = .next (s.complete (some (.illegalCommand, e.info))) := by
  rw [runCommand, h]
  rfl

/-- The completion of a word that does not decode changes STATUS, ERRINFO and PENDING only, with ERRCODE 4 (R106). -/
theorem runCommand_illegal {w : Word} {e : DecodeError} (h : decode w = .error e) (s : State) :
    ∃ st : Word, bits st 11 8 = 4 ∧
      runCommand w s = .next { s with status := st, errinfo := BitVec.ofNat 32 e.info, pending := none } :=
  ⟨_, statusFailed_errcode s.status .illegalCommand, runCommand_of_decode_error h s⟩

/-- Settles O4: the row of an opcode fixes the bits that the decoder tests, condition by condition. -/
theorem illegalCommandReasons : Obligations.illegal_command_reasons := by
  intro w s illegal
  have reason : ∀ {e : DecodeError}, decode w = .error e → illegal e.info := fun h => runCommand_illegal h s
  have hcode : ∀ op : Opcode, bits (BitVec.ofNat 32 op.code) 5 0 = op.code := by
    intro op
    cases op <;> rfl
  simp only [tableRows_eq, List.mem_map, forall_exists_index, and_imp, forall_apply_eq_imp_iff₂, hcode]
  refine ⟨fun h => reason (decode_unassigned fun op => (h op (opcode_mem_all op)).symm), fun op _ hop => ?_⟩
  have hdecode := decode_of_opcode hop.symm
  refine ⟨fun hrsvd => ?_, fun hrsvd hfield => ?_, fun hrsvd hfield himm => ?_, fun hrow hlut hfmt => ?_⟩
  · exact reason (hdecode.trans (if_pos hrsvd))
  · have hstray := eq_true_of_ne_false (mt (row_operands_eq_zero_iff w op).mpr hfield)
    exact reason (e := .unusedField) (by simp [hdecode, hrsvd, hstray])
  · have hclean := (row_operands_eq_zero_iff w op).mp hfield
    have hstray := eq_true_of_ne_false (mt (row_imm_eq_zero_iff w op).mpr himm)
    exact reason (e := .immediateBits) (by simp [hdecode, hrsvd, hclean, hstray])
  · obtain ⟨-, hrsvd, hfield, himm⟩ := (row_match_iff w op).mp hrow
    have hwf : ¬(op.build (fieldsOf w)).wellFormed = true := fun hwf =>
      (build_wellFormed_iff hop.symm).mp hwf ⟨hlut, hfmt⟩
    exact reason (e := .reservedImmediate) (by simp [hdecode, hrsvd, hfield, himm, hwf])

theorem completion_of_idle {s : State} (h : s.pending = none) : completion s = .next s.releaseHeld := by
  rw [completion, h]

/-- Settles O7. -/
theorem stepWithoutACommand : Obligations.step_without_a_command := by
  refine ⟨fun s w e rest hnext hpending hdecode => ?_, fun s rest hnext hpending hheld => ?_⟩
  · rw [step_completion hnext, completion_of_pending (s := { s with events := rest }) hpending,
      runCommand_of_decode_error hdecode]
    rfl
  · rw [step_completion hnext, completion_of_idle (s := { s with events := rest }) hpending,
      releaseHeld_of_none (s := { s with events := rest }) hheld]

end Sys2Proof.Proofs
end

section
/-! PROOFS. Every accepted word completes when all that a command could read has been written (60_exceptions R223, 70_reset
R265, R272): a command then never stops with a fault of the model, only with an error or with its effects. -/

namespace Sys2Proof.Proofs

open Sys2Proof Sys2Proof.Machine Sys2Proof.Safety Sys2Proof.Laws

/-! ## Computations that do not fault -/

/-- The computation does not stop with a fault of the model: it has a value or raises an error. -/
def NoFault {α : Type} (r : Run α) : Prop := ∀ f, r ≠ .error (.fault f)

theorem noFault_ok {α : Type} (v : α) : NoFault (.ok v : Run α) := fun _ => nofun

theorem noFault_of_ok {α : Type} {r : Run α} {v : α} (h : r = .ok v) : NoFault r := h ▸ noFault_ok v

theorem noFault_raise {α : Type} (e : Error) (info : Nat) : NoFault (raise e info : Run α) := fun _ => nofun

theorem noFault_bind {α β : Type} {x : Run α} {f : α → Run β} (hx : NoFault x) (hf : ∀ a, x = .ok a → NoFault (f a)) :
    NoFault (x >>= f) := by
  intro r h
  rcases run_bind_error_iff.mp h with h | ⟨a, ha, h⟩
  · exact hx r h
  · exact hf a ha r h

/-- A value is computed and then used without a further read. -/
theorem noFault_map {α β : Type} {x : Run α} (g : α → β) (hx : NoFault x) : NoFault (x >>= fun a => .ok (g a)) :=
  noFault_bind hx fun a _ => noFault_ok (g a)

theorem noFault_ite {α : Type} {c : Prop} [Decidable c] {x y : Run α} (hx : c → NoFault x) (hy : ¬c → NoFault y) :
    NoFault (if c then x else y) := by
  split
  · exact hx ‹_›
  · exact hy ‹_›

theorem noFault_collect {α : Type} {xs : List (Run α)} (h : ∀ x ∈ xs, NoFault x) : NoFault (collect xs) :=
  fun r hr => h _ (collect_error hr) r rfl

theorem noFault_collect_range {α : Type} {n : Nat} {g : Nat → Run α} (h : ∀ i, i < n → NoFault (g i)) :
    NoFault (collect ((List.range n).map g)) :=
  noFault_collect (List.forall_mem_map.mpr fun i hi => h i (List.mem_range.mp hi))

theorem noFault_raster {w h : Nat} {px : Nat → Nat → Run (List Byte)} (hpx : ∀ x y, x < w → y < h → NoFault (px x y)) :
    NoFault (raster w h px) := by
  refine noFault_map List.flatten (noFault_collect_range fun i hi => ?_)
  have hw : 0 < w := Nat.pos_of_mul_pos_right (by omega : 0 < w * h)
  exact hpx _ _ (Nat.mod_lt _ hw) (Nat.div_lt_of_lt_mul hi)

/-- The completion step of a computation that does not fault answers a next state. -/
theorem finish_completes {s : State} {r : Run State} (h : NoFault r) : ∃ t, s.finish r = .next t := by
  rcases r with (⟨e, info⟩ | f) | s'
  · exact ⟨_, rfl⟩
  · exact absurd rfl (h f)
  · exact ⟨_, rfl⟩

/-! ## Checks -/

theorem noFault_check {c : Prop} [Decidable c] (e : Error) (info : Nat) : NoFault (if c then raise e info else .ok ()) :=
  noFault_ite (fun _ => noFault_raise e info) fun _ => noFault_ok ()

theorem noFault_checkDesc (s : State) (n : DescId) (f : Format) : NoFault (s.checkDesc n f) :=
  noFault_ite (fun _ => noFault_raise _ _) fun _ => noFault_ite (fun _ => noFault_raise _ _) fun _ => noFault_check _ _

theorem noFault_checkOverlap (s : State) (cls : CmdClass) (srcs dsts : List Operand) :
    NoFault (s.checkOverlap cls srcs dsts) := by
  rw [State.checkOverlap]
  split
  · exact noFault_ok ()
  · exact noFault_raise _ _

theorem noFault_kernelRuns (s : State) (i : Instr) : ∀ c ∈ kernelRuns s i, NoFault c := by
  cases i with
  | conv d a => exact List.forall_mem_singleton.mpr (noFault_check _ _)
  | blur d a k => exact List.forall_mem_cons.mpr ⟨noFault_check _ _, List.forall_mem_singleton.mpr (noFault_check _ _)⟩
  | _ => exact List.forall_mem_nil _

theorem noFault_pointwiseSizeRuns (s : State) (i : Instr) : ∀ c ∈ pointwiseSizeRuns s i, NoFault c := by
  rw [pointwiseSizeRuns]
  split
  · exact List.forall_mem_map.mpr fun _ _ => noFault_check _ _
  · exact List.forall_mem_nil _

theorem noFault_dimRuns (s : State) (i : Instr) : ∀ c ∈ dimRuns s i, NoFault c := by
  rw [dimRuns]
  split
  · exact List.forall_mem_singleton.mpr (noFault_check _ _)
  · exact List.forall_mem_nil _

theorem noFault_overlapRuns (s : State) (i : Instr) : ∀ c ∈ overlapRuns s i, NoFault c := by
  rw [overlapRuns]
  split
  · exact List.forall_mem_singleton.mpr (noFault_checkOverlap _ _ _ _)
  · exact List.forall_mem_nil _

/-- A check reads no memory, so it never faults. -/
theorem noFault_checkRuns (s : State) (i : Instr) : ∀ c ∈ checkRuns s i, NoFault c :=
  List.forall_mem_append.mpr ⟨List.forall_mem_map.mpr fun _ _ => noFault_checkDesc _ _ _,
    List.forall_mem_append.mpr ⟨noFault_kernelRuns s i, List.forall_mem_append.mpr ⟨noFault_pointwiseSizeRuns s i,
      List.forall_mem_append.mpr ⟨noFault_dimRuns s i, noFault_overlapRuns s i⟩⟩⟩⟩

theorem kernelOk_of_kernelRuns {s : State} {i : Instr} (h : ∀ c ∈ kernelRuns s i, c = .ok ()) : KernelOk s i := by
  cases i with
  | conv d a =>
    have hk : s.kcheck s.kw s.kh = .ok () := h _ List.mem_cons_self
    rw [State.kcheck] at hk
    split at hk
    · cases hk
    · exact ⟨by omega, by omega, by omega⟩
  | blur d a k =>
    have hk : s.scheck k.toNat = .ok () := h _ List.mem_cons_self
    have hsigma : s.checkSigma = .ok () := h _ (List.mem_cons_of_mem _ List.mem_cons_self)
    rw [State.scheck] at hk
    rw [State.checkSigma] at hsigma
    split at hk
    · cases hk
    · split at hsigma
      · cases hsigma
      · exact ⟨by omega, by omega, ‹_›⟩
  | _ => trivial

/-- What a command knows of its operands behind its checks (R224). -/
structure ChecksPassed (s : State) (i : Instr) : Prop where
  desc : ∀ q ∈ operandsOf i, DescOk s q.1 q.2
  kernel : KernelOk s i
  sizes : SizesOk s i

theorem checksPassed_of_checkRuns {s : State} {i : Instr} (h : ∀ c ∈ checkRuns s i, c = .ok ()) : ChecksPassed s i := by
  simp only [checkRuns, List.forall_mem_append] at h
  obtain ⟨hdesc, hkernel, hsize, hdim, -⟩ := h
  refine ⟨fun q hq => checkDesc_ok_iff.mp (List.forall_mem_map.mp hdesc q hq), kernelOk_of_kernelRuns hkernel,
    fun a ns hs n hn => ?_, fun d a r hn => ?_⟩
  · rw [pointwiseSizeRuns, hs] at hsize
    exact checkSize_ok_iff.mp (List.forall_mem_map.mp hsize n hn)
  · rw [dimRuns, hn] at hdim
    exact dimcheck_ok_iff.mp (hdim _ (List.mem_singleton_self _))

theorem noFault_guarded {α : Type} {checks : List (Run Unit)} {rest : Run α} (hc : ∀ c ∈ checks, NoFault c)
    (hr : (∀ c ∈ checks, c = .ok ()) → NoFault rest) : NoFault (guarded checks rest) := by
  induction checks with
  | nil => exact hr (List.forall_mem_nil _)
  | cons c cs ih =>
    obtain ⟨hhead, htail⟩ := List.forall_mem_cons.mp hc
    exact noFault_bind hhead fun _ hok => ih htail fun hcs => hr (List.forall_mem_cons.mpr ⟨hok, hcs⟩)

/-- A command completes if the computation behind its checks does not fault on operands that pass them. -/
theorem completes_of_rest {s : State} {i : Instr} {rest : Run State}
    (hexec : exec i s = s.finish (guarded (checkRuns s i) rest)) (h : ChecksPassed s i → NoFault rest) :
    ∃ t, exec i s = .next t :=
  hexec ▸ finish_completes (noFault_guarded (noFault_checkRuns s i) fun hok => h (checksPassed_of_checkRuns hok))

/-! ## Reads -/

/-- With legal parameters, all that a command can read has been written (R265). -/
structure AllWritten (s : State) : Prop where
  legal : s.cfg.Legal
  mem : ∀ addr, addr < s.cfg.memSize → (Store.read s.mem addr).isSome = true
  kram : Filled s.kram 256
  hist : Filled s.hist 256
  lut : Filled s.lut 256

theorem readable_of_descOk {s : State} (hs : AllWritten s) {n : DescId} {f : Format} (h : DescOk s n f) : Readable s n f := by
  obtain ⟨-, -, -, hend⟩ := h
  exact fun k hk => hs.mem _ (by omega)

theorem noFault_readByte {s : State} {addr : Nat} (h : (Store.read s.mem addr).isSome = true) : NoFault (s.readByte addr) := by
  obtain ⟨b, -, hb, -⟩ := readByte_ok h
  exact noFault_of_ok hb

theorem readLE_isSome {m : Memory} {addr n : Nat} (h : ∀ k, k < n → (Store.read m (addr + k)).isSome = true) :
    (Memory.readLE m addr n).isSome = true := by
  induction n generalizing addr with
  | zero => rfl
  | succ n ih =>
    obtain ⟨b, hb⟩ := Option.isSome_iff_exists.mp (h 0 (Nat.succ_pos n))
    obtain ⟨v, hv⟩ := Option.isSome_iff_exists.mp (ih (addr := addr + 1) fun k hk => by
      rw [Nat.add_assoc, Nat.add_comm 1 k]
      exact h (k + 1) (by omega))
    rw [Nat.add_zero] at hb
    rw [Memory.readLE, hb, hv]
    rfl

/-- A GET16 whose two bytes lie in a pixel of a readable buffer. -/
theorem noFault_get16 {s : State} {n : DescId} {f : Format} (hr : Readable s n f) {x y o : Nat} (hx : x < s.widthOf n)
    (hy : y < s.heightOf n) (ho : o + 1 < s.bpp f) : NoFault (s.get16 n f x y o) := by
  have hbytes : ∀ k, k < 2 → (Store.read s.mem (s.paddr n f x y o + k)).isSome = true := fun k hk => by
    rw [State.paddr, Nat.add_assoc]
    exact readable_pixel hr hx hy (by omega)
  obtain ⟨v, hv⟩ := Option.isSome_iff_exists.mp (readLE_isSome hbytes)
  rw [State.get16, hv]
  exact noFault_ok v

theorem noFault_plane {s : State} {a : DescId} (hr : Readable s a .rgb) {o : Nat} (ho : o < 3) : NoFault (s.plane a o) :=
  noFault_raster fun _ _ hx hy => noFault_map _ (noFault_of_ok (get8_ok hr hx hy ho))

/-- The domain check of RGB2HSV reads pixels of the source only (R146). -/
theorem noFault_domainCheck {s : State} {a : DescId} (hr : Readable s a .rgb) {l : List Nat}
    (hl : ∀ i ∈ l, i < s.widthOf a * s.heightOf a) : NoFault (s.domainCheck a l) := by
  induction l with
  | nil => exact noFault_ok ()
  | cons i rest ih =>
    obtain ⟨hi, hrest⟩ := List.forall_mem_cons.mp hl
    have hw : 0 < s.widthOf a := Nat.pos_of_mul_pos_right (by omega : 0 < s.widthOf a * s.heightOf a)
    have hget := get3_ok hr (Nat.mod_lt i hw) (Nat.div_lt_of_lt_mul hi) (Nat.le_refl 3)
    rw [State.domainCheck]
    exact noFault_bind (noFault_of_ok hget) fun _ _ => noFault_ite (fun _ => noFault_raise _ _) fun _ => ih hrest

/-- The channels of an HSV pixel, in either layout (R145). -/
theorem noFault_getHsv {s : State} {a : DescId} (hr : Readable s a .hsv) {x y : Nat} (hx : x < s.widthOf a)
    (hy : y < s.heightOf a) : NoFault (s.getHsv a x y) := by
  rw [State.getHsv]
  refine noFault_ite (fun hp => ?_) fun hp => ?_
  · exact noFault_of_ok (get3_ok hr hx hy (by simp [State.bpp, hp]))
  · have hbpp : s.bpp .hsv = 4 := if_neg hp
    exact noFault_bind (noFault_get16 hr hx hy (by omega)) fun _ _ =>
      noFault_bind (noFault_of_ok (get8_ok hr hx hy (by omega))) fun _ _ =>
        noFault_map _ (noFault_of_ok (get8_ok hr hx hy (by omega)))

theorem noFault_lutAt {s : State} (h : Filled s.lut 256) (b : Byte) : NoFault (s.lutAt b.toNat) := by
  obtain ⟨v, hv⟩ := Option.isSome_iff_exists.mp (h b.toNat b.isLt)
  rw [State.lutAt, hv]
  exact noFault_ok v

theorem noFault_counts {s : State} (h : Filled s.hist 256) (l : Byte) : NoFault (s.counts l.toNat) :=
  noFault_of_ok (counts_ok fun i hi => h i (by have := l.isLt; omega))

/-- The output of CONV, with a kernel of odd side `k` that has been written (R172). -/
theorem noFault_convBytes {s : State} {a d : DescId} {k : Nat} (hs : Readable s a .gray) (ha : DescOk s a .gray)
    (hkw : s.kw = k) (hodd : k % 2 = 1) (hk : Filled s.kram (k * k)) (hsize : OutputSize s a d (k / 2)) :
    NoFault (s.convBytes d a) := by
  subst hkw
  obtain ⟨-, hw, hh, -⟩ := ha
  exact noFault_raster fun _ _ hx hy => noFault_map _ (noFault_of_ok (correlate_ok hs hw hh hodd hk hsize hx hy))

/-- KSIZE.KW after a kernel was loaded (R31, R178). -/
theorem kw_loadKernel (s : State) (k : Byte) (ws : List Int) : (s.loadKernel k.toNat ws).kw = k.toNat := by
  have := k.isLt
  rw [State.kw, loadKernel_ksize, bits, BitVec.toNat_ofNat]
  omega

/-- A loaded kernel has been written (R178). -/
theorem filled_loadKernel (s : State) {k : Nat} {ws : List Int} (h : ws.length = k * k) :
    Filled (s.loadKernel k ws).kram (k * k) := by
  intro i hi
  have hread := read_writeList_inside (ws.map fun q => BitVec.ofInt 32 q) s.kram 0 i (by rwa [List.length_map, h])
  rw [Nat.zero_add] at hread
  rw [loadKernel_kram, hread]
  rfl

/-! ## Commands -/

/-- Every command completes when all that it can read has been written. -/
theorem exec_completes {s : State} (hs : AllWritten s) (i : Instr) : ∃ t, exec i s = .next t := by
  have readable : ∀ {n : DescId} {f : Format}, DescOk s n f → Readable s n f := readable_of_descOk hs
  have rgbPixel : ∀ {a : DescId}, DescOk s a .rgb → ∀ x y, x < s.widthOf a → y < s.heightOf a →
      NoFault (s.get3 a .rgb x y) := fun ha _ _ hx hy => noFault_of_ok (get3_ok (readable ha) hx hy (Nat.le_refl 3))
  have sourceOk : ∀ {i : Instr} {p : Operand} {ps : List Operand}, ChecksPassed s i → operandsOf i = p :: ps →
      DescOk s p.1 p.2 := fun hc hops => hc.desc _ (hops ▸ List.mem_cons_self)
  cases i with
  | nop | ksobelh | ksobelv | klapl => exact ⟨_, rfl⟩
  | alloc d f =>
    exact finish_completes (noFault_ite (fun _ => noFault_raise _ _) fun _ =>
      noFault_ite (fun _ => noFault_raise _ _) fun _ => noFault_ok _)
  | copy d a f =>
    refine completes_of_rest rfl fun hc => noFault_map _ (noFault_collect_range fun k hk => ?_)
    exact noFault_readByte (readable (sourceOk hc rfl) k hk)
  | gray d a | matx d a bank =>
    exact completes_of_rest rfl fun hc => noFault_map _ (noFault_raster fun x y hx hy =>
      noFault_map _ (rgbPixel (sourceOk hc rfl) x y hx hy))
  | split b c d a =>
    refine completes_of_rest rfl fun hc => ?_
    have plane : ∀ {o : Nat}, o < 3 → NoFault (s.plane a o) := noFault_plane (readable (sourceOk hc rfl))
    exact noFault_bind (plane (by omega)) fun _ _ => noFault_bind (plane (by omega)) fun _ _ =>
      noFault_map _ (plane (by omega))
  | merge d a b c =>
    refine completes_of_rest rfl fun hc => noFault_map _ (noFault_raster fun x y hx hy => ?_)
    have channel : ∀ n, (n, Format.gray) ∈ operandsOf (.merge d a b c) → SameSize s a n → NoFault (s.get8 n .gray x y 0) :=
      fun n hn ⟨hw, hh⟩ => noFault_of_ok (get8_ok (readable (hc.desc _ hn)) (hw ▸ hx) (hh ▸ hy) Nat.one_pos)
    obtain ⟨hsame, -⟩ := hc.sizes
    exact noFault_bind (channel a (by simp [operandsOf]) ⟨rfl, rfl⟩) fun _ _ =>
      noFault_bind (channel b (by simp [operandsOf]) (hsame a _ rfl b (by simp))) fun _ _ =>
        noFault_map _ (channel c (by simp [operandsOf]) (hsame a _ rfl c (by simp)))
  | rgb2hsv d a =>
    refine completes_of_rest rfl fun hc => ?_
    have ha := sourceOk hc rfl
    refine noFault_ite (fun _ => noFault_bind (noFault_domainCheck (readable ha) fun _ => List.mem_range.mp) fun _ _ => ?_)
        (fun _ => ?_) <;>
      exact noFault_map _ (noFault_raster fun x y hx hy => noFault_map _ (rgbPixel ha x y hx hy))
  | hsv2rgb d a =>
    exact completes_of_rest rfl fun hc => noFault_map _ (noFault_raster fun x y hx hy =>
      noFault_map _ (noFault_getHsv (readable (sourceOk hc rfl)) hx hy))
  | lut d a f =>
    cases f with
    | hsv => exact ⟨_, rfl⟩
    | gray | rgb | ycc =>
      exact completes_of_rest rfl fun hc => noFault_map _ (noFault_collect_range fun k hk =>
        noFault_bind (noFault_readByte (readable (sourceOk hc rfl) k hk)) fun b _ => noFault_lutAt hs.lut b)
  | conv d a =>
    refine completes_of_rest rfl fun hc => noFault_map _ ?_
    obtain ⟨-, hodd, hle⟩ := hc.kernel
    obtain ⟨-, hout⟩ := hc.sizes
    have hside : s.kw * s.kw ≤ 15 * 15 := Nat.mul_self_le_mul_self (hle.trans hs.legal.kmax_hi)
    exact noFault_convBytes (readable (sourceOk hc rfl)) (sourceOk hc rfl) rfl hodd (fun i hi => hs.kram i (by omega))
      (hout d a _ rfl)
  | kgauss k =>
    exact finish_completes (noFault_bind (noFault_check _ _) fun _ _ => noFault_map _ (noFault_check _ _))
  | sobel d a =>
    refine completes_of_rest rfl fun hc => noFault_map _ (noFault_raster fun x y hx hy => ?_)
    have ⟨_, hw, hh, _⟩ := sourceOk hc rfl
    obtain ⟨-, hout⟩ := hc.sizes
    exact noFault_map _ (noFault_of_ok (sobelAt_ok (readable (sourceOk hc rfl)) hw hh (hout d a 1 rfl) hx hy))
  | sharpen d a =>
    refine completes_of_rest rfl fun hc => noFault_map _ (noFault_raster fun x y hx hy => ?_)
    have ⟨_, hw, hh, _⟩ := sourceOk hc rfl
    obtain ⟨-, hout⟩ := hc.sizes
    exact noFault_map _ (noFault_of_ok (sharpenAt_ok (readable (sourceOk hc rfl)) hw hh (hout d a 1 rfl) hx hy))
  | blur d a k =>
    refine completes_of_rest rfl fun hc => noFault_map _ ?_
    obtain ⟨hodd, -, -⟩ := hc.kernel
    obtain ⟨-, hout⟩ := hc.sizes
    exact noFault_convBytes (s := s.loadKernel _ _) (readable (sourceOk hc rfl)) (sourceOk hc rfl)
      (kw_loadKernel s k _) hodd (filled_loadKernel s (by simp [gaussWeights])) (hout d a _ rfl)
  | hist a l =>
    exact completes_of_rest rfl fun hc => noFault_map _ (noFault_of_ok (levels_ok (readable (sourceOk hc rfl))))
  | cum l => exact finish_completes (noFault_map _ (noFault_counts hs.hist l))
  | equalize d a l =>
    exact completes_of_rest rfl fun hc => noFault_bind (noFault_counts hs.hist l) fun _ _ =>
      noFault_map _ (noFault_of_ok (levels_ok (readable (sourceOk hc rfl))))
  | stretch d a l =>
    exact completes_of_rest rfl fun hc => noFault_bind (noFault_counts hs.hist l) fun _ _ =>
      noFault_ite (fun _ => noFault_bind (noFault_raise _ _) nofun) fun _ =>
        noFault_map _ (noFault_of_ok (levels_ok (readable (sourceOk hc rfl))))

theorem runCommand_completes {s : State} (hs : AllWritten s) (w : Word) : ∃ t, runCommand w s = .next t := by
  cases h : decode w with
  | error e => exact ⟨_, runCommand_of_decode_error h s⟩
  | ok i =>
    rw [runCommand_of_decode h]
    exact exec_completes hs i

theorem runCommand_pending {w : Word} {s t : State} (h : runCommand w s = .next t) : t.pending = none := by
  rcases runCommand_cases h with ⟨e, info, rfl⟩ | ⟨i, s', -, -, rfl⟩
  · exact complete_pending s _
  · exact complete_pending s' _

/-- Settles O26: the word completes, its completion ends BUSY and PENDING, and the held access is released. -/
theorem everyCommandCompletes : Obligations.every_command_completes := by
  intro s w rest hlegal hnext hpending hmem hkram hhist hlut
  have hs : AllWritten { s with events := rest } := ⟨hlegal, hmem, hkram, hhist, hlut⟩
  obtain ⟨u, hrun⟩ := runCommand_completes hs w
  obtain ⟨hbusy, -, -⟩ := runCommand_port hrun
  refine ⟨u.releaseHeld, ?_, ?_, ?_, releaseHeld_held u⟩
  · rw [step_completion hnext, completion_of_pending (s := { s with events := rest }) hpending, hrun]
    rfl
  · rw [State.busy, releaseHeld_status]
    exact hbusy
  · rw [releaseHeld_pending, runCommand_pending hrun]

end Sys2Proof.Proofs
end

section
/-! PROOFS. The buffer model commands NOP and COPY (40_buffer R130, R132). What a command that writes an extent byte by byte
leaves is said once, in `extent_completes`. -/

namespace Sys2Proof.Proofs

open Sys2Proof Sys2Proof.Machine Sys2Proof.Safety Sys2Proof.Laws

/-! ## COPY -/

/-- A byte that has been written is the byte of its number. -/
theorem read_eq_byteAt {s : State} {addr : Nat} (h : (Store.read s.mem addr).isSome = true) :
    Store.read s.mem addr = some (byteOf (byteAt s addr)) := by
  obtain ⟨b, hread, -, hnum⟩ := readByte_ok h
  rw [hread, ← hnum, byteOf_toNat]

theorem readByte_eq_byteAt {s : State} {addr : Nat} (h : (Store.read s.mem addr).isSome = true) :
    s.readByte addr = .ok (byteOf (byteAt s addr)) := congrArg (written .unwrittenMemory) (read_eq_byteAt h)

/-- Buffers of one size have extents of one length in any one format (R74). -/
theorem len_eq_of_sameSize {s : State} {a d : DescId} (f : Format) (h : SameSize s a d) : s.len d f = s.len a f := by
  obtain ⟨hw, hh⟩ := h
  rw [State.len, State.len, hw, hh]

/-- A command that writes the bytes `g k` to the whole extent of `d` completes without error, changes memory only, and only
there, and leaves `g k` at offset `k` of the extent (R77, R222). -/
theorem extent_completes {i : Instr} {s : State} {d : DescId} {f : Format} (g : Nat → Byte)
    (hexec : exec i s = s.finish (.ok (s.putExtent d ((List.range (s.len d f)).map g)))) :
    ∃ t, exec i s = .next t ∧ OnlyMemory s t ∧ MemOutside s t d f ∧
      ∀ k, k < s.len d f → Store.read t.mem (s.baseOf d + k) = some (g k) := by
  have hlen : ((List.range (s.len d f)).map g).length = s.len d f := by rw [List.length_map, List.length_range]
  refine ⟨_, hexec, rfl, fun addr haddr => ?_, fun k hk => ?_⟩
  · rw [complete_mem]
    exact putExtent_outside (hlen.symm ▸ haddr)
  · rw [complete_mem, putExtent_mem, read_writeList_inside _ _ _ _ (hlen.symm ▸ hk), List.getElem_map,
      List.getElem_range]

/-- COPY on operands that pass its checks: the whole source is read before the destination is written (R132). -/
theorem exec_copy {s : State} {d a : DescId} {f : Format} (h : PointwiseReady s (d, f) (a, f)) :
    exec (.copy d a f) s = s.finish (.ok (s.putExtent d
      ((List.range (s.len d f)).map fun k => byteOf (byteAt s (s.baseOf a + k))))) := by
  obtain ⟨ha, hd, hsize, hover, hread⟩ := h
  have hbytes := collect_map_ok (l := List.range (s.len a f)) (fun k => byteOf (byteAt s (s.baseOf a + k)))
    fun k hk => readByte_eq_byteAt (hread k (List.mem_range.mp hk))
  refine congrArg s.finish ?_
  rw [checkDesc_ok ha, checkDesc_ok hd, checkSize_ok hsize, checkOverlap_pointwise hover, len_eq_of_sameSize f hsize]
  exact run_bind_of_ok _ hbytes

/-- Settles O34. -/
theorem copyCopiesTheExtent : Obligations.copy_copies_the_extent := by
  intro s d a f h
  obtain ⟨t, hexec, honly, hout, hin⟩ := extent_completes _ (exec_copy h)
  obtain ⟨-, -, hsize, -, hread⟩ := h
  refine ⟨t, hexec, honly, hout, fun k hk => ?_⟩
  rw [hin k (len_eq_of_sameSize f hsize ▸ hk), read_eq_byteAt (hread k hk)]

/-! ## NOP -/

theorem opcode_eq_nop {op : Opcode} (h : op.code = 0) : op = .nop :=
  Option.some_inj.mp ((opcodeOf_code op).symm.trans (congrArg opcodeOf h))

/-- NOP has no field, so the one word with its opcode that decodes is 0 (R106, R130). -/
theorem eq_zero_of_decode {w : Word} {i : Instr} (hop : bits w 5 0 = 0) (h : decode w = .ok i) : w = 0 := by
  obtain ⟨-, hencode⟩ := encodeOfDecode w i h
  obtain ⟨op, hcode, -, -, -, rfl, -⟩ := decode_ok_iff.mp h
  rw [opcode_eq_nop (hcode.trans hop)] at hencode
  exact hencode.symm.trans (by decide : encode .nop = 0)

/-- Settles O32. -/
theorem nopCompletes : Obligations.nop_completes := by
  refine ⟨decode_of_encode_eq (i := .nop) rfl rfl, fun w hop hne => ?_, fun s => ⟨_, rfl, statusDone_bit s.status⟩⟩
  cases h : decode w with
  | error e => exact ⟨e, rfl⟩
  | ok i => exact absurd (eq_zero_of_decode hop h) hne

end Sys2Proof.Proofs
end

section
/-! PROOFS. The colour-space converter on whole pixels and bytes: GRAY, SPLIT, MERGE and LUT (41_color R140 to R142, R152). A
command with one source and one destination is its raster once its checks have passed (`pointwise_checks_pass`,
`raster_over_source_completes`). -/

namespace Sys2Proof.Proofs

open Sys2Proof Sys2Proof.Machine Sys2Proof.Safety Sys2Proof.Laws

/-! ## Commands with one source and one destination -/

/-- The checks of a pointwise command with one source and one destination stop nothing on operands that pass them (R224). -/
theorem pointwise_checks_pass {s : State} {d a : DescId} {fd fa : Format} (h : PointwiseReady s (d, fd) (a, fa))
    (rest : Run State) :
    (do s.checkDesc a fa
        s.checkDesc d fd
        s.checkSize a d
        s.checkOverlap .pointwise [(a, fa)] [(d, fd)]
        rest) = rest := by
  obtain ⟨ha, hd, hsize, hover, -⟩ := h
  rw [checkDesc_ok ha, checkDesc_ok hd, checkSize_ok hsize, checkOverlap_pointwise hover]
  rfl

/-- A command that makes the pixels `g x y` from a source of the size of `d` and writes them to `d`, put in the coordinates of
the source (R74, R77, R222). -/
theorem raster_over_source_completes {i : Instr} {s : State} {d a : DescId} {f : Format}
    {px : Nat → Nat → Run (List Byte)} (g : Nat → Nat → List Byte) (hsize : SameSize s a d)
    (hexec : exec i s = s.finish (do
      let bytes ← raster (s.widthOf a) (s.heightOf a) px
      return s.putExtent d bytes))
    (hpx : ∀ x y, x < s.widthOf a → y < s.heightOf a → px x y = .ok (g x y))
    (hlen : ∀ x y, (g x y).length = s.bpp f) :
    ∃ t, exec i s = .next t ∧ OnlyMemory s t ∧ MemOutside s t d f ∧
      ∀ x y o, x < s.widthOf a → y < s.heightOf a → o < s.bpp f → Store.read t.mem (s.paddr d f x y o) = (g x y)[o]? := by
  rw [raster_ok g hpx] at hexec
  obtain ⟨hw, hh⟩ := hsize
  rw [← hw, ← hh] at hexec ⊢
  exact raster_completes g hexec hlen

/-! ## GRAY -/

/-- The byte that GRAY makes of pixel `(x, y)` of `a` (R140). -/
def grayPixel (s : State) (a : DescId) (x y : Nat) : List Byte :=
  [byteOf ((pixelAt s a .rgb x y 0 + pixelAt s a .rgb x y 1 + pixelAt s a .rgb x y 2) / 3)]

/-- Settles O35. -/
theorem grayAverages : Obligations.gray_averages := by
  intro s d a h
  have ⟨_, _, hsize, _, hread⟩ := h
  obtain ⟨t, hexec, honly, hout, hin⟩ := raster_over_source_completes (i := .gray d a) (f := .gray) (grayPixel s a) hsize
    (congrArg s.finish (pointwise_checks_pass h _))
    (fun x y hx hy => by rw [get3_ok hread hx hy (Nat.le_refl 3)]; rfl) fun _ _ => rfl
  exact ⟨t, hexec, honly, hout, fun x y hx hy => hin x y 0 hx hy Nat.one_pos⟩

/-! ## LUT -/

/-- The table's entry for the byte at offset `k` of the extent of `a` (R152). -/
def lutByte (s : State) (a : DescId) (k : Nat) : Byte := (Store.read s.lut (byteAt s (s.baseOf a + k))).getD 0

/-- The entry that has been written for a byte of memory that has been written. -/
theorem read_lut_eq_lutByte {s : State} {a : DescId} {k : Nat}
    (h : (Store.read s.lut (byteAt s (s.baseOf a + k))).isSome = true) :
    Store.read s.lut (byteAt s (s.baseOf a + k)) = some (lutByte s a k) := by
  obtain ⟨v, hv⟩ := Option.isSome_iff_exists.mp h
  rw [lutByte, hv]
  rfl

/-- LUT on operands that pass its checks, for the formats that decode. -/
theorem exec_lut {s : State} {d a : DescId} {f : Format} (hf : f ≠ .hsv) (h : PointwiseReady s (d, f) (a, f))
    (hlut : ∀ k, k < s.len a f → (Store.read s.lut (byteAt s (s.baseOf a + k))).isSome = true) :
    exec (.lut d a f) s = s.finish (.ok (s.putExtent d ((List.range (s.len d f)).map (lutByte s a)))) := by
  have ⟨_, _, hsize, _, hread⟩ := h
  have hbytes := collect_map_ok (l := List.range (s.len a f)) (lutByte s a) (f := fun k => do
      let v ← s.readByte (s.baseOf a + k)
      s.lutAt v.toNat) fun k hk => by
    obtain ⟨b, -, hb, hnum⟩ := readByte_ok (hread k (List.mem_range.mp hk))
    refine (run_bind_of_ok _ hb).trans ?_
    rw [State.lutAt, hnum, read_lut_eq_lutByte (hlut k (List.mem_range.mp hk))]
    rfl
  rw [len_eq_of_sameSize f hsize]
  refine congrArg s.finish ((if_neg hf).trans ((pointwise_checks_pass h _).trans ?_))
  exact run_bind_of_ok _ hbytes

/-- Settles O45. -/
theorem lutMapsEveryByte : Obligations.lut_maps_every_byte := by
  intro s d a f hf h hlut
  obtain ⟨t, hexec, honly, hout, hin⟩ := extent_completes _ (exec_lut hf h hlut)
  obtain ⟨-, -, hsize, -, -⟩ := h
  refine ⟨t, hexec, honly, hout, fun k hk => ?_⟩
  rw [hin k (len_eq_of_sameSize f hsize ▸ hk), read_lut_eq_lutByte (hlut k hk)]

end Sys2Proof.Proofs
end

section
/-! PROOFS. Planes: SPLIT, MERGE and their composition (41_color R141, R142). SPLIT writes three planes apart from each other,
so each reads as it was written; MERGE of them gives each byte of the source back. -/

namespace Sys2Proof.Proofs

open Sys2Proof Sys2Proof.Machine Sys2Proof.Safety Sys2Proof.Laws

/-! ## Addresses of pixels -/

/-- Every byte of an extent is a channel byte of one pixel, the same one in every buffer of that size and format (R74). -/
theorem extent_offset_eq_paddr {s : State} {a : DescId} {f : Format} {k : Nat} (hk : k < s.len a f) :
    ∃ x y o, x < s.widthOf a ∧ y < s.heightOf a ∧ o < s.bpp f ∧
      ∀ n, SameSize s a n → s.baseOf n + k = s.paddr n f x y o := by
  rw [State.len] at hk
  have hbpp : 0 < s.bpp f := Nat.pos_of_mul_pos_left (Nat.zero_lt_of_lt hk)
  have hpixel : k / s.bpp f < s.widthOf a * s.heightOf a := Nat.div_lt_of_lt_mul (Nat.mul_comm _ _ ▸ hk)
  have hw : 0 < s.widthOf a := Nat.pos_of_mul_pos_right (Nat.zero_lt_of_lt hpixel)
  refine ⟨k / s.bpp f % s.widthOf a, k / s.bpp f / s.widthOf a, k % s.bpp f, Nat.mod_lt _ hw,
    Nat.div_lt_of_lt_mul hpixel, Nat.mod_lt _ hbpp, fun n hn => ?_⟩
  rw [State.paddr, hn.1, Nat.div_add_mod', Nat.add_assoc, Nat.div_add_mod']

/-- The bytes of a pixel lie in the extent (R74). -/
theorem paddr_mem_extent {s : State} {n : DescId} {f : Format} {x y o : Nat} (hx : x < s.widthOf n) (hy : y < s.heightOf n)
    (ho : o < s.bpp f) : s.baseOf n ≤ s.paddr n f x y o ∧ s.paddr n f x y o < s.baseOf n + s.len n f := by
  have := pixel_offset_lt hx hy ho
  rw [State.paddr, State.len]
  omega

/-! ## SPLIT -/

/-- The bytes of channel `o` of the RGB buffer `a` in raster order. -/
def planeBytes (s : State) (a : DescId) (o : Nat) : List Byte :=
  ((List.range (s.widthOf a * s.heightOf a)).map fun i =>
    [byteOf (pixelAt s a .rgb (i % s.widthOf a) (i / s.widthOf a) o)]).flatten

theorem plane_ok {s : State} {a : DescId} (hr : Readable s a .rgb) {o : Nat} (ho : o < 3) :
    s.plane a o = .ok (planeBytes s a o) :=
  raster_ok (fun x y => [byteOf (pixelAt s a .rgb x y o)]) fun _ _ hx hy => by rw [get8_ok hr hx hy ho]; rfl

theorem planeBytes_length {s : State} {a n : DescId} (h : SameSize s a n) (o : Nat) :
    (planeBytes s a o).length = s.len n .gray := by
  rw [planeBytes, length_flatten_map_range _ 1 _ fun _ _ => rfl, State.len, h.1, h.2]
  rfl

/-- A plane written to `n` reads back pixel by pixel. -/
theorem read_plane_inside {s : State} {a n : DescId} (h : SameSize s a n) (m : Memory) (o : Nat) {x y : Nat}
    (hx : x < s.widthOf a) (hy : y < s.heightOf a) :
    Store.read (Store.writeList m (s.baseOf n) (planeBytes s a o)) (s.paddr n .gray x y 0) =
      some (byteOf (pixelAt s a .rgb x y o)) := by
  obtain ⟨hw, hh⟩ := h
  rw [planeBytes, ← hw, ← hh]
  exact putExtent_raster_inside (s := { s with mem := m }) (d := n) (f := .gray)
    (fun x y => [byteOf (pixelAt s a .rgb x y o)]) (fun _ _ _ _ => rfl) (hw ▸ hx) (hh ▸ hy) Nat.one_pos

/-- A plane written to `n` changes nothing outside the extent of `n`. -/
theorem read_plane_outside {s : State} {a n : DescId} (h : SameSize s a n) (m : Memory) (o : Nat) {addr : Nat}
    (hout : addr < s.baseOf n ∨ s.baseOf n + s.len n .gray ≤ addr) :
    Store.read (Store.writeList m (s.baseOf n) (planeBytes s a o)) addr = Store.read m addr :=
  read_writeList_outside _ _ (planeBytes_length h o ▸ hout)

/-- A plane written to `n` changes no pixel of a plane apart from it. -/
theorem read_plane_apart {s : State} {a n k : DescId} (h : SameSize s a n) (hk : SameSize s a k)
    (hapart : Apart s (k, .gray) (n, .gray)) (m : Memory) (o : Nat) {x y : Nat} (hx : x < s.widthOf a)
    (hy : y < s.heightOf a) :
    Store.read (Store.writeList m (s.baseOf n) (planeBytes s a o)) (s.paddr k .gray x y 0) =
      Store.read m (s.paddr k .gray x y 0) := by
  have hin := paddr_mem_extent (f := .gray) (hk.1 ▸ hx) (hk.2 ▸ hy) (Nat.one_pos : 0 < s.bpp .gray)
  refine read_plane_outside h m o ?_
  simp only [Apart] at hapart
  omega

/-- SPLIT on operands that pass its checks. -/
theorem exec_split {s : State} {b c d a : DescId} (hb : PointwiseReady s (b, .gray) (a, .rgb))
    (hc : PointwiseReady s (c, .gray) (a, .rgb)) (hd : PointwiseReady s (d, .gray) (a, .rgb))
    (hbc : Apart s (b, .gray) (c, .gray)) (hbd : Apart s (b, .gray) (d, .gray)) (hcd : Apart s (c, .gray) (d, .gray)) :
    exec (.split b c d a) s = s.finish (.ok
      (((s.putExtent b (planeBytes s a 0)).putExtent c (planeBytes s a 1)).putExtent d (planeBytes s a 2))) := by
  obtain ⟨ha, hbok, hbsize, hbover, hread⟩ := hb
  obtain ⟨-, hcok, hcsize, hcover, -⟩ := hc
  obtain ⟨-, hdok, hdsize, hdover, -⟩ := hd
  have hover : s.checkOverlap .pointwise [(a, .rgb)] [(b, .gray), (c, .gray), (d, .gray)] = .ok () := by
    rw [checkOverlap_ok_iff]
    simp only [pairs, List.map_cons, List.map_nil, List.nil_append, List.cons_append, List.forall_mem_cons,
      clash_pointwise_iff, overlaps_eq_false_iff]
    exact ⟨⟨⟨hbover, nofun⟩, ⟨hcover, nofun⟩, ⟨hdover, nofun⟩, nofun⟩, hbc, hbd, hcd, nofun⟩
  refine congrArg s.finish ?_
  rw [checkDesc_ok ha, checkDesc_ok hbok, checkDesc_ok hcok, checkDesc_ok hdok, checkSize_ok hbsize, checkSize_ok hcsize,
    checkSize_ok hdsize, hover, plane_ok hread (by decide), plane_ok hread (by decide), plane_ok hread (by decide)]
  rfl

/-- Settles O36: each plane is written last in its own extent. -/
theorem splitSeparatesThePlanes : Obligations.split_separates_the_planes := by
  intro s b c d a hb hc hd hbc hbd hcd
  have ⟨_, _, hbsize, _, _⟩ := hb
  have ⟨_, _, hcsize, _, _⟩ := hc
  have ⟨_, _, hdsize, _, _⟩ := hd
  refine ⟨_, exec_split hb hc hd hbc hbd hcd, rfl, fun addr hout => ?_, fun x y hx hy => ⟨?_, ?_, ?_⟩⟩
  · obtain ⟨hob, hout⟩ := List.forall_mem_cons.mp hout
    obtain ⟨hoc, hout⟩ := List.forall_mem_cons.mp hout
    have hod := List.forall_mem_singleton.mp hout
    exact (read_plane_outside hdsize _ 2 hod).trans
      ((read_plane_outside hcsize _ 1 hoc).trans (read_plane_outside hbsize _ 0 hob))
  · exact (read_plane_apart hdsize hbsize hbd _ 2 hx hy).trans
      ((read_plane_apart hcsize hbsize hbc _ 1 hx hy).trans (read_plane_inside hbsize _ 0 hx hy))
  · exact (read_plane_apart hdsize hcsize hcd _ 2 hx hy).trans (read_plane_inside hcsize _ 1 hx hy)
  · exact read_plane_inside hdsize _ 2 hx hy

/-! ## MERGE -/

/-- The three bytes that MERGE makes of pixel `(x, y)` (R142). -/
def mergePixel (s : State) (a b c : DescId) (x y : Nat) : List Byte :=
  [byteOf (pixelAt s a .gray x y 0), byteOf (pixelAt s b .gray x y 0), byteOf (pixelAt s c .gray x y 0)]

/-- The checks of MERGE stop nothing when its sources have the size of its destination. -/
theorem merge_checks_pass {s : State} {d a b c : DescId} (ha : PointwiseReady s (d, .rgb) (a, .gray))
    (hb : PointwiseReady s (d, .rgb) (b, .gray)) (hc : PointwiseReady s (d, .rgb) (c, .gray)) (rest : Run State) :
    (do s.checkDesc a .gray
        s.checkDesc b .gray
        s.checkDesc c .gray
        s.checkDesc d .rgb
        s.checkSize a b
        s.checkSize a c
        s.checkSize a d
        s.checkOverlap .pointwise [(a, .gray), (b, .gray), (c, .gray)] [(d, .rgb)]
        rest) = rest := by
  obtain ⟨haok, hdok, hasize, haover, -⟩ := ha
  obtain ⟨hbok, -, hbsize, hbover, -⟩ := hb
  obtain ⟨hcok, -, hcsize, hcover, -⟩ := hc
  have hab : SameSize s a b := ⟨hbsize.1.symm.trans hasize.1, hbsize.2.symm.trans hasize.2⟩
  have hac : SameSize s a c := ⟨hcsize.1.symm.trans hasize.1, hcsize.2.symm.trans hasize.2⟩
  have hover : s.checkOverlap .pointwise [(a, .gray), (b, .gray), (c, .gray)] [(d, .rgb)] = .ok () := by
    rw [checkOverlap_ok_iff]
    simp only [pairs, List.map_nil, List.append_nil, List.forall_mem_cons, clash_pointwise_iff]
    exact ⟨⟨⟨haover, hbover, hcover, nofun⟩, nofun⟩, nofun⟩
  rw [checkDesc_ok haok, checkDesc_ok hbok, checkDesc_ok hcok, checkDesc_ok hdok, checkSize_ok hab, checkSize_ok hac,
    checkSize_ok hasize, hover]
  rfl

/-- Settles O37. -/
theorem mergeInterleavesThePlanes : Obligations.merge_interleaves_the_planes := by
  intro s d a b c ha hb hc
  have ⟨_, _, ⟨haw, hah⟩, _, hra⟩ := ha
  have ⟨_, _, ⟨hbw, hbh⟩, _, hrb⟩ := hb
  have ⟨_, _, ⟨hcw, hch⟩, _, hrc⟩ := hc
  obtain ⟨t, hexec, honly, hout, hin⟩ := raster_over_source_completes (i := .merge d a b c) (f := .rgb)
    (mergePixel s a b c) ⟨haw, hah⟩ (congrArg s.finish (merge_checks_pass ha hb hc _))
    (fun x y hx hy => by
      rw [get8_ok hra hx hy Nat.one_pos, get8_ok hrb (by omega) (by omega) Nat.one_pos,
        get8_ok hrc (by omega) (by omega) Nat.one_pos]
      rfl) fun _ _ => rfl
  have hbpp : s.bpp .rgb = 3 := rfl
  exact ⟨t, hexec, honly, hout, fun x y hx hy =>
    ⟨hin x y 0 hx hy (by omega), hin x y 1 hx hy (by omega), hin x y 2 hx hy (by omega)⟩⟩

/-! ## MERGE after SPLIT -/

/-- The number of a pixel whose byte is known is that of the byte. -/
theorem ofNat_pixelAt_of_read {s : State} {n : DescId} {f : Format} {x y o : Nat} {v : Byte}
    (h : Store.read s.mem (s.paddr n f x y o) = some v) : BitVec.ofNat 8 (pixelAt s n f x y o) = v := by
  rw [pixelAt, byteAt, h]
  exact byteOf_toNat v

/-- A GRAY buffer of which every pixel reads as some byte has been written. -/
theorem readable_of_pixels {s : State} {n : DescId} (px : Nat → Nat → Byte)
    (h : ∀ x y, x < s.widthOf n → y < s.heightOf n → Store.read s.mem (s.paddr n .gray x y 0) = some (px x y)) :
    Readable s n .gray := by
  intro k hk
  obtain ⟨x, y, o, hx, hy, ho, haddr⟩ := extent_offset_eq_paddr hk
  obtain rfl : o = 0 := Nat.lt_one_iff.mp ho
  rw [haddr n ⟨rfl, rfl⟩, h x y hx hy]
  rfl

/-- Settles O38: MERGE finds in the planes what SPLIT took from the source. -/
theorem mergeAfterSplitRestores : Obligations.merge_after_split_restores := by
  intro s b c d a e hb hc hd hbc hbd hcd heok hesize heb hec hed
  obtain ⟨t, hsplit, honly, -, hplanes⟩ := splitSeparatesThePlanes s b c d a hb hc hd hbc hbd hcd
  obtain ⟨-, hbok, hbsize, -, hread⟩ := hb
  obtain ⟨-, hcok, hcsize, -, -⟩ := hc
  obtain ⟨-, hdok, hdsize, -, -⟩ := hd
  obtain ⟨m, rfl⟩ : ∃ m, t = { s.complete none with mem := m } := ⟨_, honly⟩
  have ready : ∀ {n : DescId} (px : Nat → Nat → Byte), DescOk s n .gray → SameSize s a n →
      PointwiseOk s (e, .rgb) (n, .gray) → (∀ x y, x < s.widthOf a → y < s.heightOf a →
        Store.read m (s.paddr n .gray x y 0) = some (px x y)) →
      PointwiseReady { s.complete none with mem := m } (e, .rgb) (n, .gray) := fun px hok hsize hover hpx =>
    ⟨hok, heok, ⟨hesize.1.trans hsize.1.symm, hesize.2.trans hsize.2.symm⟩, hover,
      readable_of_pixels px fun x y hx hy => hpx x y (hsize.1 ▸ hx) (hsize.2 ▸ hy)⟩
  have hbr := ready _ hbok hbsize heb fun x y hx hy => (hplanes x y hx hy).1
  have hcr := ready _ hcok hcsize hec fun x y hx hy => (hplanes x y hx hy).2.1
  have hdr := ready _ hdok hdsize hed fun x y hx hy => (hplanes x y hx hy).2.2
  obtain ⟨u, hmerge, -, -, hpixels⟩ := mergeInterleavesThePlanes _ e b c d hbr hcr hdr
  refine ⟨_, u, hsplit, hmerge, fun k hk => ?_⟩
  obtain ⟨x, y, o, hx, hy, ho, haddr⟩ := extent_offset_eq_paddr hk
  obtain ⟨h0, h1, h2⟩ := hplanes x y hx hy
  obtain ⟨m0, m1, m2⟩ := hpixels x y (hbsize.1 ▸ hx) (hbsize.2 ▸ hy)
  rw [haddr e hesize, haddr a ⟨rfl, rfl⟩, read_eq_byteAt (readable_pixel hread hx hy ho)]
  obtain rfl | rfl | rfl : o = 0 ∨ o = 1 ∨ o = 2 := by
    have ho : o < 3 := ho
    omega
  · exact m0.trans (congrArg some (ofNat_pixelAt_of_read h0))
  · exact m1.trans (congrArg some (ofNat_pixelAt_of_read h1))
  · exact m2.trans (congrArg some (ofNat_pixelAt_of_read h2))

end Sys2Proof.Proofs
end

section
/-! PROOFS. The HSV functions over the rationals (41_color R143, R144). The integer forms of the model are the rational
expressions of the rules over a common denominator: `delta` for the hue, 600000 for a channel of the inverse. -/

namespace Sys2Proof.Proofs

open Sys2Proof Sys2Proof.Machine Sys2Proof.Safety Sys2Proof.Laws

/-! ## Rounding -/

/-- Rounding leaves no interval with integer ends (R11). -/
theorem rha_mem_interval {n d k : Int} (hd : 0 < d) (h0 : 0 ≤ n) (hk : n ≤ k * d) : 0 ≤ rha n d ∧ rha n d ≤ k := by
  obtain ⟨hlo, hhi⟩ := floorDiv_bounds (2 * n + d) (d := 2 * d) (by omega)
  rw [rha, if_pos h0]
  generalize floorDiv (2 * n + d) (2 * d) = r at *
  constructor
  · by_contra hneg
    nlinarith
  · by_contra hbig
    nlinarith

/-- A non-negative fraction rounds to a natural number (R11). -/
theorem rha_toNat_rounds {n d k : Int} (hd : 0 < d) (h0 : 0 ≤ n) (hk : n ≤ k * d) :
    RoundsHalfAway ((n : ℚ) / d) (rha n d).toNat ∧ ((rha n d).toNat : Int) ≤ k := by
  obtain ⟨hlo, hhi⟩ := rha_mem_interval hd h0 hk
  rw [Int.toNat_of_nonneg hlo]
  exact ⟨rha_rounds n hd, hhi⟩

/-! ## The forward function (R143) -/

/-- The hue of R143 times `delta`, before a negative one is turned by 360 degrees. -/
def hueSector (r g b delta : Nat) : Int :=
  if max r (max g b) = r then 60 * ((g : Int) - b)
  else if max r (max g b) = g then 60 * ((b : Int) - r) + 120 * delta
  else 60 * ((r : Int) - g) + 240 * delta

/-- The hue of R143 times `delta`. -/
def hueNumerator (r g b delta : Nat) : Int :=
  if hueSector r g b delta < 0 then hueSector r g b delta + 360 * delta else hueSector r g b delta

theorem hueOf_eq (r g b delta : Nat) : hueOf r g b delta =
    if (rha (hueNumerator r g b delta) delta).toNat = 360 then 0 else (rha (hueNumerator r g b delta) delta).toNat := rfl

theorem hueNumerator_mem_interval {r g b delta : Nat} (hdelta : delta = max r (max g b) - min r (min g b)) :
    0 ≤ hueNumerator r g b delta ∧ hueNumerator r g b delta ≤ 360 * delta := by
  have hsector : -60 * (delta : Int) ≤ hueSector r g b delta ∧ hueSector r g b delta ≤ 300 * delta := by
    unfold hueSector
    split_ifs <;> omega
  unfold hueNumerator
  split_ifs <;> omega

/-- The hue in degrees is the numerator over `delta`. -/
theorem hueDegrees_eq {r g b delta : Nat} (hpos : 0 < delta) (hdelta : delta = max r (max g b) - min r (min g b)) :
    hueDegrees r g b = (hueNumerator r g b delta : ℚ) / delta := by
  have hd : ((max r (max g b) : Nat) : ℚ) - (min r (min g b) : Nat) = delta := by
    rw [hdelta, Nat.cast_sub (by omega)]
  have hpos' : (0 : ℚ) < delta := Nat.cast_pos.mpr hpos
  have hsector : (if max r (max g b) = r then 60 * ((g : ℚ) - b) / delta
      else if max r (max g b) = g then 60 * ((b : ℚ) - r) / delta + 120
      else 60 * ((r : ℚ) - g) / delta + 240) = (hueSector r g b delta : ℚ) / delta := by
    unfold hueSector
    split_ifs <;> push_cast <;> field_simp
  have hsign : (hueSector r g b delta : ℚ) / delta < 0 ↔ hueSector r g b delta < 0 := by
    rw [div_lt_iff₀ hpos', zero_mul, Int.cast_lt_zero]
  simp only [hueDegrees, ← Nat.cast_max, Nat.cast_inj, hd, hsector, hsign, hueNumerator]
  split_ifs
  · push_cast
    field_simp
  · rfl

/-- V of R143. -/
theorem hsvForward_value {r g b : Nat} (hr : r < 256) (hg : g < 256) (hb : b < 256) :
    RoundsHalfAway (100 * ((max r (max g b) : Nat) : ℚ) / 255) (hsvForward r g b).2.2 ∧ (hsvForward r g b).2.2 ≤ 100 := by
  obtain ⟨hround, hle⟩ := rha_toNat_rounds (n := 100 * ((max r (max g b) : Nat) : Int)) (d := 255) (k := 100) (by omega)
    (by omega) (by omega)
  rw [Int.cast_mul, Int.cast_natCast] at hround
  exact ⟨hround, Int.ofNat_le.mp hle⟩

/-- S of R143 when the maximum is not 0. -/
theorem hsvForward_saturation {r g b : Nat} (hpos : 0 < max r (max g b)) :
    RoundsHalfAway (100 * (((max r (max g b) : Nat) : ℚ) - (min r (min g b) : Nat)) / (max r (max g b) : Nat))
      (hsvForward r g b).2.1 ∧ (hsvForward r g b).2.1 ≤ 100 := by
  have hsat : (hsvForward r g b).2.1 =
      (rha (100 * ((max r (max g b) - min r (min g b) : Nat) : Int)) (max r (max g b) : Nat)).toNat := if_neg (by omega)
  obtain ⟨hround, hle⟩ := rha_toNat_rounds (n := 100 * ((max r (max g b) - min r (min g b) : Nat) : Int))
    (d := (max r (max g b) : Nat)) (k := 100) (by omega) (by omega) (by omega)
  rw [hsat]
  refine ⟨?_, Int.ofNat_le.mp hle⟩
  rw [Int.cast_mul, Int.cast_natCast, Int.cast_natCast, Nat.cast_sub (by omega)] at hround
  exact hround

/-- H of R143 when the maximum is above the minimum. -/
theorem hsvForward_hue {r g b : Nat} (hlt : min r (min g b) < max r (max g b)) :
    ∃ n : Nat, RoundsHalfAway (hueDegrees r g b) n ∧ n ≤ 360 ∧ (hsvForward r g b).1 = if n = 360 then 0 else n := by
  obtain ⟨delta, hdelta⟩ : ∃ delta, delta = max r (max g b) - min r (min g b) := ⟨_, rfl⟩
  have hpos : 0 < delta := by omega
  have hhue : (hsvForward r g b).1 = hueOf r g b delta := by
    rw [hdelta]
    exact if_neg (by omega)
  obtain ⟨hlo, hhi⟩ := hueNumerator_mem_interval hdelta
  obtain ⟨hround, hle⟩ := rha_toNat_rounds (Int.ofNat_lt.mpr hpos) hlo hhi
  refine ⟨_, ?_, Int.ofNat_le.mp hle, hhue.trans (hueOf_eq r g b delta)⟩
  rw [hueDegrees_eq hpos hdelta]
  exact hround

/-- Settles O40. -/
theorem hsvForwardFunction : Obligations.hsv_forward_function := by
  intro r g b hr hg hb top low hsv
  have hgrey : top = low → hsv.1 = 0 := fun h => if_pos (by omega)
  have hblack : top = 0 → hsv.2.1 = 0 := fun h => if_pos h
  obtain ⟨hvalue, hvle⟩ := hsvForward_value hr hg hb
  refine ⟨hvalue, hblack, fun hpos => (hsvForward_saturation hpos).1, hgrey, fun hlt => ?_, ?_, ?_, hvle⟩
  · obtain ⟨n, hround, -, hhue⟩ := hsvForward_hue hlt
    exact ⟨n, hround, hhue⟩
  · rcases Nat.lt_or_ge low top with hlt | hge
    · obtain ⟨n, -, hle, hhue⟩ := hsvForward_hue hlt
      have hhue : hsv.1 = if n = 360 then 0 else n := hhue
      split_ifs at hhue <;> omega
    · have := hgrey (by omega)
      omega
  · rcases Nat.eq_zero_or_pos top with h0 | hpos
    · have := hblack h0
      omega
    · exact (hsvForward_saturation hpos).2

/-! ## The inverse function (R144) -/

/-- A channel of the inverse function, for a value within 0 and 1 in units of 1/600000: the clamp leaves it alone (R144). -/
theorem hsvChannel_rounds {c m : Int} (h0 : 0 ≤ c + m) (h1 : c + m ≤ 600000) {q : ℚ} (hq : q = ((c + m : Int) : ℚ) / 600000) :
    ∃ n : Int, RoundsHalfAway (255 * q) n ∧ 0 ≤ n ∧ n ≤ 255 ∧ (hsvChannel c m : Int) = n := by
  obtain ⟨hlo, hhi⟩ := floorDiv_bounds (510 * (c + m) + 600000) (d := 1200000) (by norm_num)
  have hround := rounds_of_bounds (n := 255 * (c + m)) (d := 600000)
    (r := floorDiv (510 * (c + m) + 600000) 1200000) (by norm_num) (.inl ⟨by omega, by omega, by omega⟩)
  refine ⟨floorDiv (510 * (c + m) + 600000) 1200000, ?_, by omega, by omega, ?_⟩
  · rw [hq, ← mul_div_assoc]
    push_cast at hround ⊢
    exact hround
  · rw [hsvChannel, clamp, if_neg (by omega), if_neg (by omega), Int.toNat_of_nonneg (by omega)]

/-- The sector picks among the same three values in the model and in R144, so a relation that holds of these holds of the
channels. -/
theorem hsvInverse_sector {P : ℚ → Nat → Prop} {h sat v : Nat} {c x : ℚ}
    (hc : P c (hsvChannel (60 * v * sat) (6000 * v - 60 * v * sat)))
    (hx : P x (hsvChannel (v * sat * (60 - |((h % 120 : Nat) : Int) - 60|)) (6000 * v - 60 * v * sat)))
    (h0 : P 0 (hsvChannel 0 (6000 * v - 60 * v * sat))) :
    P (sectorTriple (h / 60 % 6) c x).1 (hsvInverse h sat v).1 ∧
    P (sectorTriple (h / 60 % 6) c x).2.1 (hsvInverse h sat v).2.1 ∧
    P (sectorTriple (h / 60 % 6) c x).2.2 (hsvInverse h sat v).2.2 := by
  unfold hsvInverse
  generalize h / 60 % 6 = sector
  match sector with
  | 0 => exact ⟨hc, hx, h0⟩
  | 1 => exact ⟨hx, hc, h0⟩
  | 2 => exact ⟨h0, hc, hx⟩
  | 3 => exact ⟨h0, hx, hc⟩
  | 4 => exact ⟨hx, h0, hc⟩
  | _ + 5 => exact ⟨hc, h0, hx⟩

/-- Settles O41: `c`, `x` and `m` of R144 in units of 1/600000. -/
theorem hsvInverseFunction : Obligations.hsv_inverse_function := by
  intro h sat v hh hsat hv c x m rgb out
  have hvs : (v : Int) * sat ≤ v * 100 := Int.mul_le_mul_of_nonneg_left (by omega) (by omega)
  have hvs0 : (0 : Int) ≤ v * sat := by positivity
  have hturn : 0 ≤ 60 - |((h % 120 : Nat) : Int) - 60| ∧ 60 - |((h % 120 : Nat) : Int) - 60| ≤ 60 :=
    ⟨sub_nonneg.mpr (abs_le.mpr ⟨by omega, by omega⟩), sub_le_self _ (abs_nonneg _)⟩
  have hxlo : 0 ≤ (v : Int) * sat * (60 - |((h % 120 : Nat) : Int) - 60|) := Int.mul_nonneg hvs0 hturn.1
  have hxhi : (v : Int) * sat * (60 - |((h % 120 : Nat) : Int) - 60|) ≤ v * sat * 60 :=
    Int.mul_le_mul_of_nonneg_left hturn.2 hvs0
  have hassoc : (60 : Int) * v * sat = 60 * (v * sat) := Int.mul_assoc 60 v sat
  refine hsvInverse_sector (P := fun q k => ∃ n : Int, RoundsHalfAway (255 * (q + m)) n ∧ 0 ≤ n ∧ n ≤ 255 ∧ (k : Int) = n)
    (hsvChannel_rounds (by omega) (by omega) ?_) (hsvChannel_rounds (by omega) (by omega) ?_)
    (hsvChannel_rounds (by omega) (by omega) ?_)
  · simp only [c, m]
    push_cast
    ring
  · have habs : |((h % 120 : Nat) : ℚ) / 60 - 1| = |((h % 120 : Nat) : ℚ) - 60| / 60 := by
      rw [div_sub_one (by norm_num), abs_div, abs_of_pos (by norm_num : (0 : ℚ) < 60)]
    simp only [c, x, m, habs]
    generalize h % 120 = turn
    push_cast
    ring
  · simp only [c, m]
    push_cast
    ring

end Sys2Proof.Proofs
end

section
/-! PROOFS. RGB2HSV and HSV2RGB in both layouts of an HSV pixel (41_color R145, R146, R148). The domain check of RGB2HSV goes
through the pixels in raster order and stops at the first hue that a byte does not hold (`domainCheck_ok`,
`domainCheck_first`). -/

namespace Sys2Proof.Proofs

open Sys2Proof Sys2Proof.Machine Sys2Proof.Safety Sys2Proof.Laws

theorem bpp_hsv_packed {s : State} (h : s.packed = true) : s.bpp .hsv = 3 := if_pos h

theorem bpp_hsv_wide {s : State} (h : s.packed = false) : s.bpp .hsv = 4 := if_neg (by rw [h]; exact Bool.false_ne_true)

/-! ## RGB2HSV -/

/-- The hue, S and V that RGB2HSV makes of pixel `(x, y)` of `a`. -/
def forwardAt (s : State) (a : DescId) (x y : Nat) : Nat × Nat × Nat :=
  hsvForward (pixelAt s a .rgb x y 0) (pixelAt s a .rgb x y 1) (pixelAt s a .rgb x y 2)

/-- The hue of the pixel with raster index `i`. -/
def hueAt (s : State) (a : DescId) (i : Nat) : Nat := (forwardAt s a (i % s.widthOf a) (i / s.widthOf a)).1

/-- The bytes that RGB2HSV stores for pixel `(x, y)` of `a`. -/
def forwardPixel (s : State) (a : DescId) (x y : Nat) : List Byte :=
  s.hsvBytes (forwardAt s a x y).1 (forwardAt s a x y).2.1 (forwardAt s a x y).2.2

/-- PACKED has a byte for each channel, WIDE two for the hue, low byte first (R145). -/
theorem hsvBytes_packed {s : State} (h : s.packed = true) (hue sat v : Nat) :
    s.hsvBytes hue sat v = [byteOf hue, byteOf sat, byteOf v] := if_pos h

theorem hsvBytes_wide {s : State} (h : s.packed = false) (hue sat v : Nat) :
    s.hsvBytes hue sat v = [byteOf (hue % 256), byteOf (hue / 256), byteOf sat, byteOf v] := by
  have hhigh : BitVec.ofNat 8 (hue / 256 % 256) = byteOf (hue / 256) :=
    BitVec.eq_of_toNat_eq (by rw [byteOf, BitVec.toNat_ofNat, BitVec.toNat_ofNat, Nat.mod_mod])
  rw [State.hsvBytes, if_neg (by rw [h]; exact Bool.false_ne_true), leBytes, leBytes, leBytes, hhigh]
  rfl

theorem hsvBytes_length (s : State) (hue sat v : Nat) : (s.hsvBytes hue sat v).length = s.bpp .hsv := by
  cases h : s.packed with
  | true => rw [hsvBytes_packed h, bpp_hsv_packed h]; rfl
  | false => rw [hsvBytes_wide h, bpp_hsv_wide h]; rfl

/-- The domain check at one pixel (R146). -/
theorem domainCheck_cons {s : State} {a : DescId} (hr : Readable s a .rgb) {i : Nat}
    (hi : i < s.widthOf a * s.heightOf a) (rest : List Nat) :
    s.domainCheck a (i :: rest) = if 255 < hueAt s a i then raise .domainRange i else s.domainCheck a rest := by
  have hw : 0 < s.widthOf a := Nat.pos_of_mul_pos_right (Nat.zero_lt_of_lt hi)
  rw [State.domainCheck, get3_ok hr (Nat.mod_lt i hw) (Nat.div_lt_of_lt_mul hi) (Nat.le_refl 3)]
  rfl

/-- The domain check passes over pixels whose hue a byte holds. -/
theorem domainCheck_append {s : State} {a : DescId} (hr : Readable s a .rgb) {l : List Nat}
    (hl : ∀ i ∈ l, i < s.widthOf a * s.heightOf a ∧ hueAt s a i ≤ 255) (rest : List Nat) :
    s.domainCheck a (l ++ rest) = s.domainCheck a rest := by
  induction l with
  | nil => rfl
  | cons i l ih =>
    obtain ⟨⟨hi, hhue⟩, hl⟩ := List.forall_mem_cons.mp hl
    rw [List.cons_append, domainCheck_cons hr hi, if_neg (by omega), ih hl]

theorem domainCheck_ok {s : State} {a : DescId} (hr : Readable s a .rgb)
    (h : ∀ i, i < s.widthOf a * s.heightOf a → hueAt s a i ≤ 255) :
    s.domainCheck a (List.range (s.widthOf a * s.heightOf a)) = .ok () := by
  have hpass := domainCheck_append hr (fun i hi => ⟨List.mem_range.mp hi, h i (List.mem_range.mp hi)⟩) []
  rwa [List.append_nil] at hpass

/-- The first pixel in raster order with a hue above 255 is reported (R146). -/
theorem domainCheck_first {s : State} {a : DescId} (hr : Readable s a .rgb) {i : Nat}
    (hi : i < s.widthOf a * s.heightOf a) (hbefore : ∀ j, j < i → hueAt s a j ≤ 255) (hhue : 255 < hueAt s a i) :
    s.domainCheck a (List.range (s.widthOf a * s.heightOf a)) = raise .domainRange i := by
  obtain ⟨m, hm⟩ := Nat.exists_eq_add_of_lt hi
  rw [hm, Nat.add_assoc, List.range_add, List.range_succ_eq_map, List.map_cons, Nat.add_zero,
    domainCheck_append hr fun j hj => ⟨(List.mem_range.mp hj).trans hi, hbefore j (List.mem_range.mp hj)⟩,
    domainCheck_cons hr hi, if_pos hhue]

/-- RGB2HSV when no pixel fails the domain check. -/
theorem rgb2hsv_completes {s : State} {d a : DescId} (h : PointwiseReady s (d, .hsv) (a, .rgb))
    (hdomain : s.packed = true → ∀ i, i < s.widthOf a * s.heightOf a → hueAt s a i ≤ 255) :
    ∃ t, exec (.rgb2hsv d a) s = .next t ∧ OnlyMemory s t ∧ MemOutside s t d .hsv ∧
      ∀ x y o, x < s.widthOf a → y < s.heightOf a → o < s.bpp .hsv →
        Store.read t.mem (s.paddr d .hsv x y o) = (forwardPixel s a x y)[o]? := by
  have ⟨_, _, hsize, _, hread⟩ := h
  have hexec : exec (.rgb2hsv d a) s = s.finish (do
      let bytes ← raster (s.widthOf a) (s.heightOf a) fun x y => do
        let (r, g, b) ← s.get3 a .rgb x y
        let (h, sat, v) := hsvForward r g b
        return s.hsvBytes h sat v
      return s.putExtent d bytes) := by
    refine congrArg s.finish ((pointwise_checks_pass h _).trans ?_)
    cases hp : s.packed with
    | true => exact run_bind_of_ok _ (domainCheck_ok hread (hdomain hp))
    | false => rfl
  exact raster_over_source_completes (forwardPixel s a) hsize hexec
    (fun x y hx hy => by rw [get3_ok hread hx hy (Nat.le_refl 3)]; rfl) fun _ _ => hsvBytes_length _ _ _ _

/-- RGB2HSV when the domain check fails at pixel `i` first. -/
theorem rgb2hsv_fails {s : State} {d a : DescId} (h : PointwiseReady s (d, .hsv) (a, .rgb)) (hp : s.packed = true) {i : Nat}
    (hi : i < s.widthOf a * s.heightOf a) (hbefore : ∀ j, j < i → hueAt s a j ≤ 255) (hhue : 255 < hueAt s a i) :
    Fails (.rgb2hsv d a) s .domainRange i := by
  have ⟨_, _, _, _, hread⟩ := h
  refine finish_of_error ((pointwise_checks_pass h _).trans ((if_pos hp).trans ?_))
  exact run_bind_of_error _ (domainCheck_first hread hi hbefore hhue)

/-- Settles O39. -/
theorem rgb2hsvConverts : Obligations.rgb2hsv_converts := by
  intro s d a h hsv hueOfIndex
  refine ⟨fun hdomain => ?_, fun i hp hi hbefore hhue => rgb2hsv_fails h hp hi hbefore hhue⟩
  obtain ⟨t, hexec, honly, hout, hin⟩ := rgb2hsv_completes h hdomain
  refine ⟨t, hexec, honly, hout, fun x y hx hy => ⟨fun hp => ?_, fun hp => ?_⟩⟩
  · have hbpp := bpp_hsv_wide hp
    rw [hin x y 0 hx hy (by omega), hin x y 1 hx hy (by omega), hin x y 2 hx hy (by omega), hin x y 3 hx hy (by omega),
      forwardPixel, hsvBytes_wide hp]
    exact ⟨rfl, rfl, rfl, rfl⟩
  · have hbpp := bpp_hsv_packed hp
    rw [hin x y 0 hx hy (by omega), hin x y 1 hx hy (by omega), hin x y 2 hx hy (by omega), forwardPixel,
      hsvBytes_packed hp]
    exact ⟨rfl, rfl, rfl⟩

/-! ## HSV2RGB -/

/-- GET16 of two bytes of a pixel of a readable buffer (R78). -/
theorem get16_ok {s : State} {n : DescId} {f : Format} (hr : Readable s n f) {x y o : Nat} (hx : x < s.widthOf n)
    (hy : y < s.heightOf n) (ho : o + 1 < s.bpp f) :
    s.get16 n f x y o = .ok (pixelAt s n f x y o + 256 * pixelAt s n f x y (o + 1)) := by
  have hbytes : ∀ k, k < 2 → Store.read s.mem (s.paddr n f x y o + k) = some (byteOf (pixelAt s n f x y (o + k))) :=
    fun k hk => by
      rw [show s.paddr n f x y o + k = s.paddr n f x y (o + k) from Nat.add_assoc _ _ _]
      exact read_eq_byteAt (readable_pixel hr hx hy (by omega))
  have hnum : ∀ k, (byteOf (pixelAt s n f x y (o + k))).toNat = pixelAt s n f x y (o + k) := fun k =>
    Nat.mod_eq_of_lt (pixelAt_lt s n f x y (o + k))
  have hsum : ∑ k ∈ Finset.range 2, (byteOf (pixelAt s n f x y (o + k))).toNat * 256 ^ k =
      pixelAt s n f x y o + 256 * pixelAt s n f x y (o + 1) := by
    rw [Finset.sum_range_succ, Finset.sum_range_one, hnum, hnum, Nat.add_zero]
    omega
  rw [State.get16, readLE_eq_sum hbytes, hsum]
  rfl

/-- The hue that HSV2RGB reads of pixel `(x, y)` of `a`, before the clamp (R145). -/
def storedHue (s : State) (a : DescId) (x y : Nat) : Nat :=
  if s.packed then pixelAt s a .hsv x y 0 else pixelAt s a .hsv x y 0 + 256 * pixelAt s a .hsv x y 1

/-- The offset of S in an HSV pixel (R145). -/
def satOffset (s : State) : Nat := if s.packed then 1 else 2

theorem getHsv_ok {s : State} {a : DescId} (hr : Readable s a .hsv) {x y : Nat} (hx : x < s.widthOf a)
    (hy : y < s.heightOf a) :
    s.getHsv a x y = .ok (storedHue s a x y, pixelAt s a .hsv x y (satOffset s), pixelAt s a .hsv x y (satOffset s + 1)) := by
  cases hp : s.packed with
  | true =>
    rw [State.getHsv, storedHue, satOffset, hp, get3_ok hr hx hy (by rw [bpp_hsv_packed hp])]
    rfl
  | false =>
    have hbpp := bpp_hsv_wide hp
    rw [State.getHsv, storedHue, satOffset, hp, get16_ok hr hx hy (by omega), get8_ok hr hx hy (by omega),
      get8_ok hr hx hy (by omega)]
    rfl

/-- The channels that HSV2RGB makes of pixel `(x, y)` of `a` (R148). -/
def inverseAt (s : State) (a : DescId) (x y : Nat) : Nat × Nat × Nat :=
  hsvInverse (min (storedHue s a x y) 360) (min (pixelAt s a .hsv x y (satOffset s)) 100)
    (min (pixelAt s a .hsv x y (satOffset s + 1)) 100)

/-- The bytes that HSV2RGB stores for pixel `(x, y)` of `a`. -/
def inversePixel (s : State) (a : DescId) (x y : Nat) : List Byte :=
  [byteOf (inverseAt s a x y).1, byteOf (inverseAt s a x y).2.1, byteOf (inverseAt s a x y).2.2]

/-- Settles O42. -/
theorem hsv2rgbConverts : Obligations.hsv2rgb_converts := by
  intro s d a h hue o rgb
  have ⟨_, _, hsize, _, hread⟩ := h
  obtain ⟨t, hexec, honly, hout, hin⟩ := raster_over_source_completes (i := .hsv2rgb d a) (f := .rgb) (inversePixel s a)
    hsize (congrArg s.finish (pointwise_checks_pass h _))
    (fun x y hx hy => by rw [getHsv_ok hread hx hy]; rfl) fun _ _ => rfl
  have hbpp : s.bpp .rgb = 3 := rfl
  exact ⟨t, hexec, honly, hout, fun x y hx hy =>
    ⟨hin x y 0 hx hy (by omega), hin x y 1 hx hy (by omega), hin x y 2 hx hy (by omega)⟩⟩

end Sys2Proof.Proofs
end

section
/-! PROOFS. What a command that completes without error has done: its checks have passed, the computation behind them has a
value (`rest_ok_of_noError`), and so every byte, weight, count and table entry it used had been written (42_convolution R171,
R182, R184, R185, 70_reset R265). -/

namespace Sys2Proof.Proofs

open Sys2Proof Sys2Proof.Machine Sys2Proof.Safety Sys2Proof.Laws

/-! ## Completion without error -/

theorem errcode_complete_none (s : State) : (s.complete none).errcode = 0 := statusDone_errcode s.status

/-- ERRCODE 0 after a completion step means that its computation had a value (R221, R222). -/
theorem finish_ok_of_noError {s t : State} {r : Run State} (h : s.finish r = .next t) (he : t.errcode = 0) :
    ∃ s', r = .ok s' ∧ t = s'.complete none := by
  rcases finish_next_iff.mp h with hok | ⟨e, info, -, rfl⟩
  · exact hok
  · have hcode : (s.complete (some (e, info))).errcode = e.code := statusFailed_errcode s.status e
    have := code_range e
    omega

/-- A computation behind checks has a value exactly if all of them pass and it has one itself. -/
theorem guarded_ok_iff {α : Type} {checks : List (Run Unit)} {rest : Run α} {b : α} :
    guarded checks rest = .ok b ↔ (∀ c ∈ checks, c = .ok ()) ∧ rest = .ok b := by
  induction checks with
  | nil => exact ⟨fun h => ⟨List.forall_mem_nil _, h⟩, fun h => h.2⟩
  | cons c cs ih =>
    rw [List.forall_mem_cons, and_assoc, ← ih]
    exact run_bind_ok_iff.trans ⟨fun ⟨_, hc, hcs⟩ => ⟨hc, hcs⟩, fun ⟨hc, hcs⟩ => ⟨(), hc, hcs⟩⟩

/-- A command without error has passed its checks, and the computation behind them has a value. -/
theorem rest_ok_of_noError {i : Instr} {s t : State} {rest : Run State}
    (hexec : exec i s = s.finish (guarded (checkRuns s i) rest)) (h : exec i s = .next t) (he : t.errcode = 0) :
    (∀ c ∈ checkRuns s i, c = .ok ()) ∧ ∃ s', rest = .ok s' ∧ t = s'.complete none := by
  obtain ⟨s', hr, ht⟩ := finish_ok_of_noError (hexec ▸ h) he
  obtain ⟨hchecks, hrest⟩ := guarded_ok_iff.mp hr
  exact ⟨hchecks, s', hrest, ht⟩

/-! ## Reads that have a value -/

theorem isSome_of_written {α : Type} {f : Fault} {o : Option α} {v : α} (h : written f o = .ok v) : o.isSome = true := by
  cases o with
  | none => cases h
  | some _ => rfl

theorem isSome_of_readByte {s : State} {addr : Nat} {b : Byte} (h : s.readByte addr = .ok b) :
    (Store.read s.mem addr).isSome = true := isSome_of_written h

theorem isSome_of_get8 {s : State} {n : DescId} {f : Format} {x y o v : Nat} (h : s.get8 n f x y o = .ok v) :
    (Store.read s.mem (s.paddr n f x y o)).isSome = true := by
  obtain ⟨_, hb, -⟩ := run_bind_ok_iff.mp h
  exact isSome_of_readByte hb

theorem isSome_of_get3 {s : State} {n : DescId} {f : Format} {x y : Nat} {v : Nat × Nat × Nat} (h : s.get3 n f x y = .ok v)
    {o : Nat} (ho : o < 3) : (Store.read s.mem (s.paddr n f x y o)).isSome = true := by
  simp only [State.get3, run_bind_ok_iff] at h
  obtain ⟨_, h0, _, h1, _, h2, -⟩ := h
  interval_cases o
  · exact isSome_of_get8 h0
  · exact isSome_of_get8 h1
  · exact isSome_of_get8 h2

theorem isSome_of_readLE {m : Memory} {addr n : Nat} (h : (Memory.readLE m addr n).isSome = true) {k : Nat} (hk : k < n) :
    (Store.read m (addr + k)).isSome = true := by
  induction n generalizing addr k with
  | zero => omega
  | succ n ih =>
    rw [Memory.readLE] at h
    split at h
    · rename_i hhead htail
      cases k with
      | zero => exact Option.isSome_of_eq_some hhead
      | succ k =>
        rw [Nat.add_comm k, ← Nat.add_assoc]
        exact ih (Option.isSome_of_eq_some htail) (by omega)
    · cases h

/-- HSV pixels of both layouts are read whole (R145). -/
theorem isSome_of_getHsv {s : State} {a : DescId} {x y : Nat} {v : Nat × Nat × Nat} (h : s.getHsv a x y = .ok v) {o : Nat}
    (ho : o < s.bpp .hsv) : (Store.read s.mem (s.paddr a .hsv x y o)).isSome = true := by
  rw [State.getHsv] at h
  split at h
  · rename_i hp
    exact isSome_of_get3 h (bpp_hsv_packed hp ▸ ho)
  · rename_i hp
    rw [bpp_hsv_wide (eq_false_of_ne_true hp)] at ho
    simp only [run_bind_ok_iff] at h
    obtain ⟨_, h0, _, h2, _, h3, -⟩ := h
    interval_cases o
    · exact isSome_of_readLE (isSome_of_written h0) (k := 0) (by omega)
    · exact isSome_of_readLE (isSome_of_written h0) (k := 1) (by omega)
    · exact isSome_of_get8 h2
    · exact isSome_of_get8 h3

theorem collect_range_ok {α : Type} {n : Nat} {g : Nat → Run α} {vs : List α}
    (h : collect ((List.range n).map g) = .ok vs) {k : Nat} (hk : k < n) : ∃ v, g k = .ok v :=
  collect_ok_mem h (List.mem_map_of_mem (List.mem_range.mpr hk))

/-- If every byte of every pixel of a buffer has been written, its extent has. -/
theorem readable_of_pixel_bytes {s : State} {n : DescId} {f : Format}
    (h : ∀ x y o, x < s.widthOf n → y < s.heightOf n → o < s.bpp f →
      (Store.read s.mem (s.paddr n f x y o)).isSome = true) :
    Readable s n f := by
  intro k hk
  obtain ⟨x, y, o, hx, hy, ho, haddr⟩ := extent_offset_eq_paddr hk
  rw [haddr n ⟨rfl, rfl⟩]
  exact h x y o hx hy ho

/-- A raster over buffer `n` whose pixels read pixel `(x, y)` of `n` whole, and then go on, has read the extent of `n`. -/
theorem readable_of_raster {α : Type} {s : State} {n : DescId} {f : Format} {rd : Nat → Nat → Run α}
    {k : Nat → Nat → α → Run (List Byte)} {bytes : List Byte}
    (hb : raster (s.widthOf n) (s.heightOf n) (fun x y => rd x y >>= k x y) = .ok bytes)
    (hrd : ∀ x y v, rd x y = .ok v → ∀ o, o < s.bpp f → (Store.read s.mem (s.paddr n f x y o)).isSome = true) :
    Readable s n f :=
  readable_of_pixel_bytes fun x y o hx hy ho => by
    obtain ⟨_, hpx⟩ := raster_ok_pixel hb hx hy
    obtain ⟨v, hv, -⟩ := run_bind_ok_iff.mp hpx
    exact hrd x y v hv o ho

theorem readable_of_levels {s : State} {a : DescId} {px : List Nat} (h : s.levels a = .ok px) : Readable s a .gray := by
  intro k hk
  rw [State.len, State.bpp, Nat.mul_one] at hk
  obtain ⟨_, hv⟩ := collect_range_ok h hk
  have hread := isSome_of_get8 hv
  rwa [State.paddr, Nat.div_add_mod', Nat.add_zero, State.bpp, Nat.mul_one] at hread

theorem filled_of_counts {s : State} {l : Nat} {cs : List Nat} (h : s.counts l = .ok cs) : Filled s.hist (l + 1) := by
  intro i hi
  obtain ⟨_, hv⟩ := collect_range_ok h hi
  obtain ⟨_, hw, -⟩ := run_bind_ok_iff.mp hv
  exact isSome_of_written hw

/-! ## Neighbourhoods that have been read -/

/-- A sample at a coordinate inside the source is the byte there, under every border policy (R171). -/
theorem isSome_of_sampleWritten {s : State} {a : DescId} {x y : Nat} (h : SampleWritten s a x y) (hx : x < s.widthOf a)
    (hy : y < s.heightOf a) : (Store.read s.mem (s.paddr a .gray x y 0)).isSome = true := by
  have hcx : (if s.border = .replicate then max 0 (min (x : Int) (s.widthOf a - 1)) else (x : Int)) = x := by
    split <;> omega
  have hcy : (if s.border = .replicate then max 0 (min (y : Int) (s.heightOf a - 1)) else (y : Int)) = y := by
    split <;> omega
  rw [SampleWritten, hcx, hcy] at h
  exact h (by omega) (by omega) (by omega) (by omega)

/-! Row `i` and column `j` of a kernel of side `k` have the entry `i * k + j` (R39). -/

theorem entry_lt {k i j : Nat} (hi : i < k) (hj : j < k) : i * k + j < k * k := by nlinarith

theorem entry_mod {k i j : Nat} (hj : j < k) : (i * k + j) % k = j := Nat.mul_add_mod_of_lt hj

theorem entry_div {k i j : Nat} (hj : j < k) : (i * k + j) / k = i := by
  rw [Nat.mul_comm, Nat.mul_add_div (Nat.zero_lt_of_lt hj), Nat.div_eq_of_lt hj, Nat.add_zero]

/-- A correlation sum has a value only if its weights and its samples have been written (R172, R265). -/
theorem correlate_written {s : State} {a : DescId} {k : Nat} {cx cy v : Int} (h : s.correlate a k cx cy = .ok v) :
    ∀ i j, i < k → j < k → (Store.read s.kram (i * k + j)).isSome = true ∧
      SampleWritten s a (cx + j - (k / 2 : Nat)) (cy + i - (k / 2 : Nat)) := by
  intro i j hi hj
  obtain ⟨_, hterms, -⟩ := run_bind_ok_iff.mp h
  obtain ⟨_, hterm⟩ := collect_range_ok hterms (k := i * k + j) (entry_lt hi hj)
  obtain ⟨_, hw, hterm⟩ := run_bind_ok_iff.mp hterm
  obtain ⟨_, hp, -⟩ := run_bind_ok_iff.mp hterm
  obtain ⟨_, hw, -⟩ := run_bind_ok_iff.mp hw
  rw [entry_mod hj, entry_div hj] at hp
  exact ⟨isSome_of_written hw, sample_written hp⟩

/-- Along one axis every source coordinate `p` is reached by kernel place `j` of some output coordinate `o`: the nearest one
that is at least the cut away from both ends (R171). -/
theorem exists_output_reaching {w wd cut r p : Nat} (hwd : 0 < wd) (hsize : wd + 2 * cut = w) (hcut : cut ≤ r)
    (hp : p < w) : ∃ o j, o < wd ∧ j < 2 * r + 1 ∧ o + cut + j = p + r :=
  ⟨min (p - cut) (wd - 1), p + r - cut - min (p - cut) (wd - 1), by omega, by omega, by omega⟩

theorem cutOf_cases (s : State) (r : Nat) : cutOf s r = r ∨ cutOf s r = 0 := ite_eq_or_eq _ _ _

theorem cutOf_le (s : State) (r : Nat) : cutOf s r ≤ r := by
  have := cutOf_cases s r
  omega

/-- The output of CONV has a value only if the kernel and the whole source have been written: every source pixel lies in the
neighbourhood of some output pixel (R172, R265). -/
theorem convBytes_written {s : State} {d a : DescId} {bytes : List Byte} (h : s.convBytes d a = .ok bytes)
    (hodd : s.kw % 2 = 1) (hd : DescOk s d .gray) (hsize : OutputSize s a d (s.kw / 2)) :
    Readable s a .gray ∧ Filled s.kram (s.kw * s.kw) := by
  obtain ⟨-, hwd, hhd, -⟩ := hd
  obtain ⟨hw, hh⟩ := hsize
  have hside : 2 * (s.kw / 2) + 1 = s.kw := by omega
  have read : ∀ ox oy, ox < s.widthOf d → oy < s.heightOf d → ∀ i j, i < s.kw → j < s.kw →
      (Store.read s.kram (i * s.kw + j)).isSome = true ∧
        SampleWritten s a ((ox + cutOf s (s.kw / 2) : Nat) + j - (s.kw / 2 : Nat))
          ((oy + cutOf s (s.kw / 2) : Nat) + i - (s.kw / 2 : Nat)) := fun ox oy hx hy => by
    obtain ⟨_, hpx⟩ := raster_ok_pixel h hx hy
    obtain ⟨_, hacc, -⟩ := run_bind_ok_iff.mp hpx
    rw [centre_eq, centre_eq] at hacc
    exact correlate_written hacc
  refine ⟨readable_of_pixel_bytes fun x y o hx hy ho => ?_, fun t ht => ?_⟩
  · obtain rfl : o = 0 := Nat.lt_one_iff.mp ho
    obtain ⟨ox, j, hox, hj, hxj⟩ := exists_output_reaching hwd hw (cutOf_le s _) hx
    obtain ⟨oy, i, hoy, hi, hyi⟩ := exists_output_reaching hhd hh (cutOf_le s _) hy
    obtain ⟨-, hs⟩ := read ox oy hox hoy i j (hside ▸ hi) (hside ▸ hj)
    rw [show ((ox + cutOf s (s.kw / 2) : Nat) : Int) + j - (s.kw / 2 : Nat) = x by omega,
      show ((oy + cutOf s (s.kw / 2) : Nat) : Int) + i - (s.kw / 2 : Nat) = y by omega] at hs
    exact isSome_of_sampleWritten hs hx hy
  · obtain ⟨hweight, -⟩ := read 0 0 hwd hhd (t / s.kw) (t % s.kw) (Nat.div_lt_of_lt_mul ht) (Nat.mod_lt _ (by omega))
    rwa [Nat.div_add_mod'] at hweight

/-! ## Commands -/

/-- CONV without error has read its kernel and its whole source. -/
theorem conv_written {s t : State} {d a : DescId} (h : exec (.conv d a) s = .next t) (he : t.errcode = 0) :
    Readable s a .gray ∧ Filled s.kram (s.kw * s.kw) := by
  obtain ⟨hchecks, _, hrest, -⟩ := rest_ok_of_noError rfl h he
  have hc := checksPassed_of_checkRuns hchecks
  obtain ⟨_, hb, -⟩ := run_bind_ok_iff.mp hrest
  obtain ⟨-, hodd, -⟩ := hc.kernel
  obtain ⟨-, hout⟩ := hc.sizes
  exact convBytes_written hb hodd (hc.desc (d, .gray) (by simp [operandsOf])) (hout d a _ rfl)

/-- BLUR without error has read its whole source. -/
theorem blur_written {s t : State} {d a : DescId} {k : Byte} (h : exec (.blur d a k) s = .next t) (he : t.errcode = 0) :
    Readable s a .gray := by
  obtain ⟨hchecks, _, hrest, -⟩ := rest_ok_of_noError rfl h he
  have hc := checksPassed_of_checkRuns hchecks
  obtain ⟨_, hb, -⟩ := run_bind_ok_iff.mp hrest
  obtain ⟨hodd, -, -⟩ := hc.kernel
  obtain ⟨-, hout⟩ := hc.sizes
  have hkw := kw_loadKernel s k (gaussWeights k.toNat s.sigma)
  obtain ⟨hread, -⟩ := convBytes_written hb (hkw.symm ▸ hodd) (hc.desc (d, .gray) (by simp [operandsOf]))
    (hkw.symm ▸ hout d a _ rfl)
  exact hread

/-- LUT without error has read its source and the table entries that the source selects. -/
theorem lut_written {s t : State} {d a : DescId} {f : Format} (h : exec (.lut d a f) s = .next t) (he : t.errcode = 0) :
    Readable s a f ∧ ∀ k, k < s.len a f → (Store.read s.lut (byteAt s (s.baseOf a + k))).isSome = true := by
  have hf : f ≠ .hsv := by
    rintro rfl
    have h : s.finish (raise .illegalCommand DecodeError.reservedImmediate.info) = .next t := h
    obtain ⟨_, hr, -⟩ := finish_ok_of_noError h he
    cases hr
  have hexec : exec (.lut d a f) s = s.finish (guarded (checkRuns s (.lut d a f)) (do
      let bytes ← collect ((List.range (s.len a f)).map fun k => do
        let v ← s.readByte (s.baseOf a + k)
        s.lutAt v.toNat)
      return s.putExtent d bytes)) := congrArg s.finish (if_neg hf)
  obtain ⟨-, _, hrest, -⟩ := rest_ok_of_noError hexec h he
  obtain ⟨_, hb, -⟩ := run_bind_ok_iff.mp hrest
  have entry : ∀ k, k < s.len a f → ∃ v, s.readByte (s.baseOf a + k) = .ok v ∧ ∃ e, s.lutAt v.toNat = .ok e :=
    fun k hk => by
      obtain ⟨e, he⟩ := collect_range_ok hb hk
      obtain ⟨v, hv, he⟩ := run_bind_ok_iff.mp he
      exact ⟨v, hv, e, he⟩
  have hread : Readable s a f := fun k hk => by
    obtain ⟨_, hv, -⟩ := entry k hk
    exact isSome_of_readByte hv
  refine ⟨hread, fun k hk => ?_⟩
  obtain ⟨v, hv, _, hentry⟩ := entry k hk
  obtain ⟨b, -, hb, hnum⟩ := readByte_ok (hread k hk)
  rw [← hnum, ok_inj (hb.symm.trans hv).symm]
  exact isSome_of_written hentry

/-- MERGE without error has read its three sources. -/
theorem merge_written {s t : State} {d a b c : DescId} (h : exec (.merge d a b c) s = .next t) (he : t.errcode = 0) :
    Readable s a .gray ∧ Readable s b .gray ∧ Readable s c .gray := by
  obtain ⟨hchecks, _, hrest, -⟩ := rest_ok_of_noError rfl h he
  obtain ⟨hsame, -⟩ := (checksPassed_of_checkRuns hchecks).sizes
  obtain ⟨hbw, hbh⟩ := hsame a [b, c, d] rfl b (by simp)
  obtain ⟨hcw, hch⟩ := hsame a [b, c, d] rfl c (by simp)
  obtain ⟨_, hbytes, -⟩ := run_bind_ok_iff.mp hrest
  have channel : ∀ x y, x < s.widthOf a → y < s.heightOf a → ∀ n ∈ [a, b, c],
      (Store.read s.mem (s.paddr n .gray x y 0)).isSome = true := fun x y hx hy => by
    obtain ⟨_, hpx⟩ := raster_ok_pixel hbytes hx hy
    simp only [run_bind_ok_iff] at hpx
    obtain ⟨_, h0, _, h1, _, h2, -⟩ := hpx
    exact List.forall_mem_cons.mpr ⟨isSome_of_get8 h0, List.forall_mem_cons.mpr ⟨isSome_of_get8 h1,
      List.forall_mem_singleton.mpr (isSome_of_get8 h2)⟩⟩
  have readable : ∀ n ∈ [a, b, c], SameSize s a n → Readable s n .gray := fun n hn ⟨hw, hh⟩ =>
    readable_of_pixel_bytes fun x y o hx hy ho => by
      obtain rfl : o = 0 := Nat.lt_one_iff.mp ho
      exact channel x y (hw ▸ hx) (hh ▸ hy) n hn
  exact ⟨readable a (by simp) ⟨rfl, rfl⟩, readable b (by simp) ⟨hbw, hbh⟩, readable c (by simp) ⟨hcw, hch⟩⟩

/-- SPLIT without error has read the three channels of every pixel of its source. -/
theorem split_written {s t : State} {b c d a : DescId} (h : exec (.split b c d a) s = .next t) (he : t.errcode = 0) :
    Readable s a .rgb := by
  obtain ⟨-, _, hrest, -⟩ := rest_ok_of_noError rfl h he
  simp only [run_bind_ok_iff] at hrest
  obtain ⟨_, h0, _, h1, _, h2, -⟩ := hrest
  have channel : ∀ {o bytes}, s.plane a o = .ok bytes → ∀ x y, x < s.widthOf a → y < s.heightOf a →
      (Store.read s.mem (s.paddr a .rgb x y o)).isSome = true := fun hb x y hx hy => by
    obtain ⟨_, hpx⟩ := raster_ok_pixel hb hx hy
    obtain ⟨_, hv, -⟩ := run_bind_ok_iff.mp hpx
    exact isSome_of_get8 hv
  refine readable_of_pixel_bytes fun x y o hx hy (ho : o < 3) => ?_
  interval_cases o
  · exact channel h0 x y hx hy
  · exact channel h1 x y hx hy
  · exact channel h2 x y hx hy

/-- The raster of RGB2HSV, which follows its domain check (R146). -/
def writeHsv (s : State) (d a : DescId) : Run State := do
  let bytes ← raster (s.widthOf a) (s.heightOf a) fun x y => do
    let (r, g, b) ← s.get3 a .rgb x y
    let (h, sat, v) := hsvForward r g b
    return s.hsvBytes h sat v
  return s.putExtent d bytes

theorem exec_rgb2hsv_eq (s : State) (d a : DescId) :
    exec (.rgb2hsv d a) s = s.finish (guarded (checkRuns s (.rgb2hsv d a))
      (if s.packed then s.domainCheck a (List.range (s.widthOf a * s.heightOf a)) >>= fun _ => writeHsv s d a
        else writeHsv s d a)) := rfl

/-- RGB2HSV without error has read its source (R146). -/
theorem rgb2hsv_written {s t : State} {d a : DescId} (h : exec (.rgb2hsv d a) s = .next t) (he : t.errcode = 0) :
    Readable s a .rgb := by
  obtain ⟨-, s', hrest, -⟩ := rest_ok_of_noError (exec_rgb2hsv_eq s d a) h he
  have hwrite : writeHsv s d a = .ok s' := by
    split at hrest
    · obtain ⟨_, -, hwrite⟩ := run_bind_ok_iff.mp hrest
      exact hwrite
    · exact hrest
  obtain ⟨_, hb, -⟩ := run_bind_ok_iff.mp hwrite
  exact readable_of_raster hb fun _ _ _ hv _ => isSome_of_get3 hv

/-- The histogram commands with a remap have read their counts and their source. -/
theorem equalize_written {s t : State} {d a : DescId} {l : Byte} (h : exec (.equalize d a l) s = .next t)
    (he : t.errcode = 0) : Readable s a .gray ∧ Filled s.hist (l.toNat + 1) := by
  obtain ⟨-, _, hrest, -⟩ := rest_ok_of_noError rfl h he
  obtain ⟨_, hcounts, hrest⟩ := run_bind_ok_iff.mp hrest
  obtain ⟨_, hlevels, -⟩ := run_bind_ok_iff.mp hrest
  exact ⟨readable_of_levels hlevels, filled_of_counts hcounts⟩

theorem stretch_written {s t : State} {d a : DescId} {l : Byte} (h : exec (.stretch d a l) s = .next t)
    (he : t.errcode = 0) : Readable s a .gray ∧ Filled s.hist (l.toNat + 1) := by
  obtain ⟨-, _, hrest, -⟩ := rest_ok_of_noError rfl h he
  obtain ⟨_, hcounts, hrest⟩ := run_bind_ok_iff.mp hrest
  split at hrest
  · obtain ⟨_, hraise, -⟩ := run_bind_ok_iff.mp hrest
    cases hraise
  · obtain ⟨_, hlevels, -⟩ := run_bind_ok_iff.mp hrest
    exact ⟨readable_of_levels hlevels, filled_of_counts hcounts⟩

theorem cum_written {s t : State} {l : Byte} (h : exec (.cum l) s = .next t) (he : t.errcode = 0) :
    Filled s.hist (l.toNat + 1) := by
  obtain ⟨_, hr, -⟩ := finish_ok_of_noError h he
  obtain ⟨_, hcounts, -⟩ := run_bind_ok_iff.mp hr
  exact filled_of_counts hcounts

/-- Every command but SOBEL and SHARPEN has read its sources whole. -/
theorem sources_written {i : Instr} {s t : State} (h : exec i s = .next t) (he : t.errcode = 0)
    (hi : i.opcode ∉ [Opcode.sobel, .sharpen]) : ∀ p ∈ sourcesOf i, Readable s p.1 p.2 := by
  cases i with
  | nop | alloc | kgauss | ksobelh | ksobelv | klapl | cum => exact List.forall_mem_nil _
  | sobel | sharpen => simp [Instr.opcode] at hi
  | copy d a f =>
    obtain ⟨-, _, hrest, -⟩ := rest_ok_of_noError rfl h he
    obtain ⟨_, hb, -⟩ := run_bind_ok_iff.mp hrest
    exact List.forall_mem_singleton.mpr fun k hk => by
      obtain ⟨_, hv⟩ := collect_range_ok hb hk
      exact isSome_of_readByte hv
  | gray d a | matx d a bank =>
    obtain ⟨-, _, hrest, -⟩ := rest_ok_of_noError rfl h he
    obtain ⟨_, hb, -⟩ := run_bind_ok_iff.mp hrest
    exact List.forall_mem_singleton.mpr (readable_of_raster hb fun _ _ _ hv _ => isSome_of_get3 hv)
  | split b c d a => exact List.forall_mem_singleton.mpr (split_written h he)
  | merge d a b c =>
    obtain ⟨ha, hb, hc⟩ := merge_written h he
    exact List.forall_mem_cons.mpr ⟨ha, List.forall_mem_cons.mpr ⟨hb, List.forall_mem_singleton.mpr hc⟩⟩
  | rgb2hsv d a => exact List.forall_mem_singleton.mpr (rgb2hsv_written h he)
  | hsv2rgb d a =>
    obtain ⟨-, _, hrest, -⟩ := rest_ok_of_noError rfl h he
    obtain ⟨_, hb, -⟩ := run_bind_ok_iff.mp hrest
    exact List.forall_mem_singleton.mpr (readable_of_raster hb fun _ _ _ hv _ => isSome_of_getHsv hv)
  | lut d a f => exact List.forall_mem_singleton.mpr (lut_written h he).1
  | conv d a => exact List.forall_mem_singleton.mpr (conv_written h he).1
  | blur d a k => exact List.forall_mem_singleton.mpr (blur_written h he)
  | hist a l =>
    obtain ⟨-, _, hrest, -⟩ := rest_ok_of_noError rfl h he
    obtain ⟨_, hlevels, -⟩ := run_bind_ok_iff.mp hrest
    exact List.forall_mem_singleton.mpr (readable_of_levels hlevels)
  | equalize d a l => exact List.forall_mem_singleton.mpr (equalize_written h he).1
  | stretch d a l => exact List.forall_mem_singleton.mpr (stretch_written h he).1

theorem sobel_written {s t : State} {d a : DescId} (h : exec (.sobel d a) s = .next t) (he : t.errcode = 0) :
    SamplesWritten s d a sobelOffsets := by
  obtain ⟨-, _, hrest, -⟩ := rest_ok_of_noError rfl h he
  obtain ⟨_, hb, -⟩ := run_bind_ok_iff.mp hrest
  intro ox oy hx hy
  obtain ⟨_, hpx⟩ := raster_ok_pixel hb hx hy
  obtain ⟨_, hm, -⟩ := run_bind_ok_iff.mp hpx
  rw [centre_eq, centre_eq] at hm
  exact sobelAt_written hm

theorem sharpen_written {s t : State} {d a : DescId} (h : exec (.sharpen d a) s = .next t) (he : t.errcode = 0) :
    SamplesWritten s d a sharpenOffsets := by
  obtain ⟨-, _, hrest, -⟩ := rest_ok_of_noError rfl h he
  obtain ⟨_, hb, -⟩ := run_bind_ok_iff.mp hrest
  intro ox oy hx hy
  obtain ⟨_, hpx⟩ := raster_ok_pixel hb hx hy
  obtain ⟨_, hv, -⟩ := run_bind_ok_iff.mp hpx
  rw [centre_eq, centre_eq] at hv
  exact sharpenAt_written hv

/-- Settles O27: each read of a command that has a value has found something written. -/
theorem writtenBeforeRead : Obligations.written_before_read := by
  intro i s t h he
  refine ⟨sources_written h he, ?_, ?_, fun hi => ?_, ?_, ?_⟩
  · rintro d a rfl
    exact sobel_written h he
  · rintro d a rfl
    exact sharpen_written h he
  · cases i with
    | conv d a => exact (conv_written h he).2
    | _ => cases hi
  · rintro l (rfl | ⟨d, a, rfl⟩ | ⟨d, a, rfl⟩)
    · exact cum_written h he
    · exact (equalize_written h he).2
    · exact (stretch_written h he).2
  · rintro d a f rfl
    exact (lut_written h he).2

end Sys2Proof.Proofs
end

section
/-! PROOFS. The kernel and dimension checks of 60_exceptions R224, steps 3 to 5: what the first of them that fails reports
(42_convolution R170, R171, R176, R178). -/

namespace Sys2Proof.Proofs

open Sys2Proof Sys2Proof.Machine Sys2Proof.Safety Sys2Proof.Laws

/-! ## Dimension checks -/

/-- A neighbourhood command has one source and one destination, both GRAY, and no pointwise dimension check (R104). -/
theorem neighbourhood_shape {s : State} {i : Instr} {d a : DescId} {r : Nat} (h : neighbourhood s i = some (d, a, r)) :
    operandsOf i = [(a, .gray), (d, .gray)] ∧ pointwiseSizeRuns s i = [] ∧ dimRuns s i = [s.dimcheck a d r] ∧
      overlapRuns s i = [s.checkOverlap .neighbourhood [(a, .gray)] [(d, .gray)]] := by
  cases i with
  | conv | sobel | sharpen | blur => cases h; exact ⟨rfl, rfl, rfl, rfl⟩
  | _ => cases h

/-- Settles O29: the descriptor and kernel checks and the comparisons before the failing one pass. -/
theorem sizeErrors : Obligations.size_errors := by
  intro i s hwf hdesc hkernel
  refine ⟨fun a before n after hs hbefore hn => ?_, fun d a r hneigh hout => ?_⟩
  · have hsplit : checkRuns s i = (descRuns s i ++ (kernelRuns s i ++ before.map (s.checkSize a))) ++
        s.checkSize a n :: (after.map (s.checkSize a) ++ (dimRuns s i ++ overlapRuns s i)) := by
      simp [checkRuns, pointwiseSizeRuns, hs]
    refine fails_of_first_error hwf hsplit ?_ (checkSize_error hn)
    exact List.forall_mem_append.mpr ⟨descRuns_ok hdesc, List.forall_mem_append.mpr ⟨kernelRuns_ok hkernel,
      List.forall_mem_map.mpr fun m hm => checkSize_ok (hbefore m hm)⟩⟩
  · obtain ⟨-, hsize, hdim, -⟩ := neighbourhood_shape hneigh
    have hsplit : checkRuns s i = (descRuns s i ++ kernelRuns s i) ++ s.dimcheck a d r :: overlapRuns s i := by
      simp [checkRuns, hsize, hdim]
    refine fails_of_first_error hwf hsplit ?_ (dimcheck_error hout)
    exact List.forall_mem_append.mpr ⟨descRuns_ok hdesc, kernelRuns_ok hkernel⟩

/-! ## Kernel checks -/

theorem kcheck_error {s : State} {kw kh : Nat} (h : kw ≠ kh ∨ kw % 2 = 0 ∨ s.cfg.kmax < kw) :
    s.kcheck kw kh = raise .invalidKernel (kw + kh * 2 ^ 8) := if_pos h

theorem scheck_error {s : State} {k : Nat} (h : k % 2 = 0 ∨ s.cfg.kmax < k) : s.scheck k = raise .invalidKernel k := if_pos h

theorem checkSigma_error {s : State} (h : s.sigma = 0) : s.checkSigma = raise .invalidParameter 0 := if_pos h

/-- The checks of KGAUSS, then the loading of its kernel (R178). -/
theorem exec_kgauss_eq (s : State) (k : Byte) :
    exec (.kgauss k) s = s.finish (guarded [s.scheck k.toNat, s.checkSigma]
      (.ok (s.loadKernel k.toNat (gaussWeights k.toNat s.sigma)))) := rfl

/-- Settles O31: KGAUSS checks nothing before its kernel, CONV and BLUR only their two descriptors. -/
theorem kernelErrors : Obligations.kernel_errors := by
  have desc : ∀ {s : State} {a d : DescId}, DescOk s a .gray → DescOk s d .gray →
      ∀ b ∈ [s.checkDesc a .gray, s.checkDesc d .gray], b = .ok () := fun ha hd =>
    List.forall_mem_cons.mpr ⟨checkDesc_ok ha, List.forall_mem_singleton.mpr (checkDesc_ok hd)⟩
  refine ⟨fun s d a ha hd hk => ?_, fun s k hk => ?_, fun s k hodd hle hsigma => ?_,
    fun s d a k ha hd => ⟨fun hk => ?_, fun hodd hle hsigma => ?_⟩⟩
  · exact fails_of_first_error (before := [s.checkDesc a .gray, s.checkDesc d .gray]) rfl rfl (desc ha hd) (kcheck_error hk)
  · rw [Fails, exec_kgauss_eq]
    exact finish_of_error (guarded_of_first_error (before := []) _ (List.forall_mem_nil _) (scheck_error hk))
  · rw [Fails, exec_kgauss_eq]
    exact finish_of_error (guarded_of_first_error (before := [s.scheck k.toNat]) _
      (List.forall_mem_singleton.mpr (scheck_ok hodd hle)) (checkSigma_error hsigma))
  · exact fails_of_first_error (before := [s.checkDesc a .gray, s.checkDesc d .gray]) rfl rfl (desc ha hd) (scheck_error hk)
  · exact fails_of_first_error (before := [s.checkDesc a .gray, s.checkDesc d .gray] ++ [s.scheck k.toNat]) rfl rfl
      (List.forall_mem_append.mpr ⟨desc ha hd, List.forall_mem_singleton.mpr (scheck_ok hodd hle)⟩)
      (checkSigma_error hsigma)

end Sys2Proof.Proofs
end

section
/-! PROOFS. The kernel builders KGAUSS, KSOBELH, KSOBELV and KLAPL (42_convolution R177 to R181). The weights of any legal
`GAUSS_Q` are non-negative: away from the centre by their accuracy, at the centre because it holds at least 1/225 of the
normalised Gaussian, more than what the other weights can be too large by (`gaussQ_centre_nonneg`). -/

namespace Sys2Proof.Proofs

open Sys2Proof Sys2Proof.Machine Sys2Proof.Safety Sys2Proof.Laws Sys2Proof.Config

/-! ## Loaded kernels -/

theorem read_loadKernel_inside (s : State) (k : Nat) {ws : List Int} {n : Nat} (h : n < ws.length) :
    Store.read (s.loadKernel k ws).kram n = some (BitVec.ofInt 32 ws[n]) := by
  have hread := read_writeList_inside (ws.map fun q => BitVec.ofInt 32 q) s.kram 0 n (by rwa [List.length_map])
  rwa [Nat.zero_add, List.getElem_map] at hread

theorem read_loadKernel_outside (s : State) (k : Nat) {ws : List Int} {n : Nat} (h : ws.length ≤ n) :
    Store.read (s.loadKernel k ws).kram n = Store.read s.kram n :=
  read_writeList_outside _ _ (.inr (by rwa [List.length_map, Nat.zero_add]))

/-- A builder of a fixed 3x3 kernel leaves the words of its weights in KRAM[0..8], and KSIZE, and nothing else. -/
theorem fixed_kernel_loads {i : Instr} {s : State} {ws : List Int} {words : List Word}
    (hexec : exec i s = .next ((s.loadKernel 3 ws).complete none)) (hlen : ws.length = 9)
    (hwords : ws.map (BitVec.ofInt 32) = words) :
    ∃ t, exec i s = .next t ∧ t = { s.complete none with kram := t.kram, ksize := 0x00000303 } ∧
      (∀ n, n < 9 → Store.read t.kram n = words[n]?) ∧ ∀ n, 9 ≤ n → Store.read t.kram n = Store.read s.kram n := by
  refine ⟨_, hexec, rfl, fun n hn => ?_, fun n hn => ?_⟩
  · rw [complete_kram, read_loadKernel_inside s 3 (hlen ▸ hn), ← hwords, List.getElem?_map,
      List.getElem?_eq_getElem (hlen ▸ hn)]
    rfl
  · rw [complete_kram, read_loadKernel_outside s 3 (hlen ▸ hn)]

/-- Settles O51. -/
theorem fixedKernels : Obligations.fixed_kernels := fun _ =>
  ⟨fixed_kernel_loads rfl rfl (by decide), fixed_kernel_loads rfl rfl (by decide), fixed_kernel_loads rfl rfl (by decide)⟩

/-! ## KGAUSS -/

theorem length_gaussWeights (k sigma : Nat) : (gaussWeights k sigma).length = k * k := by
  rw [gaussWeights, List.length_map, List.length_range]

/-- The offset from the centre of row `i` and column `j` of a kernel of side `k` (R39). -/
def kernelOffset (k i j : Nat) : Int × Int := ((j : Int) - (k / 2 : Nat), (i : Int) - (k / 2 : Nat))

/-- The weights are listed row by row (R178). -/
theorem gaussWeights_entry {k i j : Nat} (sigma : Nat) (hi : i < k) (hj : j < k) :
    (gaussWeights k sigma)[i * k + j]'(length_gaussWeights k sigma ▸ entry_lt hi hj) =
      gaussQ.weight k sigma (kernelOffset k i j) := by
  simp only [gaussWeights, List.getElem_map, List.getElem_range, kernelOffset]
  rw [entry_mod hj, entry_div hj]

/-- The state that KGAUSS leaves, before the completion update. -/
def withGauss (s : State) (k : Byte) : State := s.loadKernel k.toNat (gaussWeights k.toNat s.sigma)

theorem exec_kgauss {s : State} {k : Byte} (hodd : k.toNat % 2 = 1) (hle : k.toNat ≤ s.cfg.kmax) (hsigma : s.sigma ≠ 0) :
    exec (.kgauss k) s = .next ((withGauss s k).complete none) := by
  have hchecks : ∀ c ∈ [s.scheck k.toNat, s.checkSigma], c = .ok () :=
    List.forall_mem_cons.mpr ⟨scheck_ok hodd hle, List.forall_mem_singleton.mpr (checkSigma_ok hsigma)⟩
  rw [exec_kgauss_eq]
  exact finish_of_ok (guarded_ok_iff.mpr ⟨hchecks, rfl⟩)

theorem read_withGauss {s : State} {k : Byte} {i j : Nat} (hi : i < k.toNat) (hj : j < k.toNat) :
    Store.read (withGauss s k).kram (i * k.toNat + j) =
      some (BitVec.ofInt 32 (gaussQ.weight k.toNat s.sigma (kernelOffset k.toNat i j))) := by
  rw [withGauss, read_loadKernel_inside s _ (length_gaussWeights k.toNat s.sigma ▸ entry_lt hi hj),
    gaussWeights_entry s.sigma hi hj]

/-- Settles O49. -/
theorem kgaussLoadsTheKernel : Obligations.kgauss_loads_the_kernel := by
  intro s k hodd hle hsigma
  refine ⟨_, exec_kgauss hodd hle hsigma, rfl, rfl, fun i j hi hj => ?_, fun n hn => ?_⟩
  · rw [complete_kram, read_withGauss hi hj]
    rfl
  · rw [complete_kram, withGauss, read_loadKernel_outside s _ (length_gaussWeights k.toNat s.sigma ▸ hn)]

/-! ## The normalised Gaussian (R177) -/

theorem gaussReal_pos (sigma : Nat) (o : Int × Int) : 0 < gaussReal sigma o := Real.exp_pos _

theorem gaussSum_pos {k : Nat} (hodd : k % 2 = 1) (sigma : Nat) : 0 < ∑ p ∈ offsets k, gaussReal sigma p :=
  Finset.sum_pos (fun p _ => gaussReal_pos sigma p) ⟨_, zero_mem_offsets hodd⟩

theorem gaussNormal_pos {k : Nat} (hodd : k % 2 = 1) (sigma : Nat) (o : Int × Int) : 0 < gaussNormal k sigma o :=
  div_pos (gaussReal_pos sigma o) (gaussSum_pos hodd sigma)

theorem sum_gaussNormal {k : Nat} (hodd : k % 2 = 1) (sigma : Nat) : ∑ o ∈ offsets k, gaussNormal k sigma o = 1 := by
  simp only [gaussNormal]
  rw [← Finset.sum_div, div_self (gaussSum_pos hodd sigma).ne']

theorem card_offsets_le_of_side {k : Nat} (h15 : k ≤ 15) : (offsets k).card ≤ 225 :=
  (card_offsets_le k).trans (Nat.mul_le_mul h15 h15)

/-- The Gaussian is greatest at the centre, so the centre holds at least its share of the sum. -/
theorem gaussNormal_centre_ge {k : Nat} (hodd : k % 2 = 1) (h15 : k ≤ 15) (sigma : Nat) :
    1 / 225 ≤ gaussNormal k sigma (0, 0) := by
  have hcentre : gaussReal sigma (0, 0) = 1 := by simp [gaussReal]
  have hsum : ∑ p ∈ offsets k, gaussReal sigma p ≤ 225 := by
    refine (Finset.sum_le_card_nsmul _ _ 1 fun p _ => gaussReal_le_one sigma p).trans ?_
    rw [nsmul_one]
    exact_mod_cast card_offsets_le_of_side h15
  rw [gaussNormal, hcentre]
  exact one_div_le_one_div_of_le (gaussSum_pos hodd sigma) hsum

/-! ## The weights of `GAUSS_Q` -/

/-- A side and a SIGMA for which R177 says what the weights are. -/
structure GaussArgs (k sigma : Nat) : Prop where
  odd : k % 2 = 1
  le : k ≤ 15
  pos : 1 ≤ sigma
  lt : sigma < 65536

theorem gaussQ_accurate {k sigma : Nat} (h : GaussArgs k sigma) {o : Int × Int} (ho : o ∈ offsets k) (hne : o ≠ (0, 0)) :
    |(gaussQ.weight k sigma o : ℝ) - 65536 * gaussNormal k sigma o| ≤ 1 :=
  gaussQ.legal.accuracy k sigma o h.odd h.le h.pos h.lt ho hne

theorem sum_gaussQ {k sigma : Nat} (h : GaussArgs k sigma) : ∑ o ∈ offsets k, gaussQ.weight k sigma o = 65536 :=
  gaussQ.legal.exactSum k sigma h.odd h.le h.pos h.lt

/-- Away from the centre an integer within 1 of a positive number. -/
theorem gaussQ_outer_nonneg {k sigma : Nat} (h : GaussArgs k sigma) {o : Int × Int} (ho : o ∈ offsets k)
    (hne : o ≠ (0, 0)) : 0 ≤ gaussQ.weight k sigma o := by
  obtain ⟨hlow, -⟩ := abs_le.mp (gaussQ_accurate h ho hne)
  have hpos := gaussNormal_pos h.odd sigma o
  have hgt : (-1 : ℝ) < gaussQ.weight k sigma o := by linarith
  have : -1 < gaussQ.weight k sigma o := by exact_mod_cast hgt
  omega

/-- The centre is what the other weights leave of 65536: they take at most 1 each more than their share. -/
theorem gaussQ_centre_nonneg {k sigma : Nat} (h : GaussArgs k sigma) : 0 ≤ gaussQ.weight k sigma (0, 0) := by
  have hzero := zero_mem_offsets h.odd
  have houter : ∑ o ∈ (offsets k).erase (0, 0), (gaussQ.weight k sigma o : ℝ) ≤
      65536 * (1 - gaussNormal k sigma (0, 0)) + 224 := by
    have hcard : (((offsets k).erase (0, 0)).card : ℝ) ≤ 224 := by
      have := card_offsets_le_of_side h.le
      rw [Finset.card_erase_of_mem hzero]
      exact_mod_cast (by omega : (offsets k).card - 1 ≤ 224)
    have hshare : ∑ o ∈ (offsets k).erase (0, 0), gaussNormal k sigma o = 1 - gaussNormal k sigma (0, 0) := by
      rw [← sum_gaussNormal h.odd sigma, ← Finset.add_sum_erase _ _ hzero, add_sub_cancel_left]
    calc ∑ o ∈ (offsets k).erase (0, 0), (gaussQ.weight k sigma o : ℝ)
        ≤ ∑ o ∈ (offsets k).erase (0, 0), (65536 * gaussNormal k sigma o + 1) :=
          Finset.sum_le_sum fun o ho => by
            obtain ⟨hne, hmem⟩ := Finset.mem_erase.mp ho
            obtain ⟨-, hhigh⟩ := abs_le.mp (gaussQ_accurate h hmem hne)
            linarith
      _ = 65536 * (1 - gaussNormal k sigma (0, 0)) + ((offsets k).erase (0, 0)).card := by
          rw [Finset.sum_add_distrib, ← Finset.mul_sum, hshare, Finset.sum_const, nsmul_one]
      _ ≤ 65536 * (1 - gaussNormal k sigma (0, 0)) + 224 := by gcongr
  have hsum : (gaussQ.weight k sigma (0, 0) : ℝ) +
      ∑ o ∈ (offsets k).erase (0, 0), (gaussQ.weight k sigma o : ℝ) = 65536 := by
    rw [Finset.add_sum_erase _ (fun o => (gaussQ.weight k sigma o : ℝ)) hzero]
    exact_mod_cast sum_gaussQ h
  have hcentre := gaussNormal_centre_ge h.odd h.le sigma
  have hnonneg : (0 : ℝ) ≤ gaussQ.weight k sigma (0, 0) := by linarith
  exact_mod_cast hnonneg

theorem gaussQ_nonneg {k sigma : Nat} (h : GaussArgs k sigma) {o : Int × Int} (ho : o ∈ offsets k) :
    0 ≤ gaussQ.weight k sigma o := by
  by_cases hne : o = (0, 0)
  · exact hne ▸ gaussQ_centre_nonneg h
  · exact gaussQ_outer_nonneg h ho hne

/-- No weight is above the sum of all. -/
theorem gaussQ_le {k sigma : Nat} (h : GaussArgs k sigma) {o : Int × Int} (ho : o ∈ offsets k) :
    gaussQ.weight k sigma o ≤ 65536 :=
  (Finset.single_le_sum (fun _ hp => gaussQ_nonneg h hp) ho).trans_eq (sum_gaussQ h)

/-! ## The words KGAUSS leaves -/

theorem kernelOffset_mem {k i j : Nat} (hi : i < k) (hj : j < k) : kernelOffset k i j ∈ offsets k :=
  Finset.mem_image.mpr ⟨(i, j), Finset.mem_product.mpr ⟨Finset.mem_range.mpr hi, Finset.mem_range.mpr hj⟩, rfl⟩

/-- A sum over the offsets of a kernel is a sum over its rows and columns (R39). -/
theorem sum_offsets (k : Nat) (f : Int × Int → Int) :
    ∑ o ∈ offsets k, f o = ∑ i ∈ Finset.range k, ∑ j ∈ Finset.range k, f (kernelOffset k i j) := by
  rw [offsets, Finset.sum_image, Finset.sum_product]
  · rfl
  · rintro ⟨i, j⟩ - ⟨i', j'⟩ - heq
    simp only [Prod.mk.injEq] at heq ⊢
    omega

/-- A word in the range of the weights holds its weight. -/
theorem toInt_ofInt_weight {q : Int} (h0 : 0 ≤ q) (h1 : q ≤ 65536) : (BitVec.ofInt 32 q).toInt = q := by
  rw [BitVec.toInt_ofInt]
  exact Int.bmod_eq_of_le (by omega) (by omega)

theorem weightAt_withGauss {s : State} {k : Byte} (h : GaussArgs k.toNat s.sigma) {i j : Nat} (hi : i < k.toNat)
    (hj : j < k.toNat) :
    weightAt (withGauss s k).kram (i * k.toNat + j) = gaussQ.weight k.toNat s.sigma (kernelOffset k.toNat i j) := by
  have hmem := kernelOffset_mem hi hj
  rw [weightAt, read_withGauss hi hj]
  exact toInt_ofInt_weight (gaussQ_nonneg h hmem) (gaussQ_le h hmem)

/-! Reflections of a kernel of odd side are sign changes of its offsets (R177). -/

theorem kernelOffset_reflect_column {k i j : Nat} (hodd : k % 2 = 1) (hj : j < k) :
    kernelOffset k i (k - 1 - j) = (-(kernelOffset k i j).1, (kernelOffset k i j).2) := by
  simp only [kernelOffset, Prod.mk.injEq, and_true]
  omega

theorem kernelOffset_reflect_row {k i j : Nat} (hodd : k % 2 = 1) (hi : i < k) :
    kernelOffset k (k - 1 - i) j = ((kernelOffset k i j).1, -(kernelOffset k i j).2) := by
  simp only [kernelOffset, Prod.mk.injEq, true_and]
  omega

theorem kernelOffset_eq_zero_iff {k i j : Nat} : kernelOffset k i j = (0, 0) ↔ (i, j) = (k / 2, k / 2) := by
  simp only [kernelOffset, Prod.mk.injEq]
  omega

/-- Settles O50: the words hold the weights, and these have the properties of R177. -/
theorem gaussKernelWeights : Obligations.gauss_kernel_weights := by
  intro s t k hlegal hodd hle hsigma hexec side q
  have h : GaussArgs side s.sigma := ⟨hodd, hle.trans hlegal.kmax_hi, Nat.pos_of_ne_zero hsigma, Nat.mod_lt _ (by decide)⟩
  obtain rfl : (withGauss s k).complete none = t :=
    Host.Outcome.next.inj ((exec_kgauss hodd hle hsigma).symm.trans hexec)
  have hq : ∀ i j, i < side → j < side → q i j = gaussQ.weight side s.sigma (kernelOffset side i j) :=
    fun i j hi hj => weightAt_withGauss h hi hj
  refine ⟨?_, fun i j hi hj => ?_⟩
  · rw [sum_range_mul, ← sum_gaussQ h, sum_offsets]
    exact Finset.sum_congr rfl fun i hi => Finset.sum_congr rfl fun j hj =>
      hq i j (Finset.mem_range.mp hi) (Finset.mem_range.mp hj)
  · have hmem := kernelOffset_mem hi hj
    obtain ⟨hcolumn, hrow, htranspose⟩ := gaussQ.legal.symmetry side s.sigma (kernelOffset side i j).1
      (kernelOffset side i j).2
    rw [hq i j hi hj, hq i _ hi (by omega), hq _ j (by omega) hj, hq j i hj hi, kernelOffset_reflect_column hodd hj,
      kernelOffset_reflect_row hodd hi]
    exact ⟨gaussQ_nonneg h hmem, gaussQ_le h hmem, hcolumn.symm, hrow.symm, htranspose.symm, fun hne =>
      gaussQ_accurate h hmem (mt kernelOffset_eq_zero_iff.mp hne)⟩

end Sys2Proof.Proofs
end

section
/-! PROOFS. The neighbourhood commands CONV and SOBEL (42_convolution R171 to R175, R182, R183). CONV without error is CONV on
operands as its checks ask (`conv_ready_of_noError`), so `conv_completes` says what it has left at each pixel. -/

namespace Sys2Proof.Proofs

open Sys2Proof Sys2Proof.Machine Sys2Proof.Safety Sys2Proof.Laws

/-! ## The checks of a neighbourhood command -/

/-- A neighbourhood command passes its checks exactly on operands as R76, R170, R171 and R80 ask. -/
theorem neighbourhood_checks_iff {s : State} {i : Instr} {d a : DescId} {r : Nat}
    (hn : neighbourhood s i = some (d, a, r)) :
    (∀ c ∈ checkRuns s i, c = .ok ()) ↔ KernelOk s i ∧ DescOk s a .gray ∧ DescOk s d .gray ∧ OutputSize s a d r ∧
      Apart s (d, .gray) (a, .gray) := by
  obtain ⟨hops, hsize, hdim, hover⟩ := neighbourhood_shape hn
  have hoverlap : s.checkOverlap .neighbourhood [(a, .gray)] [(d, .gray)] = .ok () ↔ Apart s (d, .gray) (a, .gray) := by
    simp only [checkOverlap_ok_iff, pairs, List.map_nil, List.append_nil, List.forall_mem_singleton,
      clash_neighbourhood_iff, List.not_mem_nil, false_implies, implies_true, and_true]
  simp only [checkRuns, descRuns, hops, hsize, hdim, hover, List.forall_mem_append, List.map_cons, List.map_nil,
    List.forall_mem_cons, List.not_mem_nil, false_implies, implies_true, and_true, checkDesc_ok_iff, dimcheck_ok_iff,
    hoverlap, true_and]
  exact ⟨fun ⟨⟨ha, hd⟩, hk, hout, hap⟩ => ⟨kernelOk_of_kernelRuns hk, ha, hd, hout, hap⟩,
    fun ⟨hk, ha, hd, hout, hap⟩ => ⟨⟨ha, hd⟩, kernelRuns_ok hk, hout, hap⟩⟩

/-- Behind its checks a neighbourhood command is the rest of its computation. -/
theorem exec_eq_rest {s : State} {i : Instr} {d a : DescId} {r : Nat} {rest : Run State} {s' : State}
    (hexec : exec i s = s.finish (guarded (checkRuns s i) rest)) (hn : neighbourhood s i = some (d, a, r))
    (hk : KernelOk s i) (h : NeighbourReady s d a r) (hrest : rest = .ok s') : exec i s = s.finish (.ok s') := by
  obtain ⟨ha, hd, hout, hap, -⟩ := h
  rw [hexec, guarded_ok_iff.mpr ⟨(neighbourhood_checks_iff hn).mpr ⟨hk, ha, hd, hout, hap⟩, hrest⟩]

/-! ## CONV -/

/-- The byte that CONV makes for output pixel `(x, y)` with the kernel of side `KSIZE.KW` in KRAM (R172). -/
def convPixel (s : State) (a : DescId) (x y : Nat) : List Byte :=
  [saturate (rha (weightedSum s s.kram a s.kw x y) 65536)]

/-- CONV on operands that pass its checks, with its kernel and its source written. -/
theorem exec_conv {s : State} {d a : DescId} (hk : KernelOk s (.conv d a)) (h : NeighbourReady s d a (s.kw / 2))
    (hf : Filled s.kram (s.kw * s.kw)) :
    exec (.conv d a) s = s.finish (.ok (s.putExtent d
      ((List.range (s.widthOf d * s.heightOf d)).map fun n =>
        convPixel s a (n % s.widthOf d) (n / s.widthOf d)).flatten)) := by
  have ⟨_, hodd, _⟩ := hk
  have ⟨⟨_, hw, hh, _⟩, _, hsize, _, hread⟩ := h
  have hraster : s.convBytes d a = _ := raster_ok (convPixel s a) fun x y hx hy => by
    rw [correlate_ok hread hw hh hodd hf hsize hx hy, convPixel, ← byteOfInt_clamp]
    rfl
  exact exec_eq_rest rfl rfl hk h (run_bind_of_ok _ hraster)

/-- CONV on such operands completes, and leaves at each destination pixel its rounded and saturated sum. -/
theorem conv_completes {s : State} {d a : DescId} (hk : KernelOk s (.conv d a)) (h : NeighbourReady s d a (s.kw / 2))
    (hf : Filled s.kram (s.kw * s.kw)) :
    ∃ t, exec (.conv d a) s = .next t ∧ OnlyMemory s t ∧ MemOutside s t d .gray ∧
      ∀ x y, x < s.widthOf d → y < s.heightOf d → Store.read t.mem (s.paddr d .gray x y 0) =
        some (saturate (rha (weightedSum s s.kram a s.kw x y) 65536)) := by
  obtain ⟨t, hexec, honly, hout, hin⟩ := raster_completes (f := .gray) _ (exec_conv hk h hf) fun _ _ => rfl
  exact ⟨t, hexec, honly, hout, fun x y hx hy => hin x y 0 hx hy Nat.one_pos⟩

/-- Settles O46. -/
theorem convCorrelates : Obligations.conv_correlates := by
  intro s d a hk h hf
  obtain ⟨t, hexec, honly, hout, hin⟩ := conv_completes hk h hf
  exact ⟨t, hexec, honly, hout, fun x y hx hy => ⟨_, rha_rounds _ (d := 65536) (by norm_num), hin x y hx hy⟩⟩

/-! ## The 1x1 identity kernel (R174) -/

/-- A sample at a pixel inside the source is that pixel, under every border policy (R171). -/
theorem sampleAt_inside {s : State} {a : DescId} {x y : Nat} (hx : x < s.widthOf a) (hy : y < s.heightOf a) :
    sampleAt s a x y = pixelAt s a .gray x y 0 := by
  rw [sampleAt]
  split
  · rw [show max 0 (min (x : Int) (s.widthOf a - 1)) = x by omega,
      show max 0 (min (y : Int) (s.heightOf a - 1)) = y by omega]
    rfl
  · rw [if_pos ⟨by omega, by omega, by omega, by omega⟩]
    rfl
  · rfl

theorem weightedSum_one (s : State) (kram : Store Word) (a : DescId) (x y : Nat) :
    weightedSum s kram a 1 x y = weightAt kram 0 * sampleAt s a ((x + cutOf s 0 : Nat)) ((y + cutOf s 0 : Nat)) := by
  simp [weightedSum]

theorem cutOf_zero (s : State) : cutOf s 0 = 0 := Nat.le_zero.mp (cutOf_le s 0)

/-- A level times the weight 1 is rounded to the level itself. -/
theorem saturate_rha_identity {v : Nat} (h : v < 256) : saturate (rha (65536 * v) 65536) = byteOf v := by
  have hrha : rha (65536 * v) 65536 = v := by
    obtain ⟨hlow, hhigh⟩ := floorDiv_bounds (2 * (65536 * (v : Int)) + 65536) (d := 2 * 65536) (by norm_num)
    rw [rha, if_pos (by omega)]
    omega
  rw [hrha, ← byteOfInt_clamp, clamp_byte, byteOfInt, show (max 0 (min 255 (v : Int))).toNat = v by omega]

/-- Settles O47: the sum of each pixel is 65536 times the pixel. -/
theorem convIdentity : Obligations.conv_identity := by
  intro s d a hkmax hkw hkh hweight ha hd hsize hap hread
  have hk : KernelOk s (.conv d a) := ⟨hkw.trans hkh.symm, by rw [hkw], hkw ▸ hkmax⟩
  have hout : OutputSize s a d (s.kw / 2) := by
    obtain ⟨hw, hh⟩ := hsize
    rw [hkw, OutputSize, cutOf_zero]
    exact ⟨hw, hh⟩
  have hf : Filled s.kram (s.kw * s.kw) := fun i hi => by
    obtain rfl : i = 0 := by rw [hkw] at hi; omega
    rw [hweight]
    rfl
  obtain ⟨t, hexec, honly, hmem, hin⟩ := conv_completes hk ⟨ha, hd, hout, hap, hread⟩ hf
  refine ⟨t, hexec, honly, hmem, fun k hlt => ?_⟩
  obtain ⟨x, y, o, hx, hy, ho, haddr⟩ := extent_offset_eq_paddr hlt
  obtain rfl : o = 0 := Nat.lt_one_iff.mp ho
  have hone : weightAt s.kram 0 = 65536 := by rw [weightAt, hweight]; rfl
  rw [haddr d hsize, haddr a ⟨rfl, rfl⟩, hin x y (hsize.1 ▸ hx) (hsize.2 ▸ hy), hkw, weightedSum_one, cutOf_zero, hone,
    Nat.add_zero, Nat.add_zero, sampleAt_inside hx hy, saturate_rha_identity (pixelAt_lt s a .gray x y 0)]
  exact (read_eq_byteAt (readable_pixel hread hx hy ho)).symm

/-! ## Interior pixels (R175) -/

/-- What CONV without error has been given: operands that pass its checks, with its kernel and its source written. -/
theorem conv_ready_of_noError {s t : State} {d a : DescId} (h : exec (.conv d a) s = .next t) (he : t.errcode = 0) :
    KernelOk s (.conv d a) ∧ NeighbourReady s d a (s.kw / 2) ∧ Filled s.kram (s.kw * s.kw) := by
  obtain ⟨hchecks, -⟩ := rest_ok_of_noError rfl h he
  obtain ⟨hk, ha, hd, hout, hap⟩ := (neighbourhood_checks_iff rfl).mp hchecks
  obtain ⟨hread, hf⟩ := conv_written h he
  exact ⟨hk, ⟨ha, hd, hout, hap, hread⟩, hf⟩

/-- The weighted sum around an interior centre is that of the pixels themselves, whatever the border policy is. -/
theorem weightedSum_interior {s : State} {kram : Store Word} {a : DescId} {k cx cy : Nat} (hodd : k % 2 = 1)
    (hx : k / 2 ≤ cx) (hxw : cx + k / 2 < s.widthOf a) (hy : k / 2 ≤ cy) (hyh : cy + k / 2 < s.heightOf a) :
    weightedSum s kram a k (cx - cutOf s (k / 2)) (cy - cutOf s (k / 2)) =
      ∑ i ∈ Finset.range k, ∑ j ∈ Finset.range k,
        weightAt kram (i * k + j) * (pixelAt s a .gray (cx + j - k / 2) (cy + i - k / 2) 0 : Int) := by
  have hcut := cutOf_le s (k / 2)
  refine Finset.sum_congr rfl fun i hi => Finset.sum_congr rfl fun j hj => ?_
  have hi := Finset.mem_range.mp hi
  have hj := Finset.mem_range.mp hj
  rw [← sampleAt_inside (show cx + j - k / 2 < s.widthOf a by omega) (show cy + i - k / 2 < s.heightOf a by omega)]
  congr 2 <;> omega

/-- The value that CONV leaves for an interior centre is the same under every border policy. -/
theorem conv_interior {s t : State} {d a : DescId} {cx cy : Nat} (h : exec (.conv d a) s = .next t) (he : t.errcode = 0)
    (hx : s.kw / 2 ≤ cx) (hxw : cx + s.kw / 2 < s.widthOf a) (hy : s.kw / 2 ≤ cy) (hyh : cy + s.kw / 2 < s.heightOf a) :
    Store.read t.mem (s.paddr d .gray (cx - cutOf s (s.kw / 2)) (cy - cutOf s (s.kw / 2)) 0) =
      some (saturate (rha (∑ i ∈ Finset.range s.kw, ∑ j ∈ Finset.range s.kw, weightAt s.kram (i * s.kw + j) *
        (pixelAt s a .gray (cx + j - s.kw / 2) (cy + i - s.kw / 2) 0 : Int)) 65536)) := by
  obtain ⟨hk, hready, hf⟩ := conv_ready_of_noError h he
  have ⟨_, hodd, _⟩ := hk
  have ⟨_, _, ⟨hw, hh⟩, _, _⟩ := hready
  obtain ⟨t', hexec, -, -, hin⟩ := conv_completes hk hready hf
  obtain rfl : t = t' := Host.Outcome.next.inj (h.symm.trans hexec)
  have hcut := cutOf_cases s (s.kw / 2)
  have hcx : cx - cutOf s (s.kw / 2) < s.widthOf d := by omega
  have hcy : cy - cutOf s (s.kw / 2) < s.heightOf d := by omega
  rw [hin _ _ hcx hcy, weightedSum_interior hodd hx hxw hy hyh]

/-- Settles O48: both states have the same side, weights and source pixels. -/
theorem convInteriorAgreement : Obligations.conv_interior_agreement := by
  intro s s' t t' d a cx cy hmem hkram hksize hdesc h he h' he' r hx hxw hy hyh
  have hkw : s'.kw = s.kw := by rw [State.kw, State.kw, hksize]
  have hwidth : s'.widthOf a = s.widthOf a := by rw [State.widthOf, State.widthOf, hdesc]
  have hheight : s'.heightOf a = s.heightOf a := by rw [State.heightOf, State.heightOf, hdesc]
  have hpixel : ∀ x y, pixelAt s' a .gray x y 0 = pixelAt s a .gray x y 0 := fun x y => by
    rw [pixelAt, pixelAt, byteAt, byteAt, State.paddr, State.paddr, State.baseOf, State.baseOf, hmem, hdesc, hwidth]
    rfl
  have hval' := conv_interior h' he' (cx := cx) (cy := cy) (hkw ▸ hx) (hkw ▸ hwidth ▸ hxw) (hkw ▸ hy)
    (hkw ▸ hheight ▸ hyh)
  simp only [hkw, hkram, hpixel] at hval'
  exact (conv_interior h he hx hxw hy hyh).trans hval'.symm

/-! ## SOBEL -/

/-- The sum of squares whose root SOBEL takes for output pixel `(x, y)` (R183). -/
def sobelEnergy (s : State) (a : DescId) (x y : Nat) : Nat :=
  (responseOf s (gradX (around s a x y)) * responseOf s (gradX (around s a x y)) +
    responseOf s (gradY (around s a x y)) * responseOf s (gradY (around s a x y))).toNat

/-- The byte that SOBEL makes for output pixel `(x, y)` (R182, R183). -/
def sobelPixel (s : State) (a : DescId) (x y : Nat) : List Byte := [byteOf (min (rsqrt (sobelEnergy s a x y)) 255)]

/-- SOBEL on operands that pass its checks. -/
theorem exec_sobel {s : State} {d a : DescId} (h : NeighbourReady s d a 1) :
    exec (.sobel d a) s = s.finish (.ok (s.putExtent d
      ((List.range (s.widthOf d * s.heightOf d)).map fun n =>
        sobelPixel s a (n % s.widthOf d) (n / s.widthOf d)).flatten)) := by
  have ⟨⟨_, hw, hh, _⟩, _, hsize, _, hread⟩ := h
  have hraster := raster_ok (w := s.widthOf d) (h := s.heightOf d) (sobelPixel s a) (px := fun x y => do
      let m ← s.sobelAt a (s.centre 1 x) (s.centre 1 y)
      return [byteOf m])
    fun x y hx hy => by rw [sobelAt_ok hread hw hh hsize hx hy]; rfl
  exact exec_eq_rest rfl rfl trivial h (run_bind_of_ok _ hraster)

/-- Settles O52. -/
theorem sobelMagnitude : Obligations.sobel_magnitude := by
  intro s d a h
  obtain ⟨t, hexec, honly, hout, hin⟩ := raster_completes (f := .gray) _ (exec_sobel h) fun _ _ => rfl
  exact ⟨t, hexec, honly, hout, fun x y hx hy =>
    ⟨rsqrt (sobelEnergy s a x y), rsqrt_nearest _, hin x y 0 hx hy Nat.one_pos⟩⟩

end Sys2Proof.Proofs
end

section
/-! PROOFS. BLUR (42_convolution R186): BLUR at a state leaves what KGAUSS and then CONV leave, so its kernel is that of KGAUSS
and its pixels are those of CONV. -/

namespace Sys2Proof.Proofs

open Sys2Proof Sys2Proof.Machine Sys2Proof.Safety Sys2Proof.Laws

/-- A completion update after a completion update changes nothing more of STATUS (R222). -/
theorem statusDone_idem (w : Word) : statusDone (statusDone w) = statusDone w := by
  have absorb : ∀ p v a b : Bool, (p || ((p || (v && a && b)) && a && b)) = (p || (v && a && b)) := by decide
  apply BitVec.eq_of_getLsbD_eq
  intro i _
  rw [statusDone_bit, statusDone_bit]
  exact absorb _ _ _ _

theorem complete_complete (s : State) : (s.complete none).complete none = s.complete none := by
  simp only [State.complete, statusDone_idem]

/-- The state that KGAUSS leaves (R178). -/
def afterKgauss (s : State) (k : Byte) : State := (withGauss s k).complete none

theorem kw_afterKgauss (s : State) (k : Byte) : (afterKgauss s k).kw = k.toNat :=
  kw_loadKernel s k (gaussWeights k.toNat s.sigma)

theorem kh_afterKgauss (s : State) (k : Byte) : (afterKgauss s k).kh = k.toNat := by
  have := k.isLt
  have hword : (k.toNat + k.toNat * 2 ^ 8) % 2 ^ 32 = k.toNat + k.toNat * 2 ^ 8 := Nat.mod_eq_of_lt (by omega)
  rw [State.kh, afterKgauss, withGauss, complete_ksize, loadKernel_ksize, bits, BitVec.toNat_ofNat, hword,
    Nat.add_mul_div_right _ _ (by decide)]
  omega

theorem filled_afterKgauss (s : State) (k : Byte) : Filled (afterKgauss s k).kram (k.toNat * k.toNat) :=
  filled_loadKernel s (length_gaussWeights k.toNat s.sigma)

/-- KGAUSS without error had a legal side and SIGMA, and has loaded its kernel. -/
theorem kgauss_of_noError {s t : State} {k : Byte} (h : exec (.kgauss k) s = .next t) (he : t.errcode = 0) :
    k.toNat % 2 = 1 ∧ k.toNat ≤ s.cfg.kmax ∧ s.sigma ≠ 0 ∧ t = afterKgauss s k := by
  obtain ⟨s', hr, rfl⟩ := finish_ok_of_noError ((exec_kgauss_eq s k).symm.trans h) he
  obtain ⟨hchecks, hs'⟩ := guarded_ok_iff.mp hr
  obtain ⟨hodd, hle, hsigma⟩ := kernelOk_of_kernelRuns (s := s) (i := .blur 0 0 k) hchecks
  exact ⟨hodd, hle, hsigma, congrArg (State.complete · none) (ok_inj hs')⟩

/-- Settles O55: BLUR makes the checks of both, and computes what CONV computes at the state that KGAUSS leaves. -/
theorem blurIsKgaussThenConv : Obligations.blur_is_kgauss_then_conv := by
  intro s t u d a k hkg het hconv heu
  obtain ⟨hodd, hle, hsigma, rfl⟩ := kgauss_of_noError hkg het
  obtain ⟨hchecks, _, hrest, rfl⟩ := rest_ok_of_noError rfl hconv heu
  obtain ⟨-, ha, hd, hout, hap⟩ := (neighbourhood_checks_iff rfl).mp hchecks
  rw [kw_afterKgauss] at hout
  obtain ⟨bytes, hbytes, hput⟩ := run_bind_ok_iff.mp hrest
  obtain rfl := ok_inj hput
  have hblur : exec (.blur d a k) s = s.finish (guarded (checkRuns s (.blur d a k)) (do
      let bytes ← (withGauss s k).convBytes d a
      return (withGauss s k).putExtent d bytes)) := rfl
  have hbehind : (do
      let bytes ← (withGauss s k).convBytes d a
      return (withGauss s k).putExtent d bytes) = (.ok ((withGauss s k).putExtent d bytes) : Run State) :=
    run_bind_of_ok _ hbytes
  have hpass : ∀ c ∈ checkRuns s (.blur d a k), c = .ok () :=
    (neighbourhood_checks_iff rfl).mpr ⟨⟨hodd, hle, hsigma⟩, ha, hd, hout, hap⟩
  rw [hblur, guarded_ok_iff.mpr ⟨hpass, hbehind⟩]
  exact congrArg Host.Outcome.next (complete_complete ((withGauss s k).putExtent d bytes)).symm

/-- Settles O54: KGAUSS completes, CONV completes behind it, and BLUR leaves what both leave. -/
theorem blurSmooths : Obligations.blur_smooths := by
  intro s d a k ⟨hodd, hle, hsigma⟩ hready
  have hkw := kw_afterKgauss s k
  have hkernel : KernelOk (afterKgauss s k) (.conv d a) :=
    ⟨hkw.trans (kh_afterKgauss s k).symm, hkw.symm ▸ hodd, hkw.symm ▸ hle⟩
  have hneigh : NeighbourReady (afterKgauss s k) d a ((afterKgauss s k).kw / 2) := hkw.symm ▸ hready
  obtain ⟨u, hconv, honly, hmem, hin⟩ := conv_completes hkernel hneigh (hkw.symm ▸ filled_afterKgauss s k)
  have hu : u = { (withGauss s k).complete none with mem := u.mem } :=
    honly.trans (congrArg (fun t : State => { t with mem := u.mem }) (complete_complete (withGauss s k)))
  obtain ⟨m, rfl⟩ : ∃ m, u = { (withGauss s k).complete none with mem := m } := ⟨_, hu⟩
  refine ⟨_, blurIsKgaussThenConv s _ _ d a k (exec_kgauss hodd hle hsigma) (errcode_complete_none _) hconv
    (errcode_complete_none (withGauss s k)), rfl, rfl, fun i j hi hj => read_withGauss hi hj, fun n hn => ?_, hmem,
    fun x y hx hy => ⟨_, rha_rounds _ (d := 65536) (by norm_num), ?_⟩⟩
  · exact read_loadKernel_outside s k.toNat (length_gaussWeights k.toNat s.sigma ▸ hn)
  · rw [hkw] at hin
    exact hin x y hx hy

end Sys2Proof.Proofs
end

section
/-! PROOFS. HIST and CUM (43_histogram R200, R201, R204) and the two in a row (R205): the counts of the levels up to L add up to
the number of pixels when no level is above L. -/

namespace Sys2Proof.Proofs

open Sys2Proof Sys2Proof.Machine Sys2Proof.Safety Sys2Proof.Laws

/-! ## Windows of 256 entries -/

theorem read_window {α : Type} (g : Nat → α) {v : Nat} (hv : v < 256) :
    Store.read (Store.ofListFrom 0 ((List.range 256).map g)) v = some (g v) := by
  have h := read_ofListFrom ((List.range 256).map g) 0 v
  rwa [Nat.zero_add, List.getElem?_map, List.getElem?_range hv] at h

theorem read_wordWindow (g : Nat → Nat) {v : Nat} (hv : v < 256) :
    Store.read (wordWindow ((List.range 256).map g)) v = some (BitVec.ofNat 32 (g v)) := by
  rw [wordWindow, List.map_map]
  exact read_window _ hv

/-- An entry that holds the word of a number of 32 bits reads as that number. -/
theorem entryAt_of_read {m : Store Word} {i n : Nat} (h : Store.read m i = some (BitVec.ofNat 32 n)) (hn : n < 2 ^ 32) :
    entryAt m i = n := by
  rw [entryAt, h]
  exact Nat.mod_eq_of_lt hn

/-! ## HIST -/

/-- The levels of a written GRAY buffer in raster order. -/
def rasterLevels (s : State) (a : DescId) : List Nat :=
  (List.range (s.widthOf a * s.heightOf a)).map fun i => pixelAt s a .gray (i % s.widthOf a) (i / s.widthOf a) 0

theorem levels_eq_rasterLevels {s : State} {a : DescId} (hr : Readable s a .gray) : s.levels a = .ok (rasterLevels s a) :=
  levels_ok hr

theorem countOf_rasterLevels (s : State) (a : DescId) (l v : Nat) :
    countOf (rasterLevels s a) l v = if v ≤ l then pixelCount s a v else 0 := by
  rw [countOf, rasterLevels, count_levels]

/-- HIST on a source that passes its check (R200). -/
theorem exec_hist {s : State} {a : DescId} (l : Byte) (ha : DescOk s a .gray) (hr : Readable s a .gray) :
    exec (.hist a l) s = s.finish (.ok { s with
      hist := Store.ofListFrom 0
        ((List.range 256).map fun v => BitVec.ofNat 32 (countOf (rasterLevels s a) l.toNat v)) }) := by
  refine congrArg s.finish ?_
  rw [checkDesc_ok ha]
  exact run_bind_of_ok _ (levels_eq_rasterLevels hr)

theorem pixelCount_lt (s : State) (a : DescId) (v : Nat) : pixelCount s a v < 2 ^ 32 := by
  have h1 := pixelCount_le s a v
  have h2 := area_lt s a
  omega

/-- Settles O56. -/
theorem histCounts : Obligations.hist_counts := by
  intro s a l ha hr
  refine ⟨_, exec_hist l ha hr, rfl, fun v hv => ⟨pixelCount_lt s a v, ?_⟩⟩
  rw [complete_hist, read_window _ hv, countOf_rasterLevels]

/-! ## CUM -/

/-- CUM on counts that have been written (R201). -/
theorem exec_cum {s : State} {l : Byte} (hf : Filled s.hist (l.toNat + 1)) :
    exec (.cum l) s = s.finish (.ok
      { s with cum := wordWindow ((List.range 256).map (cumulative (entryAt s.hist) l.toNat)) }) := by
  rw [← cumf_eq (entryAt s.hist) l.isLt]
  exact congrArg s.finish (run_bind_of_ok _ (counts_ok hf))

/-- Settles O57. -/
theorem cumSums : Obligations.cum_sums := by
  intro s l hf
  refine ⟨_, exec_cum hf, rfl, fun v hv => ?_⟩
  rw [complete_cum, read_wordWindow _ hv]

/-! ## HIST and then CUM (R205) -/

/-- Where the sum stays in 32 bits nothing saturates. -/
theorem cumulative_eq_sum (h : Nat → Nat) {l n : Nat} (hn : n ≤ l) (hsum : ∑ v ∈ Finset.range (n + 1), h v < 2 ^ 32) :
    cumulative h l n = ∑ v ∈ Finset.range (n + 1), h v := by
  induction n with
  | zero =>
    rw [Finset.sum_range_one] at hsum ⊢
    exact Nat.min_eq_left (by omega)
  | succ n ih =>
    rw [Finset.sum_range_succ] at hsum ⊢
    rw [cumulative, if_pos hn, ih (by omega) (by omega)]
    exact Nat.min_eq_left (by omega)

/-- Every pixel is counted at its own level. -/
theorem sum_pixelCount {s : State} {a : DescId} {l : Nat}
    (hle : ∀ x y, x < s.widthOf a → y < s.heightOf a → pixelAt s a .gray x y 0 ≤ l) :
    ∑ v ∈ Finset.range (l + 1), pixelCount s a v = s.widthOf a * s.heightOf a := by
  have hlevel : ∀ p ∈ Finset.range (s.heightOf a) ×ˢ Finset.range (s.widthOf a),
      pixelAt s a .gray p.2 p.1 0 ∈ Finset.range (l + 1) := fun p hp => by
    obtain ⟨hy, hx⟩ := Finset.mem_product.mp hp
    exact Finset.mem_range_succ_iff.mpr (hle _ _ (Finset.mem_range.mp hx) (Finset.mem_range.mp hy))
  calc ∑ v ∈ Finset.range (l + 1), pixelCount s a v
      = (Finset.range (s.heightOf a) ×ˢ Finset.range (s.widthOf a)).card :=
        (Finset.card_eq_sum_card_fiberwise hlevel).symm
    _ = s.widthOf a * s.heightOf a := by
        rw [Finset.card_product, Finset.card_range, Finset.card_range, Nat.mul_comm]

/-- Settles O58: CUM adds up what HIST has counted. -/
theorem cumulativeTotal : Obligations.cumulative_total := by
  intro s a l ha hr hle
  obtain ⟨t, hhist, -, hcount⟩ := histCounts s a l ha hr
  have hlt := l.isLt
  have hfilled : Filled t.hist (l.toNat + 1) := fun v hv => by rw [(hcount v (by omega)).2]; rfl
  obtain ⟨u, hcum, -, hsums⟩ := cumSums t l hfilled
  have hentry : ∀ v ∈ Finset.range (l.toNat + 1), entryAt t.hist v = pixelCount s a v := fun v hv => by
    have hv := Finset.mem_range_succ_iff.mp hv
    obtain ⟨hbound, hread⟩ := hcount v (by omega)
    rw [if_pos hv] at hread
    exact entryAt_of_read hread hbound
  have hsum : ∑ v ∈ Finset.range (l.toNat + 1), entryAt t.hist v = s.widthOf a * s.heightOf a :=
    (Finset.sum_congr rfl hentry).trans (sum_pixelCount hle)
  have harea := area_lt s a
  have htotal := cumulative_eq_sum (entryAt t.hist) (Nat.le_refl l.toNat) (by omega)
  rw [hsum] at htotal
  refine ⟨t, u, hhist, hcum, entryAt_of_read ?_ (by omega)⟩
  rw [hsums _ hlt, htotal]

end Sys2Proof.Proofs
end

section
/-! PROOFS. The remaps EQUALIZE and STRETCH (43_histogram R202, R203). What writing a remapped source to a destination leaves is
said once, in `read_remap_inside` and `read_remap_outside`. -/

namespace Sys2Proof.Proofs

open Sys2Proof Sys2Proof.Machine Sys2Proof.Safety Sys2Proof.Laws

/-! ## Remapped levels in memory -/

theorem mem_rasterLevels_lt {s : State} {a : DescId} {v : Nat} (hv : v ∈ rasterLevels s a) : v < 256 := by
  obtain ⟨i, -, rfl⟩ := List.mem_map.mp hv
  exact pixelAt_lt s a .gray _ _ 0

theorem remap_length {s : State} {a d : DescId} (h : SameSize s a d) (f : Nat → Byte) :
    ((rasterLevels s a).map f).length = s.len d .gray := by
  rw [List.length_map, rasterLevels, List.length_map, List.length_range, State.len, h.1, h.2]
  exact (Nat.mul_one _).symm

/-- The pixel at raster index `i` is the byte at offset `i` of the extent (R74). -/
theorem pixelAt_of_index (s : State) (a : DescId) (i : Nat) :
    pixelAt s a .gray (i % s.widthOf a) (i / s.widthOf a) 0 = byteAt s (s.baseOf a + i * s.bpp .gray) := by
  rw [pixelAt, State.paddr, Nat.div_add_mod', Nat.add_zero]

/-- A remapped source written to `d` leaves the remapped level at every pixel. -/
theorem read_remap_inside {s : State} {a d : DescId} (h : SameSize s a d) (f : Nat → Byte) {x y : Nat}
    (hx : x < s.widthOf a) (hy : y < s.heightOf a) :
    Store.read (Store.writeList s.mem (s.baseOf d) ((rasterLevels s a).map f)) (s.paddr d .gray x y 0) =
      some (f (pixelAt s a .gray x y 0)) := by
  have hi : y * s.widthOf a + x < ((rasterLevels s a).map f).length := by
    have := pixel_offset_lt hx hy Nat.one_pos
    rw [remap_length h, State.len, h.1, h.2, State.bpp]
    omega
  have haddr : s.paddr d .gray x y 0 = s.baseOf d + (y * s.widthOf a + x) := by
    rw [State.paddr, State.bpp, h.1, Nat.mul_one, Nat.add_zero]
  rw [haddr, read_writeList_inside _ _ _ _ hi]
  simp only [rasterLevels, List.getElem_map, List.getElem_range, pixelAt_of_index]
  rfl

/-- A remapped source written to `d` changes nothing outside the extent of `d`. -/
theorem read_remap_outside {s : State} {a d : DescId} (h : SameSize s a d) (f : Nat → Byte) {addr : Nat}
    (hout : addr < s.baseOf d ∨ s.baseOf d + s.len d .gray ≤ addr) :
    Store.read (Store.writeList s.mem (s.baseOf d) ((rasterLevels s a).map f)) addr = Store.read s.mem addr :=
  read_writeList_outside _ _ (remap_length h f ▸ hout)

/-! ## EQUALIZE -/

/-- The level that EQUALIZE makes of level `v` (R202). -/
def equalizedLevel (s : State) (a : DescId) (l : Byte) (v : Nat) : Nat :=
  min (l.toNat * cumulative (entryAt s.hist) l.toNat v / (s.widthOf a * s.heightOf a)) 255

theorem equalizeTable_cumulative (s : State) (a : DescId) (l : Byte) :
    equalizeTable l.toNat (s.widthOf a * s.heightOf a) ((List.range 256).map (cumulative (entryAt s.hist) l.toNat)) =
      (List.range 256).map (equalizedLevel s a l) := by
  rw [equalizeTable, List.map_map]
  rfl

/-- Remapping through the table is remapping by the function it tabulates: every level is below 256. -/
theorem map_rasterLevels_getD (s : State) (a : DescId) (g : Nat → Nat) :
    ((rasterLevels s a).map fun v => byteOf (((List.range 256).map g).getD v 0)) =
      (rasterLevels s a).map fun v => byteOf (g v) := by
  refine List.map_congr_left fun v hv => ?_
  rw [List.getD_eq_getElem?_getD, List.getElem?_map, List.getElem?_range (mem_rasterLevels_lt hv)]
  rfl

/-- EQUALIZE on operands that pass its checks and counts that have been written. -/
theorem exec_equalize {s : State} {d a : DescId} {l : Byte} (h : PointwiseReady s (d, .gray) (a, .gray))
    (hf : Filled s.hist (l.toNat + 1)) :
    exec (.equalize d a l) s = s.finish (.ok (State.putExtent
      { s with
        cum := wordWindow ((List.range 256).map (cumulative (entryAt s.hist) l.toNat))
        lut := Store.ofListFrom 0 ((List.range 256).map fun v => byteOf (equalizedLevel s a l v)) }
      d ((rasterLevels s a).map fun v => byteOf (equalizedLevel s a l v)))) := by
  have ⟨_, _, _, _, hread⟩ := h
  refine congrArg s.finish ((pointwise_checks_pass h _).trans ?_)
  refine (run_bind_of_ok _ (counts_ok hf)).trans ((run_bind_of_ok _ (levels_eq_rasterLevels hread)).trans ?_)
  simp only [cumf_eq (entryAt s.hist) l.isLt, equalizeTable_cumulative, map_rasterLevels_getD, List.map_map]
  rfl

/-- Settles O59. -/
theorem equalizeRemaps : Obligations.equalize_remaps := by
  intro s d a l h hf
  have ⟨_, _, hsize, _, _⟩ := h
  refine ⟨_, exec_equalize h hf, rfl, fun addr hout => ?_, fun v hv => ⟨?_, ?_⟩, fun x y hx hy => ?_⟩
  · exact read_remap_outside hsize _ hout
  · exact read_wordWindow _ hv
  · exact read_window _ hv
  · exact read_remap_inside hsize _ hx hy

/-! ## STRETCH -/

/-- Floor division by any number but 0 is the floor of the rational quotient (R10). -/
theorem floorDiv_eq_floor_of_ne (n : Int) {d : Int} (hd : d ≠ 0) : floorDiv n d = ⌊(n : ℚ) / d⌋ := by
  rcases lt_or_gt_of_ne hd with hneg | hpos
  · have hflip : floorDiv n d = floorDiv (-n) (-d) := (Int.neg_fdiv_neg n d).symm
    rw [hflip, floorDiv_eq_floor (-n) (Int.neg_pos.mpr hneg), Int.cast_neg, Int.cast_neg, neg_div_neg_eq]
  · exact floorDiv_eq_floor n hpos

theorem clamp_eq_max_min (v : Int) {lo hi : Int} (h : lo ≤ hi) : clamp v lo hi = max lo (min hi v) := by
  unfold clamp
  split
  · omega
  · split <;> omega

theorem byteOfInt_of_nonneg {v : Int} (h : 0 ≤ v) : byteOfInt v = BitVec.ofInt 8 v := by
  obtain ⟨n, rfl⟩ := Int.eq_ofNat_of_zero_le h
  exact (BitVec.ofInt_natCast 8 n).symm

/-- The stretched level as a byte, over the rationals; the anchors may stand in either order (R203). -/
theorem byteOfInt_stretchLevel {lo hi : Nat} (h : lo ≠ hi) (v : Nat) :
    byteOfInt (stretchLevel lo hi v) =
      BitVec.ofInt 8 (max 0 (min 100 ⌊((v : ℚ) - lo) * 100 / ((hi : ℚ) - lo)⌋)) := by
  rw [stretchLevel, clamp_eq_max_min _ (by decide), byteOfInt_of_nonneg (le_max_left _ _),
    floorDiv_eq_floor_of_ne _ (by omega)]
  push_cast
  rfl

/-- If the least counts and the greatest have the same least level, all counts are equal, so that level is 0 (R203). -/
theorem anchor_eq_zero {h : Nat → Nat} {l b : Nat} (hmin : IsLeastMin h l b) (hmax : IsLeastMax h l b) : b = 0 := by
  obtain ⟨-, -, habove⟩ := hmin
  obtain ⟨-, -, hbelow⟩ := hmax
  rcases Nat.eq_zero_or_pos b with hb | hb
  · exact hb
  · exact absurd (habove 0 hb) (Nat.lt_asymm (hbelow 0 hb))

/-- STRETCH on operands that pass its checks and counts that have been written, by its two anchors. -/
theorem exec_stretch {s : State} {d a : DescId} {l : Byte} {lo hi : Nat} (h : PointwiseReady s (d, .gray) (a, .gray))
    (hf : Filled s.hist (l.toNat + 1)) (hlo : IsLeastMin (entryAt s.hist) l.toNat lo)
    (hhi : IsLeastMax (entryAt s.hist) l.toNat hi) :
    exec (.stretch d a l) s = s.finish (if lo = hi then raise .degenerateStretch lo else
      .ok (s.putExtent d ((rasterLevels s a).map fun v => byteOfInt (stretchLevel lo hi v)))) := by
  have ⟨_, _, _, _, hread⟩ := h
  have hinf : bInf ((List.range (l.toNat + 1)).map (entryAt s.hist)) = lo := leastMin_unique (bInf_spec _ _) hlo
  have hsup : bSup ((List.range (l.toNat + 1)).map (entryAt s.hist)) = hi := leastMax_unique (bSup_spec _ _) hhi
  refine congrArg s.finish ((pointwise_checks_pass h _).trans ((run_bind_of_ok _ (counts_ok hf)).trans ?_))
  rw [hinf, hsup, levels_eq_rasterLevels hread]
  split <;> rfl

/-- Settles O60. -/
theorem stretchRescales : Obligations.stretch_rescales := by
  intro s d a l lo hi h hf hlo hhi
  have ⟨_, _, hsize, _, _⟩ := h
  have hexec := exec_stretch h hf hlo hhi
  refine ⟨fun heq => ⟨anchor_eq_zero hlo (heq ▸ hhi), ?_⟩, fun hne => ?_⟩
  · rw [if_pos heq] at hexec
    exact hexec
  · rw [if_neg hne] at hexec
    refine ⟨_, hexec, rfl, fun addr hout => read_remap_outside hsize _ hout, fun x y hx hy => ?_⟩
    rw [← byteOfInt_stretchLevel hne]
    exact read_remap_inside hsize _ hx hy

end Sys2Proof.Proofs
end

section
/-! PROOFS. The completion update and the precision of errors (60_exceptions R221 to R223). Every completion is the completion
update of one state, which has the STATUS the command found and, on an error, is the state the command found
(`runCommand_eq_complete`); what the update does to STATUS is said once for each of its fields. -/

namespace Sys2Proof.Proofs

open Sys2Proof Sys2Proof.Machine Sys2Proof.Safety Sys2Proof.Laws

/-! ## Fields of STATUS after the completion update (R222) -/

/-- Two words that agree on the bits of a field agree on the field. -/
theorem bits_eq_of_getLsbD {w w' : Word} {hi lo : Nat} (hle : lo ≤ hi)
    (h : ∀ i, lo ≤ i → i ≤ hi → w'.getLsbD i = w.getLsbD i) : bits w' hi lo = bits w hi lo := by
  unfold bits
  apply Nat.eq_of_testBit_eq
  intro i
  simp only [Nat.testBit_mod_two_pow, Nat.testBit_div_two_pow, BitVec.testBit_toNat]
  by_cases hin : i < hi - lo + 1
  · rw [h (i + lo) (by omega) (by omega)]
  · simp [hin]

/-- OVERRUN and the reserved bits, those above ERR and outside ERRCODE, are as they were. -/
theorem complete_status_bit {i : Nat} (s : State) (r : Option (Error × Nat)) (h3 : 3 ≤ i) (hcode : i < 8 ∨ 11 < i) :
    (s.complete r).status.getLsbD i = s.status.getLsbD i := by
  have hlow : ∀ j, j < 3 → (i == j) = false := fun j hj => beq_eq_false_iff_ne.mpr (by omega)
  have hout : (decide (8 ≤ i) && decide (i ≤ 11)) = false := by
    rw [Bool.and_eq_false_iff, decide_eq_false_iff_not, decide_eq_false_iff_not]
    omega
  cases r with
  | none =>
    rw [complete_none_status, statusDone_bit]
    simp only [hout, bne, hlow, Nat.reduceLT, Bool.false_or, Bool.not_false, Bool.and_true]
  | some p =>
    rw [complete_some_status, statusFailed_bit]
    simp only [hout, bne, hlow, Nat.reduceLT, Bool.false_or, Bool.false_and, Bool.or_false, Bool.not_false, Bool.and_true]

theorem complete_overrun (s : State) (r : Option (Error × Nat)) : (s.complete r).overrun = s.overrun :=
  complete_status_bit s r (Nat.le_refl 3) (.inl (by decide))

theorem complete_reserved_low (s : State) (r : Option (Error × Nat)) :
    bits (s.complete r).status 7 4 = bits s.status 7 4 :=
  bits_eq_of_getLsbD (by decide) fun _ _ _ => complete_status_bit s r (by omega) (by omega)

theorem complete_reserved_high (s : State) (r : Option (Error × Nat)) :
    bits (s.complete r).status 31 12 = bits s.status 31 12 :=
  bits_eq_of_getLsbD (by decide) fun _ _ _ => complete_status_bit s r (by omega) (by omega)

theorem complete_doneBit (s : State) (r : Option (Error × Nat)) : (s.complete r).doneBit = true := by
  cases r with
  | none => exact statusDone_bit s.status 1
  | some p => exact statusFailed_bit s.status p.1 1

theorem errBit_complete_none (s : State) : (s.complete none).errBit = s.errBit :=
  (statusDone_bit s.status 2).trans (by simp [State.errBit])

theorem errBit_complete_some (s : State) (p : Error × Nat) : (s.complete (some p)).errBit = true :=
  statusFailed_bit s.status p.1 2

theorem errcode_complete_some (s : State) (p : Error × Nat) : (s.complete (some p)).errcode = p.1.code :=
  statusFailed_errcode s.status p.1

/-- ERRCODE 0 is the code of no error: the errors have 1 to 9 (R221). -/
theorem errcode_complete_eq_zero_iff (s : State) (r : Option (Error × Nat)) : (s.complete r).errcode = 0 ↔ r = none := by
  cases r with
  | none => exact iff_of_true (errcode_complete_none s) rfl
  | some p =>
    obtain ⟨hpos, -⟩ := code_range p.1
    rw [errcode_complete_some]
    exact iff_of_false (by omega) nofun

theorem errcode_complete_le (s : State) (r : Option (Error × Nat)) : (s.complete r).errcode ≤ 9 := by
  cases r with
  | none => exact (errcode_complete_none s).trans_le (Nat.zero_le 9)
  | some p =>
    obtain ⟨-, hle⟩ := code_range p.1
    exact (errcode_complete_some s p).trans_le hle

/-! ## Every completion is a completion update -/

/-- The effects of a command leave STATUS to the completion update. -/
theorem effect_status {s s' : State} {i : Instr} (he : Effect s i s') : s'.status = s.status := by
  rcases effect_shapes he with ⟨d, f, size, -, rfl⟩ | ⟨m, -, -, hs⟩
  · exact allocate_status s d size
  · rcases hs with rfl | ⟨-, k, z, rfl⟩ | ⟨-, h, rfl⟩ | ⟨-, c, rfl⟩ | ⟨-, c, l, rfl⟩ <;> rfl

/-- The completion of a word is the completion update of a state with the STATUS of `s`, which is `s` itself on an error. -/
theorem runCommand_eq_complete {w : Word} {s t : State} (h : runCommand w s = .next t) :
    ∃ u r, t = u.complete r ∧ u.status = s.status ∧ (r ≠ none → u = s) := by
  rcases runCommand_cases h with ⟨e, info, rfl⟩ | ⟨i, s', -, he, rfl⟩
  · exact ⟨s, some (e, info), rfl, rfl, fun _ => rfl⟩
  · exact ⟨s', none, rfl, effect_status he, fun hr => absurd rfl hr⟩

/-- Settles O22. -/
theorem completionUpdate : Obligations.completion_update := by
  intro w s t h
  obtain ⟨u, r, rfl, hstatus, -⟩ := runCommand_eq_complete h
  have hoverrun : u.overrun = s.overrun := congrArg (·.getLsbD 3) hstatus
  have herr : u.errBit = s.errBit := congrArg (·.getLsbD 2) hstatus
  rw [← hoverrun, ← hstatus, ← herr]
  refine ⟨complete_busy u r, complete_doneBit u r, complete_overrun u r, complete_pending u r, errcode_complete_le u r,
    complete_reserved_low u r, complete_reserved_high u r, fun hcode => ?_, fun hcode => ?_⟩
  · rw [(errcode_complete_eq_zero_iff u r).mp hcode]
    exact ⟨complete_none_errinfo u, errBit_complete_none u⟩
  · obtain ⟨p, rfl⟩ := Option.ne_none_iff_exists'.mp (mt (errcode_complete_eq_zero_iff u r).mpr hcode)
    exact errBit_complete_some u p

/-- Settles O23: a non-zero ERRCODE means that the completion update was that of the state the command found. -/
theorem errorsArePrecise : Obligations.errors_are_precise := by
  intro w s t h hcode
  obtain ⟨u, r, rfl, -, huntouched⟩ := runCommand_eq_complete h
  obtain ⟨p, rfl⟩ := Option.ne_none_iff_exists'.mp (mt (errcode_complete_eq_zero_iff u r).mpr hcode)
  rw [huntouched nofun]
  rfl

end Sys2Proof.Proofs
end

section
/-! PROOFS. The reset event (70_reset R260 to R264): registers and arrays come from the reset state, memory is what the
forgotten extents leave of it. -/

namespace Sys2Proof.Proofs

open Sys2Proof Sys2Proof.Machine Sys2Proof.Safety Sys2Proof.Laws

/-- A key reads as unwritten after several ranges were forgotten if one of them holds it, else as before. -/
theorem read_forgetAll (extents : List (Nat × Nat)) (m : Memory) (addr : Nat) :
    Store.read (extents.foldl (fun m e => Store.forget m e.1 e.2) m) addr =
      if ∃ e ∈ extents, e.1 ≤ addr ∧ addr < e.2 then none else Store.read m addr := by
  induction extents generalizing m with
  | nil => simp
  | cons e rest ih =>
    rw [List.foldl_cons, ih, read_forget]
    by_cases hrest : ∃ e ∈ rest, e.1 ≤ addr ∧ addr < e.2
    · rw [if_pos hrest, if_pos (List.exists_mem_cons_of_exists hrest)]
    · simp only [List.exists_mem_cons_iff, hrest, or_false, if_false]

theorem abandonedExtents_of_idle {s : State} (h : s.pending = none) : s.abandonedExtents = [] := by
  rw [State.abandonedExtents, h]

theorem abandonedExtents_of_decode_error {s : State} {w : Word} {e : DecodeError} (h : s.pending = some w)
    (hdecode : decode w = .error e) : s.abandonedExtents = [] := by
  simp only [State.abandonedExtents, h, hdecode]

theorem abandonedExtents_of_decode {s : State} {w : Word} {i : Instr} (h : s.pending = some w) (hdecode : decode w = .ok i) :
    s.abandonedExtents = (destinations i).map fun p => (s.baseOf p.1, s.baseOf p.1 + s.len p.1 p.2) := by
  simp only [State.abandonedExtents, h, hdecode]

/-- A warm reset with no extent to abandon keeps all of memory (R263). -/
theorem memAfterReset_warm_of_nil {s : State} (h : s.abandonedExtents = []) : s.memAfterReset .warm = s.mem := by
  rw [State.memAfterReset, h, List.foldl_nil]

/-- A warm reset while a command runs makes its destination extents unwritten, and only them (R262). -/
theorem read_memAfterReset_warm {s : State} {w : Word} {i : Instr} (h : s.pending = some w) (hdecode : decode w = .ok i)
    (addr : Nat) :
    Store.read (s.memAfterReset .warm) addr =
      if ∃ p ∈ destinations i, s.baseOf p.1 ≤ addr ∧ addr < s.baseOf p.1 + s.len p.1 p.2 then none
      else Store.read s.mem addr := by
  rw [State.memAfterReset, read_forgetAll, abandonedExtents_of_decode h hdecode]
  simp only [List.mem_map, exists_exists_and_eq_and]

/-- Registers, arrays and hidden state are those of the reset state, whatever the kind (R260). -/
theorem resetValues_applyReset (s : State) (k : ResetKind) : ResetValues (s.applyReset k) := by
  obtain ⟨hreset, -⟩ := resetTable
  exact { hreset with }

/-- A held access is discarded and answered `lost`, before what the port has answered so far (R264). -/
theorem applyReset_responses (s : State) (k : ResetKind) :
    (s.applyReset k).responses = (if s.held.isSome then [Response.lost] else []) ++ s.responses := by
  rw [State.applyReset]
  split <;> rfl

/-- Settles O11: the event leads to `applyReset`, whose memory is `memAfterReset`. -/
theorem resetEvent : Obligations.reset_event := by
  intro s k rest hevents
  refine ⟨{ s with events := rest }.applyReset k, step_reset hevents, resetValues_applyReset _ k, rfl, rfl,
    applyReset_responses _ k, ?_⟩
  have hmem : ({ s with events := rest }.applyReset k).mem = s.memAfterReset k := rfl
  rw [hmem]
  refine ⟨?_, ?_, ?_, ?_⟩
  · rintro rfl addr
    rfl
  · rintro rfl hidle
    exact memAfterReset_warm_of_nil (abandonedExtents_of_idle hidle)
  · rintro rfl w i hpending hdecode addr
    rw [read_memAfterReset_warm hpending hdecode]
    refine ⟨fun hin => if_pos hin, fun hout => if_neg ?_⟩
    rintro ⟨p, hp, hlo, hhi⟩
    have := hout p hp
    omega
  · rintro rfl w e hpending hdecode
    exact memAfterReset_warm_of_nil (abandonedExtents_of_decode_error hpending hdecode)

end Sys2Proof.Proofs
end

section
/-! PROOFS. Host reads of what nothing has written (70_reset R265). -/

namespace Sys2Proof.Proofs

open Sys2Proof Sys2Proof.Machine Sys2Proof.Safety Sys2Proof.Laws

/-- A register read while idle ends in the fault that the register's read gives. -/
theorem step_regRead_fault {s : State} {off : Nat} {f : Fault} {rest : List Event} (hi : Issues s (.regRead off 4) rest)
    (h4 : off % 4 = 0) (hlt : off < 0x2000) (hb : s.busy = false) (hf : s.readReg (regAt off) = .error f) :
    step s = .fault f := by
  rw [step_idle hi (if_pos ((regAdmitted_iff off 4).mpr ⟨rfl, h4, hlt⟩)) hb]
  simp only [State.perform, readReg_events, hf]

/-- A buffer-memory read while idle ends in the fault that `hostMemRead` gives. -/
theorem step_memRead_fault {s : State} {addr n : Nat} {f : Fault} {rest : List Event} (hi : Issues s (.memRead addr n) rest)
    (hadm : memAdmitted addr n = true) (hb : s.busy = false) (hf : s.hostMemRead addr n = .error f) : step s = .fault f := by
  have hf' : { s with events := rest }.hostMemRead addr n = .error f := hf
  rw [step_idle hi (if_pos hadm) hb, State.perform, hf']

/-- One unwritten byte leaves a little-endian read without a value. -/
theorem readLE_eq_none {m : Memory} {addr n k : Nat} (hk : k < n) (h : Store.read m (addr + k) = none) :
    Memory.readLE m addr n = none := by
  rw [← Option.not_isSome_iff_eq_none]
  intro hsome
  have hbyte := isSome_of_readLE hsome hk
  rw [h] at hbyte
  cases hbyte

theorem hostMemRead_unwritten {s : State} {addr n k : Nat} (hin : addr + n ≤ s.cfg.memSize) (hk : k < n)
    (h : Store.read s.mem (addr + k) = none) : s.hostMemRead addr n = .error .unwrittenMemory := by
  rw [State.hostMemRead, if_pos hin, readLE_eq_none hk h]

/-- Each window faults as its own store when the entry is unwritten. -/
theorem readReg_window_unwritten (s : State) (i : Nat) :
    (Store.read s.kram i = none → s.readReg (.kram i) = .error .unwrittenKram) ∧
    (Store.read s.hist i = none → s.readReg (.hist i) = .error .unwrittenHist) ∧
    (Store.read s.cum i = none → s.readReg (.cum i) = .error .unwrittenCum) ∧
    (Store.read s.lut i = none → s.readReg (.lut i) = .error .unwrittenLut) := by
  refine ⟨?_, ?_, ?_, ?_⟩ <;> intro h <;> rw [State.readReg, h] <;> rfl

/-- Settles O20: each window reads its own store, and memory reads all the bytes of the access. -/
theorem unwrittenHostReadFaults : Obligations.unwritten_host_read_faults := by
  intro s rest hb
  refine ⟨fun i hlt => ?_, fun addr n k hn ha hin hi hk hnone => ?_⟩
  · obtain ⟨hkram, hhist, hcum, hlut⟩ := readReg_window_unwritten s i
    rw [← regAt_kram hlt] at hkram
    rw [← regAt_hist hlt] at hhist
    rw [← regAt_cum hlt] at hcum
    rw [← regAt_lut hlt] at hlut
    exact ⟨fun hi hnone => step_regRead_fault hi (by omega) (by omega) hb (hkram hnone),
      fun hi hnone => step_regRead_fault hi (by omega) (by omega) hb (hhist hnone),
      fun hi hnone => step_regRead_fault hi (by omega) (by omega) hb (hcum hnone),
      fun hi hnone => step_regRead_fault hi (by omega) (by omega) hb (hlut hnone)⟩
  · exact step_memRead_fault hi ((memAdmitted_iff addr n).mpr ⟨hn, ha⟩) hb (hostMemRead_unwritten hin hk hnone)

end Sys2Proof.Proofs
end
